-- ==== Sys2Proof/Word.lean ====
section
/-! DEFINITION. Word.lean: the two widths every register access and every bus byte has (spec/00_scope.md R5, R6).
All values are unsigned patterns of the stated width, bit 0 least significant (R6). -/

namespace Sys2Proof

/-- One byte: a bus byte, a header, a host-buffer cell (`DATA_BITS`, `HDR_BITS` = 8, R5). -/
abbrev Byte := BitVec 8

/-- The widest host access, 32 bits (R73); narrower registers use the low bits. -/
abbrev Word := BitVec 32

end Sys2Proof
end

