-- ==== Sys2Proof/Syntax.lean ====
section
/-! DEFINITION. Syntax.lean: what the host can ask of the block. `Instr` has one constructor per row of
spec/opcode_table.json: the 18 host register accesses (HACC, spec/30_encoding.md R91, R101) and the 35 procedure
operations (PROC, R100). The other types are their operands, the words they are decoded from, and the host's own
actions that the spec names beside them (R7 memory accesses, R104 pseudo-instructions). -/

namespace Sys2Proof

/-- The seven host-visible registers (spec/10_state.md R21). -/
inductive Reg where
  | ctrla | ctrlb | intflag | status | syncbusy | addr | data
deriving DecidableEq, Repr, Inhabited

/-- The command set of CTRLB.CMD (R94), in the spec's order. -/
inductive Cmd where
  | noop | repeatStart | readContinue | stop
deriving DecidableEq, Repr, Inhabited

/-- The event kinds of `bcc.wait_sync` (R99). -/
inductive Event where
  | swrst | enable | sysop | any
deriving DecidableEq, Repr, Inhabited

/-- The two roles `bcc.set_mode` can ask for (R204). -/
inductive Role where
  | controller | target
deriving DecidableEq, Repr, Inhabited

/-- The two bus signal pins (R209). -/
inductive Pin where
  | sda | scl
deriving DecidableEq, Repr, Inhabited

/-- A pin function (R209): the spec names only I2C_FUNCTION, and every other kind is one of the rest. -/
inductive PinFn where
  | i2c
  | other (n : Nat)
deriving DecidableEq, Repr

/-- An identifier of a Register-Map Description (spec/45_register_accessor.md R270). -/
abbrev Ident := String

/-- The kind of a sub-field (R270). -/
inductive Kind where
  | unsigned
  | signed
  | flag
  | enum (codes : List (Nat × Ident))
deriving DecidableEq, Repr

/-- A bit-field of a field (R270): `name = none` is reserved bits. -/
structure SubField where
  name   : Option Ident
  bitoff : Nat
  width  : Nat
  kind   : Kind
  dflt   : Int
deriving DecidableEq, Repr

/-- A field of a Register-Map Description (R270): `name = none` is padding, `subs = []` is one raw field. -/
structure Field where
  name : Option Ident
  size : Nat
  subs : List SubField
deriving DecidableEq, Repr

/-- The sub-fields a field has: a field with none stands for one unsigned sub-field over all its bits (R270). -/
def Field.allSubs (f : Field) : List SubField :=
  match f.subs with
  | [] => [{ name := f.name, bitoff := 0, width := 8 * f.size, kind := .unsigned, dflt := 0 }]
  | s :: ss => s :: ss

/-- A Register-Map Description: its fields in declaration order (R270). -/
abbrev RMap := List Field

/-- A field reference: an index or a name (R272). -/
inductive FieldRef where
  | idx (n : Nat)
  | name (x : Ident)
deriving DecidableEq, Repr

/-- One constructor per row of spec/opcode_table.json, in the table's order. A write carries the whole value the
host writes, at the register's declared width (R73); a read carries nothing, since its DATA field is ignored (R91). A
buffer operand is its base address, `none` being the null buffer (R53). Output operands (the byte location of
`eng.recv_data_sync` apart, which is a host address) are the result the procedure gives back (R346). -/
inductive Instr where
  -- HACC reads (R121 to R127)
  | rdCtrla
  | rdCtrlb
  | rdIntflag
  | rdStatus
  | rdSyncbusy
  | rdAddr
  | rdData
  -- HACC writes (R130 to R142)
  | wrCtrlaSwrst (v : Word)
  | wrCtrlaConfig (v : Word)
  | wrCtrlbNoop (v : Word)
  | wrCtrlbRepeatStart (v : Word)
  | wrCtrlbReadContinue (v : Word)
  | wrCtrlbStop (v : Word)
  | wrIntflag (v : Byte)
  | wrStatus (v : BitVec 16)
  | wrSyncbusy (v : Word)
  | wrAddr (v : Word)
  | wrData (v : Byte)
  -- Bus-Controller-Common (R200 to R206)
  | bccReset
  | bccEnable
  | bccDisable
  | bccWaitSync (e : Event)
  | bccSetMode (m : Role)
  | bccGetMode
  | bccInit
  -- external services (R207 to R210)
  | extClockAttach
  | extClockDetach
  | extPinSetFunction (p : Pin) (k : PinFn)
  | extGetFrequency
  -- Bus-Primary engine (R220 to R229)
  | engMakeHeader (addr : Nat) (isRead : Bool)
  | engParseHeader (h : Byte)
  | engWaitFlag (mask : Byte)
  | engSetAddrSync (addr : Nat) (isRead : Bool)
  | engSendDataSync (b : Byte)
  | engRecvDataSync (out : Nat)
  | engRecvBurst (buf : Nat) (len : Nat)
  | engSendCmd (c : Cmd)
  | engSendAck
  | engSendNack
  -- Bus-Socket (R250 to R253)
  | sockConnect (addr : Nat)
  | sockSend (data : Option Nat) (len : Nat)
  | sockRecv (data : Option Nat) (len : Nat)
  | sockProbe (cands : List Nat)
  -- Register-Map Description and accessor (R271 to R287)
  | rfaLayoutCheck (m : RMap)
  | rfaOffset (r : FieldRef)
  | rfaSize (r : FieldRef)
  | rfaTotalSize (m : RMap)
  | rfaWrite (offset : Nat) (data : Option Nat) (len : Nat)
  | rfaRead (offset : Nat) (data : Option Nat) (len : Nat)
  | rfaUnpack (f : Field) (bs : List Byte)
  | rfaPack (f : Field) (vals : List (Option Int))
  | rfaReadField (r : FieldRef)
  | rfaWriteField (r : FieldRef) (vals : List (Option Int))
deriving DecidableEq, Repr

/-- An operand value passed with a PROC call: the id does not encode it (R100). -/
inductive Operand where
  | num (n : Nat)
  | bool (b : Bool)
  | byte (b : Byte)
  | event (e : Event)
  | role (m : Role)
  | pin (p : Pin)
  | pinFn (k : PinFn)
  | cmd (c : Cmd)
  | buf (a : Option Nat)
  | nums (ns : List Nat)
  | ref (r : FieldRef)
  | map (m : RMap)
  | field (f : Field)
  | bytes (bs : List Byte)
  | vals (vs : List (Option Int))
deriving DecidableEq, Repr

/-- What the decoder reads: a 48-bit host access descriptor (R91), or an 8-bit procedure id with its operands (R100). -/
inductive HostWord where
  | hacc (d : BitVec 48)
  | proc (id : Byte) (ops : List Operand)
deriving DecidableEq, Repr

/-- Why a host word names no operation (R102, R312): the two refusals made while decoding. -/
inductive Reject where
  /-- Z ≠ 0, DATA bits above the register's width, a PROC id not in the table, operands of the wrong shape. -/
  | illFormed
  /-- OFF is no register, or the access has another width than the register's (R75). -/
  | unmapped
deriving DecidableEq, Repr

/-- The host's own actions the spec names beside the table's rows: host-memory accesses (R7, R76), a read of `status`
(R305), the pseudo-instructions of R104, and a register access made by address and width (R70 to R75). -/
inductive HostAct where
  /-- `MemWrite`: the host writes these bytes from address `a` upward. -/
  | memWrite (a : Nat) (bs : List Byte)
  /-- `MemRead`: the host reads `n` bytes from address `a` upward. -/
  | memRead (a n : Nat)
  /-- The host reads the shared Transaction Status. -/
  | readStatus
  /-- `cmd NAME`. -/
  | cmd (c : Cmd)
  /-- `ack`. -/
  | ack
  /-- `nack`. -/
  | nack
  /-- `swrst`. -/
  | swrst
  /-- `forceidle`. -/
  | forceIdle
  /-- `wait REG, mask, zero|set` (`set = true` waits for a set bit). -/
  | wait (r : Reg) (mask : Word) (set : Bool)
  /-- A register access at host address `addr`, `width` bits wide; `w = true` writes `v`. -/
  | mmio (w : Bool) (addr width : Nat) (v : Word)
deriving DecidableEq, Repr

/-- One entry of the host's program: a table operation, still as its word, or an action of the host's own. -/
inductive Item where
  | op (w : HostWord)
  | act (a : HostAct)
deriving DecidableEq, Repr

/-- A line of the spec's assembly syntax (R104), as its parts; the letters of the line are not modelled. -/
inductive Asm where
  /-- `rd REG`. -/
  | rd (r : Reg)
  /-- `wr REG, imm`. -/
  | wr (r : Reg) (imm : Word)
  /-- `wr CTRLB, cmd=NAME, ackact=b, smen=b`: an omitted field is 0. -/
  | wrCtrlb (c : Cmd) (ackact smen : Bool)
  /-- `wr STATUS, busstate=IDLE`. -/
  | wrStatusIdle
  /-- `wr INTFLAG, mb|sb`. -/
  | wrIntflag (mb sb : Bool)
  /-- `name(arg, ...)`: a procedure call. -/
  | call (id : Byte) (args : List Operand)
  /-- A pseudo-instruction. -/
  | pseudo (a : HostAct)
deriving DecidableEq, Repr

/-- Who raised a fault: "the descriptor or procedure that raised it" (R312), or an action of the host's own. -/
inductive Origin where
  | instr (i : Instr)
  | act (a : HostAct)
deriving DecidableEq, Repr

end Sys2Proof
end

