-- ==== Sys2Proof/WellFormed.lean ====
section
/-! DEFINITION. WellFormed.lean: which instructions the encodings of spec/30_encoding.md can name. A CTRLA or CTRLB write
is one row by its SWRST or CMD bits (R91), and `rfa.pack` takes one entry per sub-field (R282, R312 ILL_FORMED). Everything
else is well-formed by its type: `eng.wait_flag` takes every mask (log entry 22) and `rfa.unpack` any number of bytes (log
entry 21), for neither of which the spec gives a refusal. -/

namespace Sys2Proof

/-- The CMD field of a CTRLB write value, bits 17:16 (R94). -/
def ctrlbCmdBits (v : Word) : BitVec 2 := v.extractLsb' 16 2

/-- Whether an instruction is one its row's encoding admits. -/
def Instr.wf : Instr → Bool
  | .rdCtrla => true
  | .rdCtrlb => true
  | .rdIntflag => true
  | .rdStatus => true
  | .rdSyncbusy => true
  | .rdAddr => true
  | .rdData => true
  | .wrCtrlaSwrst v => v.getLsbD 0
  | .wrCtrlaConfig v => !v.getLsbD 0
  | .wrCtrlbNoop v => ctrlbCmdBits v == 0b00#2
  | .wrCtrlbRepeatStart v => ctrlbCmdBits v == 0b01#2
  | .wrCtrlbReadContinue v => ctrlbCmdBits v == 0b10#2
  | .wrCtrlbStop v => ctrlbCmdBits v == 0b11#2
  | .wrIntflag _ => true
  | .wrStatus _ => true
  | .wrSyncbusy _ => true
  | .wrAddr _ => true
  | .wrData _ => true
  | .bccReset => true
  | .bccEnable => true
  | .bccDisable => true
  | .bccWaitSync _ => true
  | .bccSetMode _ => true
  | .bccGetMode => true
  | .bccInit => true
  | .extClockAttach => true
  | .extClockDetach => true
  | .extPinSetFunction _ _ => true
  | .extGetFrequency => true
  | .engMakeHeader _ _ => true
  | .engParseHeader _ => true
  | .engWaitFlag _ => true
  | .engSetAddrSync _ _ => true
  | .engSendDataSync _ => true
  | .engRecvDataSync _ => true
  | .engRecvBurst _ _ => true
  | .engSendCmd _ => true
  | .engSendAck => true
  | .engSendNack => true
  | .sockConnect _ => true
  | .sockSend _ _ => true
  | .sockRecv _ _ => true
  | .sockProbe _ => true
  | .rfaLayoutCheck _ => true
  | .rfaOffset _ => true
  | .rfaSize _ => true
  | .rfaTotalSize _ => true
  | .rfaWrite _ _ _ => true
  | .rfaRead _ _ _ => true
  | .rfaUnpack _ _ => true
  | .rfaPack f vals => vals.length == f.allSubs.length
  | .rfaReadField _ => true
  | .rfaWriteField _ _ => true

end Sys2Proof
end

