-- ==== Sys2Proof/Decode.lean ====
section
/-! DEFINITION. Decode.lean: the decoder, total on every host word, and the encoder (spec/30_encoding.md R91, R94, R100 to
R103). A host access descriptor is the 48-bit number of R91: Z 47:41, W 40, OFF 39:32, DATA 31:0. A procedure word is its
8-bit id with the operands passed beside it. -/

namespace Sys2Proof

/-- The byte offset of a register (R21). -/
def Reg.offset : Reg → Byte
  | .ctrla => 0x00#8
  | .ctrlb => 0x04#8
  | .intflag => 0x18#8
  | .status => 0x1A#8
  | .syncbusy => 0x1C#8
  | .addr => 0x24#8
  | .data => 0x28#8

/-- The declared access width of a register in bits (R73). -/
def Reg.width : Reg → Nat
  | .ctrla => 32
  | .ctrlb => 32
  | .intflag => 8
  | .status => 16
  | .syncbusy => 32
  | .addr => 32
  | .data => 8

/-- The register at an offset; no other offset holds one (R21, R75). -/
def regAt (off : Byte) : Option Reg :=
  [Reg.ctrla, .ctrlb, .intflag, .status, .syncbusy, .addr, .data].find? (fun r => r.offset == off)

/-- The CMD code of a command (R94). -/
def Cmd.code : Cmd → BitVec 2
  | .noop => 0b00#2
  | .repeatStart => 0b01#2
  | .readContinue => 0b10#2
  | .stop => 0b11#2

/-- The read row of a register (R101). -/
def readInstr : Reg → Instr
  | .ctrla => .rdCtrla
  | .ctrlb => .rdCtrlb
  | .intflag => .rdIntflag
  | .status => .rdStatus
  | .syncbusy => .rdSyncbusy
  | .addr => .rdAddr
  | .data => .rdData

/-- The write row of a register, chosen by SWRST for CTRLA and by CMD for CTRLB (R91). -/
def writeInstr (r : Reg) (v : Word) : Instr :=
  match r with
  | .ctrla => if v.getLsbD 0 then .wrCtrlaSwrst v else .wrCtrlaConfig v
  | .ctrlb =>
    if ctrlbCmdBits v = 0b00#2 then .wrCtrlbNoop v
    else if ctrlbCmdBits v = 0b01#2 then .wrCtrlbRepeatStart v
    else if ctrlbCmdBits v = 0b10#2 then .wrCtrlbReadContinue v
    else .wrCtrlbStop v
  | .intflag => .wrIntflag (v.extractLsb' 0 8)
  | .status => .wrStatus (v.extractLsb' 0 16)
  | .syncbusy => .wrSyncbusy v
  | .addr => .wrAddr v
  | .data => .wrData (v.extractLsb' 0 8)

/-- Whether a written value fits the register: DATA bits above the width must be 0 (R91). -/
def fitsWidth (r : Reg) (v : Word) : Bool := v >>> r.width == 0#32

/-- Decoding a host access descriptor (R91, R102, R120), refusing in the order of R303. A read ignores DATA. -/
def decodeHacc (d : BitVec 48) : Except Reject Instr :=
  if d.extractLsb' 41 7 ≠ 0#7 then .error .illFormed
  else match regAt (d.extractLsb' 32 8) with
    | none => .error .unmapped
    | some r =>
      if d.getLsbD 40 then
        if fitsWidth r (d.extractLsb' 0 32) then .ok (writeInstr r (d.extractLsb' 0 32)) else .error .illFormed
      else .ok (readInstr r)

-- the operand shapes of R100

/-- The operand shape: an empty operand list. -/
def args0 (i : Instr) : List Operand → Option Instr
  | [] => some i
  | _ => none

/-- The operand shape: one event. -/
def argsEvent (f : Event → Instr) : List Operand → Option Instr
  | [.event e] => some (f e)
  | _ => none

/-- The operand shape: one role. -/
def argsRole (f : Role → Instr) : List Operand → Option Instr
  | [.role m] => some (f m)
  | _ => none

/-- The operand shape: a pin and a pin function. -/
def argsPin (f : Pin → PinFn → Instr) : List Operand → Option Instr
  | [.pin p, .pinFn k] => some (f p k)
  | _ => none

/-- The operand shape: a number and a bit. -/
def argsNumBool (f : Nat → Bool → Instr) : List Operand → Option Instr
  | [.num n, .bool b] => some (f n b)
  | _ => none

/-- The operand shape: one byte. -/
def argsByte (f : Byte → Instr) : List Operand → Option Instr
  | [.byte b] => some (f b)
  | _ => none

/-- The operand shape: one number. -/
def argsNum (f : Nat → Instr) : List Operand → Option Instr
  | [.num n] => some (f n)
  | _ => none

/-- The operand shape: two numbers. -/
def argsNumNum (f : Nat → Nat → Instr) : List Operand → Option Instr
  | [.num a, .num b] => some (f a b)
  | _ => none

/-- The operand shape: one command. -/
def argsCmd (f : Cmd → Instr) : List Operand → Option Instr
  | [.cmd c] => some (f c)
  | _ => none

/-- The operand shape: a buffer and a length. -/
def argsBufNum (f : Option Nat → Nat → Instr) : List Operand → Option Instr
  | [.buf d, .num n] => some (f d n)
  | _ => none

/-- The operand shape: one list of numbers. -/
def argsNums (f : List Nat → Instr) : List Operand → Option Instr
  | [.nums ns] => some (f ns)
  | _ => none

/-- The operand shape: one map. -/
def argsMap (f : RMap → Instr) : List Operand → Option Instr
  | [.map m] => some (f m)
  | _ => none

/-- The operand shape: one field reference. -/
def argsRef (f : FieldRef → Instr) : List Operand → Option Instr
  | [.ref r] => some (f r)
  | _ => none

/-- The operand shape: an offset, a buffer and a length. -/
def argsOffset (f : Nat → Option Nat → Nat → Instr) : List Operand → Option Instr
  | [.num o, .buf d, .num n] => some (f o d n)
  | _ => none

/-- The operand shape: a field and its bytes. -/
def argsFieldBytes (f : Field → List Byte → Instr) : List Operand → Option Instr
  | [.field x, .bytes bs] => some (f x bs)
  | _ => none

/-- The operand shape: a field and its values. -/
def argsFieldVals (f : Field → List (Option Int) → Instr) : List Operand → Option Instr
  | [.field x, .vals vs] => some (f x vs)
  | _ => none

/-- The operand shape: a field reference and its values. -/
def argsRefVals (f : FieldRef → List (Option Int) → Instr) : List Operand → Option Instr
  | [.ref r, .vals vs] => some (f r vs)
  | _ => none

/-- The controller-common procedures and the services, ids 0x01 to 0x0B (R100). -/
def procBcc (id : Nat) (ops : List Operand) : Option Instr :=
  match id with
  | 0x01 => args0 .bccReset ops
  | 0x02 => args0 .bccEnable ops
  | 0x03 => args0 .bccDisable ops
  | 0x04 => argsEvent .bccWaitSync ops
  | 0x05 => argsRole .bccSetMode ops
  | 0x06 => args0 .bccGetMode ops
  | 0x07 => args0 .bccInit ops
  | 0x08 => args0 .extClockAttach ops
  | 0x09 => args0 .extClockDetach ops
  | 0x0A => argsPin .extPinSetFunction ops
  | 0x0B => args0 .extGetFrequency ops
  | _ => none

/-- The engine's procedures, ids 0x10 to 0x19 (R100). -/
def procEng (id : Nat) (ops : List Operand) : Option Instr :=
  match id with
  | 0x10 => argsNumBool .engMakeHeader ops
  | 0x11 => argsByte .engParseHeader ops
  | 0x12 => argsByte .engWaitFlag ops
  | 0x13 => argsNumBool .engSetAddrSync ops
  | 0x14 => argsByte .engSendDataSync ops
  | 0x15 => argsNum .engRecvDataSync ops
  | 0x16 => argsNumNum .engRecvBurst ops
  | 0x17 => argsCmd .engSendCmd ops
  | 0x18 => args0 .engSendAck ops
  | 0x19 => args0 .engSendNack ops
  | _ => none

/-- The socket's procedures, ids 0x20 to 0x23 (R100). -/
def procSock (id : Nat) (ops : List Operand) : Option Instr :=
  match id with
  | 0x20 => argsNum .sockConnect ops
  | 0x21 => argsBufNum .sockSend ops
  | 0x22 => argsBufNum .sockRecv ops
  | 0x23 => argsNums .sockProbe ops
  | _ => none

/-- The accessor's procedures, ids 0x30 to 0x39 (R100). -/
def procRfa (id : Nat) (ops : List Operand) : Option Instr :=
  match id with
  | 0x30 => argsMap .rfaLayoutCheck ops
  | 0x31 => argsRef .rfaOffset ops
  | 0x32 => argsRef .rfaSize ops
  | 0x33 => argsMap .rfaTotalSize ops
  | 0x34 => argsOffset .rfaWrite ops
  | 0x35 => argsOffset .rfaRead ops
  | 0x36 => argsFieldBytes .rfaUnpack ops
  | 0x37 => argsFieldVals .rfaPack ops
  | 0x38 => argsRef .rfaReadField ops
  | 0x39 => argsRefVals .rfaWriteField ops
  | _ => none

/-- The instruction a procedure id and its operands name, before the operands' lengths are checked (R100). -/
def procInstr (id : Byte) (ops : List Operand) : Option Instr :=
  if id.toNat < 0x10 then procBcc id.toNat ops
  else if id.toNat < 0x20 then procEng id.toNat ops
  else if id.toNat < 0x30 then procSock id.toNat ops
  else procRfa id.toNat ops

/-- Decoding a procedure word: an unknown id or an operand list of the wrong shape is ILL_FORMED (R102, R312). -/
def decodeProc (id : Byte) (ops : List Operand) : Except Reject Instr :=
  match procInstr id ops with
  | some i => if i.wf then .ok i else .error .illFormed
  | none => .error .illFormed

/-- The decoder: total, and every host word it does not accept is rejected by name. -/
def decode : HostWord → Except Reject Instr
  | .hacc d => decodeHacc d
  | .proc id ops => decodeProc id ops

/-- A host access descriptor from its fields, with Z = 0 (R91). -/
def haccWord (w : Bool) (r : Reg) (v : Word) : HostWord :=
  .hacc (0#7 ++ BitVec.ofBool w ++ r.offset ++ v)

/-- The host word of an instruction (R91, R100). -/
def encode : Instr → HostWord
  | .rdCtrla => haccWord false .ctrla 0#32
  | .rdCtrlb => haccWord false .ctrlb 0#32
  | .rdIntflag => haccWord false .intflag 0#32
  | .rdStatus => haccWord false .status 0#32
  | .rdSyncbusy => haccWord false .syncbusy 0#32
  | .rdAddr => haccWord false .addr 0#32
  | .rdData => haccWord false .data 0#32
  | .wrCtrlaSwrst v => haccWord true .ctrla v
  | .wrCtrlaConfig v => haccWord true .ctrla v
  | .wrCtrlbNoop v => haccWord true .ctrlb v
  | .wrCtrlbRepeatStart v => haccWord true .ctrlb v
  | .wrCtrlbReadContinue v => haccWord true .ctrlb v
  | .wrCtrlbStop v => haccWord true .ctrlb v
  | .wrIntflag v => haccWord true .intflag (v.setWidth 32)
  | .wrStatus v => haccWord true .status (v.setWidth 32)
  | .wrSyncbusy v => haccWord true .syncbusy v
  | .wrAddr v => haccWord true .addr v
  | .wrData v => haccWord true .data (v.setWidth 32)
  | .bccReset => .proc 0x01#8 []
  | .bccEnable => .proc 0x02#8 []
  | .bccDisable => .proc 0x03#8 []
  | .bccWaitSync e => .proc 0x04#8 [.event e]
  | .bccSetMode m => .proc 0x05#8 [.role m]
  | .bccGetMode => .proc 0x06#8 []
  | .bccInit => .proc 0x07#8 []
  | .extClockAttach => .proc 0x08#8 []
  | .extClockDetach => .proc 0x09#8 []
  | .extPinSetFunction p k => .proc 0x0A#8 [.pin p, .pinFn k]
  | .extGetFrequency => .proc 0x0B#8 []
  | .engMakeHeader a r => .proc 0x10#8 [.num a, .bool r]
  | .engParseHeader h => .proc 0x11#8 [.byte h]
  | .engWaitFlag m => .proc 0x12#8 [.byte m]
  | .engSetAddrSync a r => .proc 0x13#8 [.num a, .bool r]
  | .engSendDataSync b => .proc 0x14#8 [.byte b]
  | .engRecvDataSync out => .proc 0x15#8 [.num out]
  | .engRecvBurst buf len => .proc 0x16#8 [.num buf, .num len]
  | .engSendCmd c => .proc 0x17#8 [.cmd c]
  | .engSendAck => .proc 0x18#8 []
  | .engSendNack => .proc 0x19#8 []
  | .sockConnect a => .proc 0x20#8 [.num a]
  | .sockSend d len => .proc 0x21#8 [.buf d, .num len]
  | .sockRecv d len => .proc 0x22#8 [.buf d, .num len]
  | .sockProbe cs => .proc 0x23#8 [.nums cs]
  | .rfaLayoutCheck m => .proc 0x30#8 [.map m]
  | .rfaOffset r => .proc 0x31#8 [.ref r]
  | .rfaSize r => .proc 0x32#8 [.ref r]
  | .rfaTotalSize m => .proc 0x33#8 [.map m]
  | .rfaWrite o d len => .proc 0x34#8 [.num o, .buf d, .num len]
  | .rfaRead o d len => .proc 0x35#8 [.num o, .buf d, .num len]
  | .rfaUnpack f bs => .proc 0x36#8 [.field f, .bytes bs]
  | .rfaPack f vs => .proc 0x37#8 [.field f, .vals vs]
  | .rfaReadField r => .proc 0x38#8 [.ref r]
  | .rfaWriteField r vs => .proc 0x39#8 [.ref r, .vals vs]

/-- The raw one-byte field: the "operand of zeros" of the rows whose operand is a field. -/
def zeroField : Field := { name := none, size := 1, subs := [] }

/-- The operands of zeros of a procedure id: number 0, the null buffer, the empty list, the first name of a set, and a
raw one-byte field holding 0. -/
def zeroOperands (id : Byte) : List Operand :=
  match id.toNat with
  | 0x04 => [.event .swrst]
  | 0x05 => [.role .controller]
  | 0x0A => [.pin .sda, .pinFn .i2c]
  | 0x10 => [.num 0, .bool false]
  | 0x11 => [.byte 0#8]
  | 0x12 => [.byte 0#8]
  | 0x13 => [.num 0, .bool false]
  | 0x14 => [.byte 0#8]
  | 0x15 => [.num 0]
  | 0x16 => [.num 0, .num 0]
  | 0x17 => [.cmd .noop]
  | 0x20 => [.num 0]
  | 0x21 => [.buf none, .num 0]
  | 0x22 => [.buf none, .num 0]
  | 0x23 => [.nums []]
  | 0x30 => [.map []]
  | 0x31 => [.ref (.idx 0)]
  | 0x32 => [.ref (.idx 0)]
  | 0x33 => [.map []]
  | 0x34 => [.num 0, .buf none, .num 0]
  | 0x35 => [.num 0, .buf none, .num 0]
  | 0x36 => [.field zeroField, .bytes [0#8]]
  | 0x37 => [.field zeroField, .vals [none]]
  | 0x38 => [.ref (.idx 0)]
  | 0x39 => [.ref (.idx 0), .vals [none]]
  | _ => []

/-- The host word whose bits are `w`: an 8-bit procedure id with operands of zeros, or a 48-bit descriptor. -/
def tableWord (nbits w : Nat) : HostWord :=
  if nbits ≤ 8 then .proc (BitVec.ofNat 8 w) (zeroOperands (BitVec.ofNat 8 w)) else .hacc (BitVec.ofNat 48 w)

/-- The instruction the decoder reads from a word of spec/opcode_table.json. -/
def decodeTableWord (nbits w : Nat) : Option Instr :=
  match decode (tableWord nbits w) with
  | .ok i => some i
  | .error _ => none

/-- The register an access by address and width reaches: inside the 64-byte window, at a register's offset and its
declared width; `none` for an access outside the window (R74), a rejection for any other (R75). The start address alone says
which it is (DESIGN CHOICE, log entry 27): an access that starts below the window is outside it, though its bytes reach in. -/
def mmioReg (base addr width : Nat) : Option (Except Reject Reg) :=
  if base ≤ addr ∧ addr < base + 64 then
    match regAt (BitVec.ofNat 8 (addr - base)) with
    | some r => if width = r.width then some (.ok r) else some (.error .unmapped)
    | none => some (.error .unmapped)
  else none

/-- The operation an access by address and width makes (R70, R75): the table row of the register it reaches. A write at
another offset or width is UNMAPPED whatever its value (DESIGN CHOICE, log entry 23): the value is held against the register's
width only once a register is reached. -/
def mmioInstr (base : Nat) (w : Bool) (addr width : Nat) (v : Word) : Option (Except Reject Instr) :=
  match mmioReg base addr width with
  | none => none
  | some (.error e) => some (.error e)
  | some (.ok r) =>
    if w then
      if fitsWidth r v then some (.ok (writeInstr r v)) else some (.error .illFormed)
    else some (.ok (readInstr r))

end Sys2Proof
end

