-- ==== Sys2Proof/Config.lean ====
section
/-! DEFINITION. Config.lean: what is fixed for one machine (the parameters of spec/00_scope.md R5) and what the spec
leaves open (the bus environment's answers, R174; which agent moves next, R177; the frequency, R210). Every open value
is an opaque constant: nothing in Lean can compute it, so a statement about it holds whatever it is. -/

namespace Sys2Proof

/-- An acknowledge: ACK = 0, NACK = 1 as a register bit (R95). -/
inductive Ack where
  | ack | nack
deriving DecidableEq, Repr, Inhabited

/-- The bus events of the trace (spec/10_state.md R44). -/
inductive BusEvent where
  | start
  | rstart
  | hdr (h : Byte) (a : Ack)
  | tx (b : Byte) (a : Ack)
  | rx (b : Byte)
  | mack (k : Ack)
  | stop
  | busErr
  | abort
deriving DecidableEq, Repr

/-- The environment's answer to a transmitted byte, `AckDraw` (R174). -/
inductive AckDraw where
  | ack | nack | busErr
deriving DecidableEq, Repr, Inhabited

/-- The environment's answer to a byte reception, `ByteDraw` (R174). -/
inductive ByteDraw where
  | byte (d : Byte)
  | busErr
deriving DecidableEq, Repr, Inhabited

/-- The moves of the three agents (spec/00_scope.md R9): one host step, each controller step of R170, and the
environment's bus-idle observation (R172). -/
inductive Move where
  | host
  | swrstSync
  | enableSync
  | sysopSync
  | bus
  | busIdle
deriving DecidableEq, Repr, Inhabited

/-- `P_READ_NACK_FLAG` (R5): which ready flag a read header answered NACK sets. -/
inductive ReadyFlag where
  | sb | mb
deriving DecidableEq, Repr, Inhabited

/-- The parameters of R5 that the machine reads. They are carried as plain data, so that one step function serves every
machine and a statement over all states holds for every value of them; no step changes them. -/
structure Params where
  /-- `P_SMART` (R51). -/
  smart : Bool
  /-- `P_READ_NACK_FLAG` (R164). -/
  readNackFlag : ReadyFlag
  /-- `P_MAX_FRAME` (R251). -/
  maxFrame : Nat
  /-- `P_DEFAULT_ADDR` (R46). -/
  defaultAddr : BitVec 7
  /-- `P_MAP` (R52). -/
  map : RMap
  /-- `I2CM_BASE` (R74). -/
  base : Nat
deriving DecidableEq, Repr

namespace Config

/-- `P_SMART` of the machine at hand: an OPEN parameter (R5). -/
opaque smart : Bool

/-- `P_DEFAULT_ADDR` of the machine at hand: an OPEN parameter (R5). -/
opaque defaultAddr : BitVec 7

/-- `P_MAP` of the machine at hand: an OPEN parameter (R5). -/
opaque map : RMap

/-- `I2CM_BASE` of the machine at hand: an OPEN parameter (R74). -/
opaque base : Nat

/-- FREE VALUE: the environment's answer to a byte the controller transmits, which may depend on the whole bus trace so
far (R174). -/
opaque ackDraw : List BusEvent → Byte → AckDraw

/-- FREE VALUE: the environment's answer to a byte the controller receives, which may depend on the whole trace (R174). -/
opaque byteDraw : List BusEvent → ByteDraw

/-- FREE VALUE: whether the environment holds off a bus step now (clock stretching, R174), by the trace and the step count. -/
opaque stall : List BusEvent → Nat → Bool

/-- FREE VALUE: the acknowledge `SimTarget` gives a data byte sent in a read frame, for which R176 states none; it is never
a bus error (R176). -/
opaque targetAck : List BusEvent → Byte → Ack

/-- FREE VALUE: the byte `SimTarget` supplies outside a read frame addressed to it, for which R176 states none; it is never
a bus error (R176). -/
opaque targetByte : List BusEvent → Byte

/-- FREE VALUE: which move comes next, by the step count: the model admits every interleaving (R177). -/
opaque nextMove : Nat → Move

/-- FREE VALUE: the frequency the clock service reports, a fresh one at each call (R210). -/
opaque frequency : Nat → Nat

/-- FREE VALUE: the register-address byte of a target register address above 255, which the spec gives no byte for. The
one case that reaches it is `rfa.read` of no bytes at offset 256 (R285 admits offset + len ≤ 256). -/
opaque regAddrByte : Nat → Byte

/-- FREE VALUE: the byte at an index that the list given to `rfa.unpack` does not hold: the operand is size(f) bytes (R281),
and the spec gives no value for a shorter list (log entry 21). -/
opaque unpackByte : Field → List Byte → Nat → Byte

end Config

/-- The parameters of the machine that comes out of power-on: the values R5 gives as defaults, and the open ones. -/
def Config.params : Params where
  smart := Config.smart
  readNackFlag := .sb
  maxFrame := 2
  defaultAddr := Config.defaultAddr
  map := Config.map
  base := Config.base

end Sys2Proof
end

