-- ==== Sys2Proof/Machine/State.lean ====
section
/-! DEFINITION. Machine/State.lean: everything the spec gives the machine, as plain data (spec/10_state.md), with the ways
a step can stop and the state after power-on (R55, R330). -/

namespace Sys2Proof.Machine

/-- STATUS.BUSSTATE (R41, R97). -/
inductive BusState where
  | unknown | idle | owner | busy
deriving DecidableEq, Repr

/-- The command kinds a controller operation can carry (R32): CMD other than no-op. -/
inductive BusCmd where
  | repeatStart | readContinue | stop
deriving DecidableEq, Repr

/-- An operation a host write requested and the controller has not synchronised (R32). -/
inductive PendOp where
  | addr (h : Byte)
  | tx (b : Byte)
  | cmd (c : BusCmd)
  | forceIdle
deriving DecidableEq, Repr

/-- An operation the controller has started on the wire and not completed (R33). -/
inductive BusOp where
  | addr (h : Byte)
  | tx (b : Byte)
  | cmd (c : BusCmd)
deriving DecidableEq, Repr

/-- A Transaction Status (R47, R98). -/
inductive TStatus where
  | success | payloadTooLong | addrNack | dataNack | other
deriving DecidableEq, Repr

/-- The controller: the fields of its seven registers (R21 to R28) and its hidden state (R30 to R35). Reserved bits hold
nothing (R29), SYNCBUSY.SWRST is the bit CTRLA.SWRST reads (R22), and CTRLB.CMD holds nothing (R23). -/
structure Ctrl where
  /-- CTRLA.ENABLE, the value the host last wrote (R22). -/
  enable : Bool
  /-- CTRLA.MODE (R22, R96). -/
  mode : BitVec 3
  /-- CTRLB.SMEN (R23). -/
  smen : Bool
  /-- CTRLB.ACKACT (R23, R95). -/
  ackact : Ack
  /-- INTFLAG.MB, write-ready (R24, R37). -/
  mb : Bool
  /-- INTFLAG.SB, read-ready (R24, R38). -/
  sb : Bool
  /-- STATUS.BUSERR (R25, R40). -/
  buserr : Bool
  /-- STATUS.RXNACK (R25, R39). -/
  rxnack : Bool
  /-- STATUS.BUSSTATE (R25, R41). -/
  busstate : BusState
  /-- SYNCBUSY.SWRST (R26). -/
  syncSwrst : Bool
  /-- SYNCBUSY.ENABLE (R26). -/
  syncEnable : Bool
  /-- SYNCBUSY.SYSOP (R26). -/
  sysop : Bool
  /-- ADDR.HDR (R27). -/
  hdr : Byte
  /-- DATA (R28). -/
  data : Byte
  /-- Effective enable (R30). -/
  en : Bool
  /-- Pending operation (R32). -/
  pend : Option PendOp
  /-- Bus operation in progress (R33). -/
  busop : Option BusOp
  /-- Pending acknowledge (R34). -/
  ackpend : Bool
  /-- Direction of the last header sent: `true` is read (R35). -/
  dir : Bool
deriving DecidableEq, Repr

/-- The controller's reset values (R55), after power-on and after a software reset. -/
def Ctrl.reset : Ctrl where
  enable := false
  mode := 0b000#3
  smen := false
  ackact := .ack
  mb := false
  sb := false
  buserr := false
  rxnack := false
  busstate := .unknown
  syncSwrst := false
  syncEnable := false
  sysop := false
  hdr := 0x00#8
  data := 0x00#8
  en := false
  pend := none
  busop := none
  ackpend := false
  dir := false

/-- Byte-addressable cells, addresses strictly rising. An unlisted address of host memory holds no value (R76). -/
abbrev Memory := List Host.Cell

/-- The canonical form of a memory: addresses strictly rising. -/
def Memory.wf : Memory → Bool
  | [] => true
  | [_] => true
  | c :: d :: m => decide (c.1 < d.1) && Memory.wf (d :: m)

/-- `SimTarget(A, R, rej)` (R176): the deterministic bus environment of the test vectors, with its own state. An unlisted
address of `regs` reads 0x00. -/
structure SimTarget where
  /-- A, the address it acknowledges. -/
  addr : BitVec 7
  /-- R, the 256-byte register array. -/
  regs : Memory
  /-- rej, the payload bytes it refuses, by their running number. -/
  rej : List Nat
  /-- `ptr`. -/
  ptr : Byte
  /-- `n`, data bytes written in this frame. -/
  n : Nat
  /-- `j`, register payload bytes offered. -/
  j : Nat
  /-- `addressed`. -/
  addressed : Bool
  /-- The direction of the frame, as its header gave it: `true` is read. -/
  reading : Bool
deriving DecidableEq, Repr

/-- The bus environment (R174): the oracle, whose answers are free values, or the simulated target of R176. -/
inductive BusEnv where
  | oracle
  | sim (t : SimTarget)
deriving DecidableEq, Repr

/-- Where the bytes a procedure sends come from: a host buffer (R53), or bytes the procedure made itself. -/
inductive Buf where
  | mem (base : Nat)
  | bytes (bs : List Byte)
deriving DecidableEq, Repr

/-- Where the bytes a procedure receives go: a host buffer (R53), or the local buffer of `rfa.read_field` (R286). -/
inductive Dst where
  | mem (base : Nat)
  | scratch
deriving DecidableEq, Repr

/-- What CTRLA.MODE reads as (R205). -/
inductive ModeVal where
  | controller
  | target
  | reserved (v : BitVec 3)
deriving DecidableEq, Repr

/-- What an operation gives back to the host (R346): a register read value or a procedure's result. -/
inductive Value where
  /-- A register's read value, zero-extended to 32 bits (R121 to R127). -/
  | word (w : Word)
  /-- `bcc.get_mode`. -/
  | mode (m : ModeVal)
  /-- `ext.get_frequency`, in Hz. -/
  | freq (hz : Nat)
  /-- `eng.make_header`. -/
  | header (h : Byte)
  /-- `eng.parse_header`. -/
  | parsed (addr : BitVec 7) (isRead : Bool)
  /-- A phase primitive's status, or a read of `status`. -/
  | status (t : TStatus)
  /-- `eng.recv_burst`: its status and `out_len`. -/
  | burst (t : TStatus) (n : Nat)
  /-- A byte count: `sock.send`, `sock.recv`, `rfa.write`, `rfa.read`, `rfa.write_field`. -/
  | count (n : Nat)
  /-- `sock.probe`: FOUND(a). -/
  | found (a : Nat)
  /-- `sock.probe`: NONE_FOUND. -/
  | noneFound
  /-- `rfa.layout_check`: OK. -/
  | ok
  /-- `rfa.offset`, `rfa.size`, `rfa.total_size`. -/
  | nat (n : Nat)
  /-- `rfa.unpack`: one value per sub-field. -/
  | values (vs : List Int)
  /-- `rfa.pack`, and a host memory read: bytes. -/
  | bytes (bs : List Byte)
  /-- `rfa.read_field`: SOME of the values, or NONE. -/
  | field (v : Option (List Int))
deriving DecidableEq, Repr

/-- Who waits for a procedure's result: the host program, or the statement of the calling procedure that the call stands
in. It is the part of R31's "returns to its caller's next statement" that outlives the call. -/
inductive Ret where
  /-- The host program takes the byte count. -/
  | top
  /-- The host program takes the status. -/
  | status
  /-- The host program takes `eng.recv_burst`'s status and count. -/
  | burst
  /-- `sock.recv` waits for its burst (R252). -/
  | recv (next : Ret)
  /-- `rfa.write` waits for the frame of byte `total` (R284). -/
  | frame (off : Nat) (src : Buf) (total len : Nat)
  /-- `rfa.read` waits for its select frame (R285). -/
  | select (dst : Dst) (len : Nat) (next : Ret)
  /-- `sock.probe` waits for candidate `a` (R253). -/
  | probe (a : Nat) (rest : List Nat)
  /-- `rfa.read_field` waits for the bytes of field `n` (R286). -/
  | field (n sz : Nat)
deriving DecidableEq, Repr

/-- An external service called as one step of `bcc.init` (R206). -/
inductive Service where
  | attach
  | frequency
  | pin (p : Pin) (k : PinFn)
deriving DecidableEq, Repr

/-- A statement of a procedure's pseudocode, with its local variables filled in. The first group takes one host step each
(R8); the second, from `setStatus` on, is pure and is taken together with the next access (R8). -/
inductive Stmt where
  /-- `WR(r, v)`. -/
  | wr (r : Reg) (v : Word)
  /-- `t <- RD(r)`, then `WR(r, (t & ~clr) | set)`: two host steps (R93). -/
  | rmw (r : Reg) (clr set : Word)
  /-- `await`: poll r until `(RD(r) & mask)` is zero, or nonzero if `set` (R8). -/
  | await (r : Reg) (mask : Word) (set : Bool)
  /-- `t <- RD(CTRLA)`, and the mode in it (R205). -/
  | getMode
  /-- `s <- RD(STATUS)`, and the status in it, RXNACK meaning `nack` (R222, R223). -/
  | phase (nack : TStatus)
  /-- `s <- RD(STATUS)`, ending with OTHER and `k` bytes on a bus error (R224). -/
  | recvCheck (ret : Ret) (k : Nat)
  /-- `byte <- RD(DATA)`, to be stored as byte `k` of the destination; status SUCCESS (R224). -/
  | recvByte (dst : Dst) (k : Nat)
  /-- `send_ack` or `send_nack` (R227, R229). -/
  | ackPolicy (nack : Bool)
  /-- A call of an external service (R206). -/
  | service (x : Service)
  /-- `WR(DATA, data[k])` (R251). -/
  | wrData (src : Buf) (k : Nat)
  /-- The frame of `rfa.write` for byte `total`, up to its ADDR write (R284). -/
  | frame (off : Nat) (src : Buf) (total len : Nat)
  /-- `sock.connect(a)` and the ADDR write of its probe (R253). -/
  | probeTry (a : Nat) (rest : List Nat)
  /-- `status <- st` (R222 to R224). -/
  | setStatus (st : TStatus)
  /-- `x[k] <- d` of a procedure's destination (R7). -/
  | store (dst : Dst) (k : Nat) (d : Byte)
  /-- `if st != SUCCESS then return n`. -/
  | orRet (ret : Ret) (n : Nat)
  /-- `return n`. -/
  | retCount (ret : Ret) (n : Nat)
  /-- `return v` to the host program. -/
  | retVal (v : Value)
  /-- The rest, from byte `k`, of `sock.send`'s payload loop (R251). -/
  | sendLoop (src : Buf) (k len : Nat) (ret : Ret)
  /-- The rest, from byte `k`, of `eng.recv_burst`'s loop (R225). -/
  | burstLoop (dst : Dst) (k len : Nat) (ret : Ret)
deriving DecidableEq, Repr

/-- A procedure in progress: who it is and the statements it has still to run, the host's position of R31. -/
structure Running where
  origin : Origin
  todo : List Stmt
deriving DecidableEq, Repr

/-- The whole machine: the controller, its inputs, the trace, the host-side variables (R45 to R53), the bus environment,
the parameters, and whose move comes next (R177). -/
structure State where
  /-- The controller's registers and hidden state. -/
  ctrl : Ctrl
  /-- `clk`: a clock is attached (R36). -/
  clk : Bool
  /-- The function the pin-mux service recorded for SDA (R209); with `sclFn` it gives the input `pins`. -/
  sdaFn : PinFn
  /-- The function the pin-mux service recorded for SCL (R209). -/
  sclFn : PinFn
  /-- The bus trace, oldest first (R43). -/
  trace : List BusEvent
  /-- `sock_addr` (R46). -/
  sockAddr : BitVec 7
  /-- `status`, or no value (R50). -/
  status : Option TStatus
  /-- Host memory (R76). -/
  mem : Memory
  /-- What the host has been given back, oldest first (R346). -/
  results : List Value
  /-- The host program still to run (R346). -/
  prog : List Item
  /-- The procedure in progress (R31). -/
  running : Option Running
  /-- The local buffer of `rfa.read_field` (R286). -/
  scratch : List Byte
  /-- The bus environment (R174). -/
  env : BusEnv
  /-- The parameters (R5). -/
  cfg : Params
  /-- The model's own: the move the next step makes (R177). -/
  turn : Move
  /-- The model's own: steps taken, which the free choice of the next move and the stall are applied to. -/
  tick : Nat
  /-- The model's own: frequency draws taken, which the free frequency is applied to. -/
  draws : Nat
deriving DecidableEq, Repr

/-- `pins`: both signal pins are routed to the controller (R36, R209). -/
def State.pins (s : State) : Bool := s.sdaFn == .i2c && s.sclFn == .i2c

/-- The faults of R312 (class "fault"), each with the access or procedure that raised it. The spec gives the misuse no
meaning, so stopping there is safe: a proof says nothing of what a chip would do (D23). -/
inductive Fault where
  /-- Any write but SWRST while SYNCBUSY.SWRST or ENABLE is 1 (R120). Safe. -/
  | writeDuringSync (o : Origin)
  /-- An operation-starting or CTRLB no-op write while an operation is pending or in progress (R120, R132). Safe. -/
  | busy (o : Origin)
  /-- An operation-starting write with `en` = 0 (R120). Safe. -/
  | notEnabled (o : Origin)
  /-- An operation-starting write with MODE not controller (R120). Safe. -/
  | notController (o : Origin)
  /-- An operation-starting write with `pins` = 0 (R120). Safe. -/
  | pinsNotRouted (o : Origin)
  /-- REPEAT_START while not owner (R133). Safe. -/
  | notOwner (o : Origin)
  /-- READ_CONTINUE with no pending byte (R134). Safe. -/
  | noPendingByte (o : Origin)
  /-- READ_CONTINUE with SMEN = 0 and ACKACT written 1 (R134). Safe. -/
  | readContinueNack (o : Origin)
  /-- A DATA write outside a write phase (R142). Safe. -/
  | noWritePhase (o : Origin)
  /-- A target address above 127 (R304). Safe. -/
  | badAddress (o : Origin)
  /-- `status` read before it was written (R305). Safe. -/
  | statusNoValue (o : Origin)
  /-- A host buffer byte read before it was written (R306). Safe. -/
  | bufferUnwritten (o : Origin)
  /-- A null buffer with a length where none is admitted (R307). Safe. -/
  | nullBuffer (o : Origin)
  /-- `rfa.layout_check` on an ill-formed map (R308). Safe. -/
  | mapIllFormed (o : Origin)
  /-- A field reference that names no field (R309). Safe. -/
  | unknownField (o : Origin)
  /-- A value outside its sub-field (R310). Safe. -/
  | valueRange (o : Origin)
  /-- A register range beyond 256 (R311). Safe. -/
  | regRange (o : Origin)
deriving DecidableEq, Repr

/-- The ways an operation can have no meaning (R300, R312 class "refuse"). -/
inductive Refusal where
  /-- An instruction the model has not reached: raised by exec alone. Safe. -/
  | notModelled (mnemonic : String)
  /-- ILL_FORMED (R102, R282): raised by the step on a program entry, and by `rfa.pack` and `rfa.write_field` on an operand
  list of the wrong shape. Safe. -/
  | illFormed (x : Item)
  /-- UNMAPPED (R75): raised by the step on a program entry. Safe. -/
  | unmapped (x : Item)
  /-- RO_WRITE (R140): raised by the SYNCBUSY write. Safe. -/
  | roWrite (o : Origin)
  /-- An access by address outside the 64-byte window (R74): not an access to this block. Raised by the step. Safe. -/
  | outsideBlock (x : Item)
deriving DecidableEq, Repr

/-- The machine at power-on (R55, R330). -/
def State.reset : State where
  ctrl := Ctrl.reset
  clk := false
  sdaFn := .other 0
  sclFn := .other 0
  trace := []
  sockAddr := Config.params.defaultAddr
  status := none
  mem := []
  results := []
  prog := []
  running := none
  scratch := []
  env := .oracle
  cfg := Config.params
  turn := .host
  tick := 0
  draws := 0

end Sys2Proof.Machine
end

