-- ==== Sys2Proof/Machine/Operands.lean ====
section
/-! DEFINITION. Machine/Operands.lean: operand forms and their codes (spec/30_encoding.md R92 to R99): the Transaction
Header, acknowledge bits, mode and bus-state codes, event masks, command bits, buffers. -/

namespace Sys2Proof.Machine

/-- The acknowledge a register bit stands for: 0 is ACK, 1 is NACK (R95). -/
def ackOfBit (b : Bool) : Ack := if b then .nack else .ack

/-- The register bit of an acknowledge (R95). -/
def ackBit : Ack → Bool
  | .ack => false
  | .nack => true

/-- CTRLA.MODE of the controller role (R96). -/
def modeController : BitVec 3 := 0b101#3

/-- CTRLA.MODE of the target role (R96). -/
def modeTarget : BitVec 3 := 0b100#3

/-- The MODE code of a role (R204). -/
def roleCode : Role → BitVec 3
  | .controller => modeController
  | .target => modeTarget

/-- What a MODE code means to `bcc.get_mode` (R205). -/
def modeVal (m : BitVec 3) : ModeVal :=
  if m = modeController then .controller else if m = modeTarget then .target else .reserved m

/-- The BUSSTATE code (R97). -/
def busStateCode : BusState → BitVec 2
  | .unknown => 0b00#2
  | .idle => 0b01#2
  | .owner => 0b10#2
  | .busy => 0b11#2

/-- The Transaction Status code (R98). -/
def statusCode : TStatus → BitVec 3
  | .success => 0#3
  | .payloadTooLong => 1#3
  | .addrNack => 2#3
  | .dataNack => 3#3
  | .other => 4#3

/-- The SYNCBUSY mask of a `wait_sync` event (R99). -/
def eventMask : Event → Word
  | .swrst => 0x00000001#32
  | .enable => 0x00000002#32
  | .sysop => 0x00000004#32
  | .any => 0xFFFFFFFF#32

/-- `make_header` on a 7-bit address (R92). -/
def header (addr : BitVec 7) (isRead : Bool) : Byte := addr ++ BitVec.ofBool isRead

/-- The address of a header, `h[7:1]` (R92). -/
def headerAddr (h : Byte) : BitVec 7 := h.extractLsb' 1 7

/-- The direction of a header, `h[0]`: `true` is read (R92). -/
def headerRead (h : Byte) : Bool := h.getLsbD 0

/-- `make_header` on the caller's natural address: none above 127 (R220). -/
def makeHeader (addr : Nat) (isRead : Bool) : Option Byte :=
  if addr < 128 then some (header (BitVec.ofNat 7 addr) isRead) else none

/-- INTFLAG.MB as a mask (R24). -/
def maskMB : Word := 0x01#32

/-- INTFLAG.SB as a mask (R24). -/
def maskSB : Word := 0x02#32

/-- A command in place in CTRLB, bits 17:16 (R94). -/
def cmdWord (c : Cmd) : Word := (c.code.setWidth 32) <<< 16

/-- The CMD field in place in CTRLB (R94). -/
def cmdMask : Word := 0x30000#32

/-- A CTRLB value assembled field by field, omitted fields 0 (R104). -/
def ctrlbWord (c : Cmd) (ackact smen : Bool) : Word :=
  cmdWord c ||| (if ackact then 0x40000#32 else 0#32) ||| (if smen then 0x100#32 else 0#32)

/-- The value a read-modify-write puts back: the read value with the mask cleared and the bits set (R93). -/
def rmwValue (t clr set : Word) : Word := (t &&& ~~~clr) ||| set

/-- The register-address byte of a target register address (R77); above 255 the spec gives no byte: a free value. -/
def regAddrByte (n : Nat) : Byte := if n < 256 then BitVec.ofNat 8 n else Config.regAddrByte n

end Sys2Proof.Machine
end

