-- ==== Sys2Proof/Machine/Ops.lean ====
section
/-! DEFINITION. Machine/Ops.lean: the named operations on registers, memory, the trace and the host's results. The block
has no trap mechanism (spec/60_exceptions.md R317): a fault is an outcome and changes no state (R300), so there is no
exception entry and no return to model. -/

namespace Sys2Proof.Machine

/-- An outcome of the model. -/
abbrev Out (α : Type) := Host.Outcome α Fault Refusal

/-- One outcome after another: a fault or a refusal ends it. -/
def andThen {α β : Type} (x : Out α) (f : α → Out β) : Out β :=
  match x with
  | .next a => f a
  | .fault r => .fault r
  | .refused r => .refused r

/-- The next state, unless a guard raises a fault: a faulting write changes nothing (R300). -/
def guarded (g : Option Fault) (t : State) : Out State :=
  match g with
  | some f => .fault f
  | none => .next t

/-- The numeric code of a fault (R312). -/
def faultCode : Fault → Nat
  | .writeDuringSync _ => 4
  | .busy _ => 5
  | .notEnabled _ => 6
  | .notController _ => 7
  | .pinsNotRouted _ => 8
  | .notOwner _ => 9
  | .noPendingByte _ => 10
  | .readContinueNack _ => 11
  | .noWritePhase _ => 12
  | .badAddress _ => 13
  | .statusNoValue _ => 14
  | .bufferUnwritten _ => 15
  | .nullBuffer _ => 16
  | .mapIllFormed _ => 17
  | .unknownField _ => 18
  | .valueRange _ => 19
  | .regRange _ => 20

/-- The numeric code of a refusal the spec numbers (R312). -/
def refusalCode : Refusal → Option Nat
  | .illFormed _ => some 1
  | .unmapped _ => some 2
  | .roWrite _ => some 3
  | _ => none

-- host memory (R76)

/-- The byte at an address, if the host has written one (R76). -/
def memRead : Memory → Nat → Option Byte
  | [], _ => none
  | c :: m, a => if c.1 = a then some c.2 else memRead m a

/-- Writing one byte, keeping the addresses strictly rising. -/
def memPut : Memory → Nat → Byte → Memory
  | [], a, b => [(a, b)]
  | c :: m, a, b =>
    if a < c.1 then (a, b) :: c :: m
    else if a = c.1 then (a, b) :: m
    else c :: memPut m a b

/-- Taking an address out of the list. -/
def memErase : Memory → Nat → Memory
  | [], _ => []
  | c :: m, a => if c.1 = a then m else c :: memErase m a

/-- Writing bytes from an address upward. -/
def memPutBytes (m : Memory) (a : Nat) : List Byte → Memory
  | [] => m
  | b :: bs => memPutBytes (memPut m a b) (a + 1) bs

/-- Reading `n` bytes from an address upward: none if one of them was never written (R76). -/
def memReadBytes (m : Memory) (a : Nat) : Nat → Option (List Byte)
  | 0 => some []
  | n + 1 =>
    match memRead m a, memReadBytes m (a + 1) n with
    | some b, some bs => some (b :: bs)
    | _, _ => none

/-- `x[k]` of a procedure's data (R7, R53). A buffer lies in host memory, not in the registers, also where its addresses
fall in the register window (DESIGN CHOICE, log entry 20). -/
def bufRead (m : Memory) : Buf → Nat → Option Byte
  | .mem base, k => memRead m (base + k)
  | .bytes bs, k => bs[k]?

/-- `x[k] <- d` of a procedure's destination: a host buffer, or the local buffer of `rfa.read_field`. A host buffer lies in
host memory, not in the registers, also where its addresses fall in the register window (DESIGN CHOICE, log entry 20). -/
def dstWrite (d : Dst) (k : Nat) (b : Byte) (s : State) : State :=
  match d with
  | .mem base => { s with mem := memPut s.mem (base + k) b }
  | .scratch => { s with scratch := s.scratch ++ [b] }

-- the trace and the host's results

/-- `emit e` (R7, R43). -/
def emit (e : BusEvent) (s : State) : State := { s with trace := s.trace ++ [e] }

/-- Giving a value back to the host program (R346). -/
def giveValue (v : Value) (s : State) : State := { s with results := s.results ++ [v] }

-- reading a register (R121 to R127): every read value zero-extended to 32 bits, reserved bits 0 (R29)

/-- CTRLA as it reads (R121). -/
def readCtrla (c : Ctrl) : Word := 0#27 ++ c.mode ++ BitVec.ofBool c.enable ++ BitVec.ofBool c.syncSwrst

/-- CTRLB as it reads: CMD reads 0 (R122). -/
def readCtrlb (c : Ctrl) : Word :=
  0#13 ++ BitVec.ofBool (ackBit c.ackact) ++ 0#9 ++ BitVec.ofBool c.smen ++ 0#8

/-- INTFLAG as it reads (R123). -/
def readIntflag (c : Ctrl) : Word := 0#30 ++ BitVec.ofBool c.sb ++ BitVec.ofBool c.mb

/-- STATUS as it reads (R124). -/
def readStatus (c : Ctrl) : Word :=
  0#26 ++ busStateCode c.busstate ++ 0#1 ++ BitVec.ofBool c.rxnack ++ 0#1 ++ BitVec.ofBool c.buserr

/-- SYNCBUSY as it reads (R125). -/
def readSyncbusy (c : Ctrl) : Word :=
  0#29 ++ BitVec.ofBool c.sysop ++ BitVec.ofBool c.syncEnable ++ BitVec.ofBool c.syncSwrst

/-- `RD(REG)` (R7): the read value. It has no side effect (R78). -/
def rdReg (r : Reg) (c : Ctrl) : Word :=
  match r with
  | .ctrla => readCtrla c
  | .ctrlb => readCtrlb c
  | .intflag => readIntflag c
  | .status => readStatus c
  | .syncbusy => readSyncbusy c
  | .addr => c.hdr.setWidth 32
  | .data => c.data.setWidth 32

/-- Byte `o` of the register block, little-endian: byte `o` holds bits 7:0 of the register at `o`, and so on (R70). -/
def blockByte (c : Ctrl) (o : Nat) : Option Byte :=
  ([Reg.ctrla, .ctrlb, .intflag, .status, .syncbusy, .addr, .data].find?
      (fun r => decide (r.offset.toNat ≤ o) && decide (o < r.offset.toNat + r.width / 8))).map
    (fun r => (rdReg r c).extractLsb' (8 * (o - r.offset.toNat)) 8)

-- the guards of writes (R120)

/-- `guard_sync()`: no write but SWRST during a SWRST or ENABLE synchronisation (R120). -/
def guardSync (o : Origin) (s : State) : Option Fault :=
  if s.ctrl.syncSwrst || s.ctrl.syncEnable then some (.writeDuringSync o) else none

/-- An operation is pending or in progress (R120, R132). -/
def opBusy (c : Ctrl) : Bool := c.sysop || c.busop.isSome

/-- `guard_start()`, in the order of R120 and R303. -/
def guardStart (o : Origin) (s : State) : Option Fault :=
  (guardSync o s).or
    (if opBusy s.ctrl then some (.busy o)
     else if s.ctrl.en = false then some (.notEnabled o)
     else if s.ctrl.mode ≠ modeController then some (.notController o)
     else if s.pins = false then some (.pinsNotRouted o)
     else none)

/-- Starting an operation: MB and SB cleared, `pend` set, SYNCBUSY.SYSOP set (R133 to R142). -/
def startOp (p : PendOp) (c : Ctrl) : Ctrl :=
  { c with mb := false, sb := false, pend := some p, sysop := true }

/-- The host is between operations and its program is done (R347). -/
def hostDone (s : State) : Bool := s.running.isNone && s.prog.isEmpty

end Sys2Proof.Machine
end

