-- ==== Sys2Proof/Machine/Flags.lean ====
section
/-! DEFINITION. Machine/Flags.lean: how the flags and the Transaction Status are computed: the ready flags MB and SB (R37,
R38), RXNACK and BUSERR (R39, R40), the status of a phase (R222 to R224, R302), the acknowledge a controller drives (R171). -/

namespace Sys2Proof.Machine

/-- Setting one ready flag (R37, R38). -/
def setReady (f : ReadyFlag) (c : Ctrl) : Ctrl :=
  match f with
  | .sb => { c with sb := true }
  | .mb => { c with mb := true }

/-- The ready flag of a header's direction: read-ready for a read, write-ready for a write (R164, R173, R222). -/
def readyOf (isRead : Bool) : ReadyFlag := if isRead then .sb else .mb

/-- The INTFLAG mask of a ready flag (R221). -/
def readyMask : ReadyFlag → Word
  | .sb => maskSB
  | .mb => maskMB

/-- The status a STATUS read value gives a phase, RXNACK standing for `nack`: BUSERR is tested first (R302). -/
def phaseStatus (s : Word) (nack : TStatus) : TStatus :=
  if s.getLsbD 0 then .other else if s.getLsbD 2 then nack else .success

/-- `ack_continue()`: the acknowledge before a READ_CONTINUE (R171). -/
def ackContinue (c : Ctrl) : Ack := if c.smen then .ack else c.ackact

/-- `ack_other()`: the acknowledge before a STOP, a REPEAT_START or an address phase (R171). -/
def ackOther (c : Ctrl) : Ack := if c.smen then .nack else c.ackact

/-- `drive_pending_ack`: the acknowledge bit of a received byte, if one is pending (R171). -/
def drivePendingAck (k : Ack) (s : State) : State :=
  if s.ctrl.ackpend then emit (.mack k) { s with ctrl := { s.ctrl with ackpend := false } } else s

/-- `bus_error(flag)` (R173). RXNACK and `dir` keep their values. -/
def busError (f : ReadyFlag) (s : State) : State :=
  emit .busErr
    { s with ctrl :=
        { setReady f s.ctrl with
          buserr := true, busstate := .unknown, ackpend := false, busop := none, sysop := false } }

end Sys2Proof.Machine
end

