-- ==== Sys2Proof/Machine/Controller.lean ====
section
/-! DEFINITION. Machine/Controller.lean: the bus environment's answers (spec/41_controller_steps.md R174, R176) and the
steps of the controller and the environment (R160 to R173). A step that is not enabled changes nothing. -/

namespace Sys2Proof.Machine

-- SimTarget (R176)

/-- `SimTarget(A, R, rej)` at its start: `ptr` and `j` are 0 (R176). That it starts not addressed, with the direction of a
write frame and with `n` = 0, is the model's choice (DESIGN CHOICE, log entry 8): R176 states no start for them. -/
def simTarget (a : BitVec 7) (regs : Memory) (rej : List Nat) : SimTarget where
  addr := a
  regs := regs
  rej := rej
  ptr := 0x00#8
  n := 0
  j := 0
  addressed := false
  reading := false

/-- What `SimTarget` holds at a register: an unlisted one reads 0x00. -/
def simReg (t : SimTarget) (a : Byte) : Byte := (memRead t.regs a.toNat).getD 0x00#8

/-- Writing a register of `SimTarget`; writing 0x00 takes its entry out, so equal arrays are equal data. -/
def simPut (t : SimTarget) (a : Byte) (b : Byte) : Memory :=
  if b = 0x00#8 then memErase t.regs a.toNat else memPut t.regs a.toNat b

/-- `SimTarget` at a header: the frame count starts again, and only its own address is acknowledged (R176). -/
def simHeader (t : SimTarget) (h : Byte) : Ack × SimTarget :=
  (if headerAddr h = t.addr then .ack else .nack,
   { t with n := 0, addressed := headerAddr h == t.addr, reading := headerRead h })

/-- `SimTarget` at a data byte: none where R176 gives no answer (a data byte sent in a read frame). -/
def simData (t : SimTarget) (b : Byte) : Option (Ack × SimTarget) :=
  if t.addressed = false then some (.nack, t)
  else if t.reading then none
  else if t.n = 0 then some (.ack, { t with ptr := b, n := 1 })
  else if t.n = 1 then
    if t.j ∈ t.rej then some (.nack, { t with j := t.j + 1, n := 2 })
    else some (.ack, { t with regs := simPut t t.ptr b, ptr := t.ptr + 1#8, j := t.j + 1, n := 2 })
  else some (.nack, t)

/-- `SimTarget` supplying a byte: none where R176 gives no answer (outside a read frame addressed to it). -/
def simByte (t : SimTarget) : Option (Byte × SimTarget) :=
  if t.addressed && t.reading then some (simReg t t.ptr, { t with ptr := t.ptr + 1#8 }) else none

-- the environment's answers (R174)

/-- An acknowledge as an answer of the environment. -/
def ackAnswer : Ack → AckDraw
  | .ack => .ack
  | .nack => .nack

/-- `draw AckDraw(h)` for a header. -/
def drawHeader (h : Byte) (s : State) : AckDraw × State :=
  match s.env with
  | .oracle => (Config.ackDraw s.trace h, s)
  | .sim t => (ackAnswer (simHeader t h).1, { s with env := .sim (simHeader t h).2 })

/-- `draw AckDraw(b)` for a data byte. `SimTarget` never answers a bus error (R176): where R176 gives it no answer, a free
acknowledge (log entry 8). -/
def drawData (b : Byte) (s : State) : AckDraw × State :=
  match s.env with
  | .oracle => (Config.ackDraw s.trace b, s)
  | .sim t =>
    match simData t b with
    | some (a, t') => (ackAnswer a, { s with env := .sim t' })
    | none => (ackAnswer (Config.targetAck s.trace b), s)

/-- `draw ByteDraw`. `SimTarget` never answers a bus error (R176): where R176 gives it no byte, a free one (log entry 8). -/
def drawByte (s : State) : ByteDraw × State :=
  match s.env with
  | .oracle => (Config.byteDraw s.trace, s)
  | .sim t =>
    match simByte t with
    | some (d, t') => (.byte d, { s with env := .sim t' })
    | none => (.byte (Config.targetByte s.trace), s)

/-- Whether the environment holds off every bus step now (R174): `SimTarget` never does. -/
def stalled (s : State) : Bool :=
  match s.env with
  | .oracle => Config.stall s.trace s.tick
  | .sim _ => false

-- synchronisation steps

/-- SWRST synchronisation (R160). -/
def fireSwrst (s : State) : State :=
  let abort := s.ctrl.busstate == .owner || s.ctrl.busop.isSome || s.ctrl.pend.isSome
  let s' := if abort then emit .abort s else s
  { s' with ctrl := Ctrl.reset }

/-- ENABLE synchronisation (R161): the old bus state is looked at before it becomes UNKNOWN. -/
def fireEnable (s : State) : State :=
  let c := s.ctrl
  let c1 := { c with en := c.enable, syncEnable := false, busstate := .unknown }
  if c.en && !c.enable then
    let abort := c.busop.isSome || c.pend.isSome || c.ackpend || c.busstate == .owner
    let s' := if abort then emit .abort s else s
    { s' with ctrl := { c1 with pend := none, busop := none, ackpend := false, sysop := false } }
  else { s with ctrl := c1 }

/-- SYSOP synchronisation (R162, R163, R166). -/
def fireSysop (s : State) : State :=
  match s.ctrl.pend with
  | none => s
  | some (.addr h) => { s with ctrl := { s.ctrl with busop := some (.addr h), sysop := false, pend := none } }
  | some (.tx b) => { s with ctrl := { s.ctrl with busop := some (.tx b), sysop := false, pend := none } }
  | some (.cmd c) => { s with ctrl := { s.ctrl with busop := some (.cmd c), pend := none } }
  | some .forceIdle =>
    { s with ctrl := { s.ctrl with busstate := .idle, ackpend := false, sysop := false, pend := none } }

-- bus steps

/-- Receiving one byte (R164, R167): on a bus error, `bus_error(SB)`. -/
def receiveByte (s : State) : State :=
  match drawByte s with
  | (.busErr, s1) => busError .sb s1
  | (.byte d, s1) => emit (.rx d) { s1 with ctrl := { s1.ctrl with data := d, ackpend := true, sb := true } }

/-- A header answered ACK or NACK (R164, R168): RXNACK, BUSSTATE and `dir` are set, then the ready flag, or the first
byte of an acknowledged read. -/
def headerAnswered (h : Byte) (a : Ack) (s : State) : State :=
  let s1 := emit (.hdr h a)
    { s with ctrl := { s.ctrl with rxnack := ackBit a, busstate := .owner, dir := headerRead h } }
  if headerRead h = false then { s1 with ctrl := setReady .mb s1.ctrl }
  else match a with
    | .ack => receiveByte s1
    | .nack => { s1 with ctrl := setReady s1.cfg.readNackFlag s1.ctrl }

/-- The header byte and what follows it (R164, R168). -/
def sendHeader (h : Byte) (s : State) : State :=
  match drawHeader h s with
  | (.busErr, s1) => busError (readyOf (headerRead h)) s1
  | (.ack, s1) => headerAnswered h .ack s1
  | (.nack, s1) => headerAnswered h .nack s1

/-- The end of an address phase or byte transmission: no operation is in progress (R164, R165). -/
def endOp (s : State) : State := { s with ctrl := { s.ctrl with busop := none } }

/-- The end of a command: SYSOP clears as well (R167 to R169). -/
def endCmd (s : State) : State := { s with ctrl := { s.ctrl with busop := none, sysop := false } }

/-- Address phase (R164). -/
def fireAddr (h : Byte) (s : State) : State :=
  let s1 := drivePendingAck (ackOther s.ctrl) s
  let s2 := emit (if s1.ctrl.busstate = .owner then .rstart else .start) s1
  endOp (sendHeader h s2)

/-- Data byte transmission (R165). -/
def fireTx (b : Byte) (s : State) : State :=
  match drawData b s with
  | (.busErr, s1) => endOp (busError .mb s1)
  | (.ack, s1) => endOp (emit (.tx b .ack) { s1 with ctrl := { setReady .mb s1.ctrl with rxnack := false } })
  | (.nack, s1) => endOp (emit (.tx b .nack) { s1 with ctrl := { setReady .mb s1.ctrl with rxnack := true } })

/-- READ_CONTINUE (R167). -/
def fireReadContinue (s : State) : State :=
  endCmd (receiveByte (drivePendingAck (ackContinue s.ctrl) s))

/-- REPEAT_START (R168): the header last written to ADDR is sent again. -/
def fireRepeatStart (s : State) : State :=
  endCmd (sendHeader s.ctrl.hdr (emit .rstart (drivePendingAck (ackOther s.ctrl) s)))

/-- STOP (R169): nothing is put on the wire unless the controller owns the bus. -/
def fireStop (s : State) : State :=
  let s1 := drivePendingAck (ackOther s.ctrl) s
  endCmd (if s1.ctrl.busstate = .owner then
      emit .stop { s1 with ctrl := { s1.ctrl with busstate := .idle } } else s1)

/-- The bus step of the operation in progress (R164 to R169). -/
def fireBus (s : State) : State :=
  match s.ctrl.busop with
  | none => s
  | some (.addr h) => fireAddr h s
  | some (.tx b) => fireTx b s
  | some (.cmd .readContinue) => fireReadContinue s
  | some (.cmd .repeatStart) => fireRepeatStart s
  | some (.cmd .stop) => fireStop s

/-- Bus-idle observation (R172). -/
def fireBusIdle (s : State) : State := { s with ctrl := { s.ctrl with busstate := .idle } }

-- which step is enabled (R170)

/-- An operation is in progress whose bus step may happen in this bus state (R164 to R169). -/
def busReady (c : Ctrl) : Bool :=
  match c.busop with
  | none => false
  | some (.addr _) => c.busstate == .idle || c.busstate == .owner
  | some (.tx _) => true
  | some (.cmd _) => true

/-- Whether a move of the controller or the environment is enabled (R170, R172, R174). -/
def enabled (m : Move) (s : State) : Bool :=
  match m with
  | .host => true
  | .swrstSync => s.ctrl.syncSwrst && s.clk
  | .enableSync => s.ctrl.syncEnable && !s.ctrl.syncSwrst && s.clk
  | .sysopSync => s.ctrl.sysop && s.ctrl.pend.isSome && s.ctrl.en && !s.ctrl.syncSwrst && s.clk
  | .bus => busReady s.ctrl && s.ctrl.en && s.clk && !s.ctrl.syncSwrst && !stalled s
  | .busIdle => s.ctrl.en && s.ctrl.busstate == .unknown && s.clk && s.pins && !s.ctrl.syncSwrst

/-- The effect of an enabled move of the controller or the environment. -/
def fire (m : Move) (s : State) : State :=
  match m with
  | .host => s
  | .swrstSync => fireSwrst s
  | .enableSync => fireEnable s
  | .sysopSync => fireSysop s
  | .bus => fireBus s
  | .busIdle => fireBusIdle s

/-- A move of the controller or the environment: nothing where it is not enabled. -/
def agentMove (m : Move) (s : State) : State := if enabled m s then fire m s else s

end Sys2Proof.Machine
end

