-- ==== Sys2Proof/Machine/RegMap.lean ====
section
/-! DEFINITION. Machine/RegMap.lean: the Register-Map Description and its pure functions
(spec/45_register_accessor.md R270 to R282): resolving a field, offsets and sizes, the layout check, unpack and pack. -/

namespace Sys2Proof.Machine

-- offsets and sizes (R272 to R274)

/-- The cumulative size of the first `n` fields: the byte offset of field `n` (R272). -/
def offsetOf : RMap → Nat → Nat
  | _, 0 => 0
  | [], _ + 1 => 0
  | f :: m, n + 1 => f.size + offsetOf m n

/-- The total size of a map (R274). -/
def totalSize : RMap → Nat
  | [] => 0
  | f :: m => f.size + totalSize m

/-- The index of the field that bears a name (R272); of two fields that bear it, the first in declaration order (DESIGN CHOICE,
log entry 24). -/
def fieldIndex (x : Ident) : RMap → Option Nat
  | [] => none
  | f :: m => if f.name = some x then some 0 else (fieldIndex x m).map (· + 1)

/-- `resolve(ref)`: the index of the field a reference names, if there is one (R272). -/
def resolve (m : RMap) : FieldRef → Option Nat
  | .idx n => if n < m.length then some n else none
  | .name x => fieldIndex x m

/-- The field a reference names, with its index. -/
def resolveField (m : RMap) (r : FieldRef) : Option (Nat × Field) :=
  match resolve m r with
  | none => none
  | some n => (m[n]?).map (fun f => (n, f))

-- values of a sub-field (R281, R282)

/-- `in_range(s, v)` (R282). For a Signed sub-field of width 0, `width - 1` is taken as 0, so that -1 and 0 are in range
(DESIGN CHOICE, log entry 25). -/
def inRange (s : SubField) (v : Int) : Bool :=
  match s.kind with
  | .unsigned => decide (0 ≤ v ∧ v < 2 ^ s.width)
  | .flag => decide (v = 0 ∨ v = 1)
  | .enum cs => cs.any (fun c => decide ((c.1 : Int) = v))
  | .signed => decide (-(2 ^ (s.width - 1)) ≤ v ∧ v < 2 ^ (s.width - 1))

/-- `decode(s, u)`: two's complement for a signed sub-field, the raw pattern for any other (R281). A Signed sub-field of width
0 has no top bit to copy; its value is taken as 0 (DESIGN CHOICE, log entry 25). -/
def decodeSub (s : SubField) (u : Nat) : Int :=
  match s.kind with
  | .unsigned => u
  | .flag => u
  | .enum _ => u
  | .signed => if u < 2 ^ (s.width - 1) then (u : Int) else (u : Int) - 2 ^ s.width

/-- The number the bytes of a field form: byte 0 is least significant (R280). -/
def bytesVal : List Byte → Nat
  | [] => 0
  | b :: bs => b.toNat + 256 * bytesVal bs

/-- The low `n` bytes of a number, least significant first (R280). -/
def valBytes (v : Nat) : Nat → List Byte
  | 0 => []
  | n + 1 => BitVec.ofNat 8 v :: valBytes (v / 256) n

/-- The bits of a sub-field in the field's number (R280). -/
def subBits (s : SubField) (v : Nat) : Nat := (v >>> s.bitoff) % 2 ^ s.width

/-- `rfa.unpack`: one value per sub-field, unnamed ones included (R281). -/
def unpackField (f : Field) (bs : List Byte) : List Int :=
  f.allSubs.map (fun s => decodeSub s (subBits s (bytesVal bs)))

/-- The bytes `rfa.unpack` reads a field from: those given, and where the list ends before size(f) bytes a free value for each
missing one (R281; DESIGN CHOICE, log entry 21). -/
def fieldBytes (f : Field) (bs : List Byte) : List Byte :=
  bs ++ (List.range (f.size - bs.length)).map (fun k => Config.unpackByte f bs (bs.length + k))

/-- The bits a value puts in the field's number (R282). -/
def placeSub (s : SubField) (v : Int) : Nat := (v % 2 ^ s.width).toNat <<< s.bitoff

/-- The field's number of a list of entries, `none` taking the sub-field's `dflt`; nothing if a value is out of range (R282). -/
def packVal : List SubField → List (Option Int) → Option Nat
  | s :: ss, e :: es =>
    let v := e.getD s.dflt
    if inRange s v then (packVal ss es).map (fun r => placeSub s v ||| r) else none
  | _, _ => some 0

/-- `rfa.pack`: the bytes of a field, or nothing for VALUE_RANGE (R282). -/
def packField (f : Field) (vals : List (Option Int)) : Option (List Byte) :=
  (packVal f.allSubs vals).map (fun v => valBytes v f.size)

/-- The list has one entry per sub-field (R282). -/
def packShape (f : Field) (vals : List (Option Int)) : Bool := vals.length == f.allSubs.length

-- the layout check (R271)

/-- No entry of a list stands in it twice. -/
def distinct {α : Type} [DecidableEq α] : List α → Bool
  | [] => true
  | x :: xs => !xs.contains x && distinct xs

/-- Two sub-fields share no bit (condition 6). -/
def disjointSubs (s t : SubField) : Bool :=
  decide (s.bitoff + s.width ≤ t.bitoff) || decide (t.bitoff + t.width ≤ s.bitoff)

/-- No two sub-fields of a list share a bit (condition 6). -/
def noOverlap : List SubField → Bool
  | [] => true
  | s :: ss => ss.all (disjointSubs s) && noOverlap ss

/-- The kind's own condition on a width (condition 7). -/
def kindOk (s : SubField) : Bool :=
  match s.kind with
  | .unsigned => true
  | .flag => s.width == 1
  | .signed => decide (2 ≤ s.width)
  | .enum cs => distinct (cs.map Prod.fst) && cs.all (fun c => decide (c.1 < 2 ^ s.width))

/-- A `dflt` is in the range of its sub-field (condition 8): for an enumeration, the patterns of its width. R271 says that
the map of R290 passes, whose enumeration does not list its `dflt`. DEDUCED (log entry 18). -/
def dfltOk (s : SubField) : Bool :=
  match s.kind with
  | .enum _ => decide (0 ≤ s.dflt ∧ s.dflt < 2 ^ s.width)
  | .unsigned => inRange s s.dflt
  | .flag => inRange s s.dflt
  | .signed => inRange s s.dflt

/-- A sub-field is in place in a field of `size` bytes: conditions 5, 7 and 8. -/
def subOk (size : Nat) (s : SubField) : Bool :=
  decide (1 ≤ s.width) && decide (s.bitoff + s.width ≤ 8 * size) && kindOk s && dfltOk s

/-- A field is well-formed: conditions 1 and 4 to 8. -/
def fieldOk (f : Field) : Bool :=
  decide (1 ≤ f.size) && distinct (f.allSubs.filterMap SubField.name) && f.allSubs.all (subOk f.size)
    && noOverlap f.allSubs

/-- `rfa.layout_check`: a map is well-formed iff all eight conditions of R271 hold. -/
def mapOk (m : RMap) : Bool :=
  m.all fieldOk && decide (totalSize m ≤ 256) && distinct (m.filterMap Field.name)

/-- A sub-field of the example map: its `dflt` is 0 (R290). -/
def exSub (name : Option Ident) (bitoff width : Nat) (kind : Kind) : SubField :=
  { name := name, bitoff := bitoff, width := width, kind := kind, dflt := 0 }

/-- The field `accd` of the example map: three axes of two bytes (R290). -/
def exAccd : Field where
  name := some "accd"
  size := 6
  subs :=
    [exSub (some "x_new") 0 1 .flag, exSub none 1 5 .unsigned, exSub (some "x") 6 10 .signed,
     exSub (some "y_new") 16 1 .flag, exSub none 17 5 .unsigned, exSub (some "y") 22 10 .signed,
     exSub (some "z_new") 32 1 .flag, exSub none 33 5 .unsigned, exSub (some "z") 38 10 .signed]

/-- The field `range` of the example map (R290). -/
def exRange : Field where
  name := some "range"
  size := 1
  subs :=
    [exSub (some "range") 0 4 (.enum [(3, "G2"), (5, "G4"), (8, "G8"), (12, "G16")]), exSub none 4 4 .unsigned]

/-- `EX_MAP` (R290): example data for vectors only, not the device's map. -/
def exMap : RMap :=
  [{ name := some "chip_id", size := 1, subs := [] }, { name := none, size := 1, subs := [] }, exAccd,
   { name := none, size := 7, subs := [] }, exRange]

end Sys2Proof.Machine
end

