-- ==== Sys2Proof/Machine/Registers.lean ====
section
/-! DEFINITION. Machine/Registers.lean: the host register accesses, one meaning per row of the HACC opcode map
(spec/40_register_interface.md R120 to R142). Each is one atomic host step; a fault changes nothing (R300). -/

namespace Sys2Proof.Machine

/-- A host read: the host is given the register's read value and nothing else changes (R78). -/
def hostRead (r : Reg) (s : State) : Out State := .next (giveValue (.word (rdReg r s.ctrl)) s)

/-- `rd CTRLA` (R121). -/
def execRdCtrla (s : State) : Out State := hostRead .ctrla s

/-- `rd CTRLB` (R122). -/
def execRdCtrlb (s : State) : Out State := hostRead .ctrlb s

/-- `rd INTFLAG` (R123). -/
def execRdIntflag (s : State) : Out State := hostRead .intflag s

/-- `rd STATUS` (R124). -/
def execRdStatus (s : State) : Out State := hostRead .status s

/-- `rd SYNCBUSY` (R125). -/
def execRdSyncbusy (s : State) : Out State := hostRead .syncbusy s

/-- `rd ADDR` (R126). -/
def execRdAddr (s : State) : Out State := hostRead .addr s

/-- `rd DATA` (R127). -/
def execRdData (s : State) : Out State := hostRead .data s

/-- `wr CTRLA` with SWRST = 1 (R130): admitted in any state, every other bit ignored. -/
def execWrCtrlaSwrst (_v : Word) (s : State) : Out State :=
  .next { s with ctrl := { s.ctrl with syncSwrst := true } }

/-- CTRLA after a configuration write (R131): MODE is enable-protected, and a change of ENABLE starts its
synchronisation. -/
def configCtrla (v : Word) (c : Ctrl) : Ctrl :=
  { c with
    mode := if c.en then c.mode else v.extractLsb' 2 3
    enable := v.getLsbD 1
    syncEnable := c.syncEnable || (v.getLsbD 1 != c.enable) }

/-- `wr CTRLA` with SWRST = 0 (R131). -/
def execWrCtrlaConfig (v : Word) (s : State) : Out State :=
  guarded (guardSync (.instr (.wrCtrlaConfig v)) s) { s with ctrl := configCtrla v s.ctrl }

/-- SMEN and ACKACT of a CTRLB write: SMEN is enable-protected (R29, R132). -/
def writeAckPolicy (v : Word) (c : Ctrl) : Ctrl :=
  { c with smen := if c.en then c.smen else v.getLsbD 8, ackact := ackOfBit (v.getLsbD 18) }

/-- `wr CTRLB` with CMD = NOOP (R132). -/
def execWrCtrlbNoop (v : Word) (s : State) : Out State :=
  let o := Origin.instr (.wrCtrlbNoop v)
  guarded ((guardSync o s).or (if opBusy s.ctrl then some (.busy o) else none))
    { s with ctrl := writeAckPolicy v s.ctrl }

/-- `wr CTRLB` with CMD = REPEAT_START (R133). -/
def execWrCtrlbRepeatStart (v : Word) (s : State) : Out State :=
  let o := Origin.instr (.wrCtrlbRepeatStart v)
  guarded ((guardStart o s).or (if s.ctrl.busstate ≠ .owner then some (.notOwner o) else none))
    { s with ctrl := startOp (.cmd .repeatStart) (writeAckPolicy v s.ctrl) }

/-- `wr CTRLB` with CMD = READ_CONTINUE (R134): SMEN is not written. -/
def execWrCtrlbReadContinue (v : Word) (s : State) : Out State :=
  let o := Origin.instr (.wrCtrlbReadContinue v)
  guarded
    ((guardStart o s).or
      (if s.ctrl.ackpend = false then some (.noPendingByte o)
       else if s.ctrl.smen = false ∧ v.getLsbD 18 = true then some (.readContinueNack o)
       else none))
    { s with ctrl := startOp (.cmd .readContinue) { s.ctrl with ackact := ackOfBit (v.getLsbD 18) } }

/-- `wr CTRLB` with CMD = STOP (R135): admitted whether or not the controller owns the bus. -/
def execWrCtrlbStop (v : Word) (s : State) : Out State :=
  guarded (guardStart (.instr (.wrCtrlbStop v)) s)
    { s with ctrl := startOp (.cmd .stop) { s.ctrl with ackact := ackOfBit (v.getLsbD 18) } }

/-- `wr INTFLAG` (R136): a written 1 clears its flag. -/
def execWrIntflag (v : Byte) (s : State) : Out State :=
  guarded (guardSync (.instr (.wrIntflag v)) s)
    { s with ctrl := { s.ctrl with mb := s.ctrl.mb && !v.getLsbD 0, sb := s.ctrl.sb && !v.getLsbD 1 } }

/-- A STATUS write asks for force-IDLE: BUSSTATE written 0b01 (R137). -/
def forcesIdle (v : BitVec 16) : Bool := v.extractLsb' 4 2 == 0b01#2

/-- The controller after a STATUS write that no guard stopped (R137): force-IDLE leaves MB and SB alone. -/
def statusWritten (v : BitVec 16) (c : Ctrl) : Ctrl :=
  { c with
    buserr := c.buserr && !v.getLsbD 0
    pend := if forcesIdle v then some .forceIdle else c.pend
    sysop := c.sysop || forcesIdle v }

/-- `wr STATUS` (R137): the guards are checked before any effect (spec/90_conflicts.md C10). -/
def execWrStatus (v : BitVec 16) (s : State) : Out State :=
  let o := Origin.instr (.wrStatus v)
  guarded (if forcesIdle v then guardStart o s else guardSync o s) { s with ctrl := statusWritten v s.ctrl }

/-- `wr SYNCBUSY` (R140): refused, it changes nothing. -/
def execWrSyncbusy (v : Word) (_s : State) : Out State := .refused (.roWrite (.instr (.wrSyncbusy v)))

/-- `wr ADDR` (R141): BUSERR is cleared and an address phase is asked for. -/
def execWrAddr (v : Word) (s : State) : Out State :=
  let h := v.extractLsb' 0 8
  guarded (guardStart (.instr (.wrAddr v)) s)
    { s with ctrl := startOp (.addr h) { s.ctrl with hdr := h, buserr := false } }

/-- A DATA write has its phase: the controller owns the bus in write direction with no byte pending (R142). -/
def writePhase (c : Ctrl) : Bool := c.busstate == .owner && !c.dir && !c.ackpend

/-- `wr DATA` (R142). -/
def execWrData (v : Byte) (s : State) : Out State :=
  let o := Origin.instr (.wrData v)
  guarded ((guardStart o s).or (if writePhase s.ctrl then none else some (.noWritePhase o)))
    { s with ctrl := startOp (.tx v) { s.ctrl with data := v } }

/-- `WR(REG, v)` (R7): the write row that the register and the value select (R91, R120). A fault of the write, its guards'
or its own check's, names the write row itself as its origin, inside a procedure too: the model's choice (DESIGN CHOICE, log
entry 19), since R312 says only "the descriptor or procedure that raised it". -/
def wrReg (r : Reg) (v : Word) (s : State) : Out State :=
  match r with
  | .ctrla => if v.getLsbD 0 then execWrCtrlaSwrst v s else execWrCtrlaConfig v s
  | .ctrlb =>
    if ctrlbCmdBits v = 0b00#2 then execWrCtrlbNoop v s
    else if ctrlbCmdBits v = 0b01#2 then execWrCtrlbRepeatStart v s
    else if ctrlbCmdBits v = 0b10#2 then execWrCtrlbReadContinue v s
    else execWrCtrlbStop v s
  | .intflag => execWrIntflag (v.extractLsb' 0 8) s
  | .status => execWrStatus (v.extractLsb' 0 16) s
  | .syncbusy => execWrSyncbusy v s
  | .addr => execWrAddr v s
  | .data => execWrData (v.extractLsb' 0 8) s

end Sys2Proof.Machine
end

