-- ==== Sys2Proof/Machine/Procedures.lean ====
section
/-! DEFINITION. Machine/Procedures.lean: how the host runs a procedure (spec/00_scope.md R7, R8; spec/10_state.md R31). A
procedure is a list of statements; one host step takes one register access or service call, together with the pure
statements before it, and leaves the rest in `State.running`; after a procedure's last access its pure end is taken with it,
there being no next one (log entry 2). Controller and environment moves may come between two host
steps. The statement lists of the shared procedures stand here too. -/

namespace Sys2Proof.Machine

-- ending and continuing

/-- The host's results with a procedure's result, if it has one, behind them. -/
def withResult (rs : List Value) : Option Value → List Value
  | none => rs
  | some v => rs ++ [v]

/-- The procedure in progress ends and gives its result, if it has one, to the host program. -/
def finish (v : Option Value) (s : State) : State :=
  { s with running := none, results := withResult s.results v }

/-- The statements the procedure in progress has still to run. -/
def setTodo (todo : List Stmt) (s : State) : State :=
  { s with running := s.running.map (fun r => { r with todo := todo }) }

-- statement lists (spec/42, 43 and 44)

/-- `RMW(CTRLB, CMD <- c)` (R93, R226). -/
def issueCmd (c : Cmd) : Stmt := .rmw .ctrlb cmdMask (cmdWord c)

/-- `await (RD(SYNCBUSY) & mask) = 0` (R203). -/
def awaitSync (e : Event) : Stmt := .await .syncbusy (eventMask e) false

/-- `await (RD(INTFLAG) & mask) != 0` (R221). -/
def awaitFlag (f : ReadyFlag) : Stmt := .await .intflag (readyMask f) true

/-- `eng.send_cmd(STOP)` and the count a transaction returns after it (R251, R252). -/
def stopAndReturn (ret : Ret) (n : Nat) : List Stmt := [issueCmd .stop, awaitSync .sysop, .retCount ret n]

/-- `eng.set_addr_sync` after its ADDR write (R222). -/
def addrPhaseTail (isRead : Bool) : List Stmt :=
  [awaitSync .sysop, awaitFlag (readyOf isRead), .phase .addrNack]

/-- `WR(ADDR, zext_32(h))` (R222). -/
def writeHeader (h : Byte) : Stmt := .wr .addr (h.setWidth 32)

/-- `eng.set_addr_sync` (R222). -/
def addrPhase (h : Byte) : List Stmt := writeHeader h :: addrPhaseTail (headerRead h)

/-- `sock.send` after its ADDR write (R251). -/
def sendTail (data : Option Buf) (len : Nat) (ret : Ret) : List Stmt :=
  addrPhaseTail false ++ [.orRet ret 0] ++
    match data with
    | none => stopAndReturn ret 0
    | some b => .sendLoop b 0 len ret :: stopAndReturn ret len

/-- `sock.send` to the bound address (R251), the frame limit apart. -/
def sendBody (addr : BitVec 7) (data : Option Buf) (len : Nat) (ret : Ret) : List Stmt :=
  writeHeader (header addr false) :: sendTail data len ret

/-- `sock.recv` from the bound address (R252). -/
def recvBody (addr : BitVec 7) (dst : Dst) (len : Nat) (ret : Ret) : List Stmt :=
  addrPhase (header addr true) ++ [.orRet ret 0, .burstLoop dst 0 len (.recv ret)]

/-- One turn of `sock.send`'s payload loop (R251): `eng.send_data_sync(data[k])`. -/
def sendTurn (src : Buf) (k len : Nat) (ret : Ret) : List Stmt :=
  [.wrData src k, awaitFlag .mb, .phase .dataNack, .orRet ret k, .sendLoop src (k + 1) len ret]

/-- One turn of `eng.recv_burst`'s loop (R225): the command before every byte but the first, the byte, and the
acknowledge policy, which smart mode skips entirely. -/
def burstTurn (smart : Bool) (dst : Dst) (k len : Nat) (ret : Ret) : List Stmt :=
  (if 0 < k then [issueCmd .readContinue, awaitSync .sysop] else []) ++
    [awaitFlag .sb, .recvCheck ret k, .recvByte dst k] ++
    (if smart then [] else [.ackPolicy (decide (len ≤ k + 1))]) ++ [.burstLoop dst (k + 1) len ret]

-- returning

/-- A procedure that returns the count `n` returns to whoever waits for it (R31): the host program, or the calling
procedure's next statement, which may run on. `st` is the shared `status`, just written. -/
def returnTo (ret : Ret) (n : Nat) (s : State) : State :=
  match ret with
  | .top => finish (some (.count n)) s
  | .status => finish (s.status.map Value.status) s
  | .burst => finish (s.status.map (fun t => Value.burst t n)) s
  | .recv next => if s.status = some .success then setTodo (stopAndReturn next n) s else returnTo next n s
  | .frame off src total len =>
    if n = 2 then
      if total + 1 < len then setTodo [.frame off src (total + 1) len] s else finish (some (.count (total + 1))) s
    else finish (some (.count total)) s
  | .select dst len next =>
    if n ≠ 1 then returnTo next 0 s else setTodo (recvBody s.sockAddr dst len next) s
  | .probe a rest =>
    if s.status = some .success then finish (some (.found a)) s
    else match rest with
      | [] => finish (some .noneFound) s
      | b :: more => setTodo [.probeTry b more] s
  | .field i sz =>
    if n ≠ sz then finish (some (.field none)) s
    else finish (some (.field ((s.cfg.map[i]?).map (fun f => unpackField f s.scratch)))) s

/-- A statement that makes no access (R8). -/
def isPure : Stmt → Bool
  | .setStatus _ => true
  | .store _ _ _ => true
  | .orRet _ _ => true
  | .retCount _ _ => true
  | .retVal _ => true
  | .sendLoop _ _ _ _ => true
  | .burstLoop _ _ _ _ => true
  | _ => false

/-- Taking the pure statements at the head of a list, up to the next register access or the end (R8). -/
def settle (todo : List Stmt) (s : State) : State :=
  match todo with
  | [] => finish none s
  | .setStatus st :: rest => settle rest { s with status := some st }
  | .store dst k d :: rest => settle rest (dstWrite dst k d s)
  | .orRet ret n :: rest => if s.status = some .success then settle rest s else returnTo ret n s
  | .retCount ret n :: _ => returnTo ret n s
  | .retVal v :: _ => finish (some v) s
  | .sendLoop src k len ret :: rest =>
    if k < len then setTodo (sendTurn src k len ret ++ rest) s else settle rest s
  | .burstLoop dst k len ret :: rest =>
    if k < len then setTodo (burstTurn s.cfg.smart dst k len ret ++ rest) s
    else returnTo ret len (if len = 0 then { s with status := some .success } else s)
  | st :: rest => setTodo (st :: rest) s

-- one host step of a procedure

/-- A call of an external service (R207, R209, R210): one atomic host step that changes only the input it names. -/
def callService (x : Service) (s : State) : State :=
  match x with
  | .attach => { s with clk := true }
  | .frequency => { s with draws := s.draws + 1 }
  | .pin .sda k => { s with sdaFn := k }
  | .pin .scl k => { s with sclFn := k }

/-- A register write inside a procedure or a pseudo-instruction, with the statements that stand in its place. A fault of the
write records the write's own descriptor and not the procedure (DESIGN CHOICE, log entry 19): R312 says only "the descriptor
or procedure that raised it". -/
def accessWrite (r : Reg) (v : Word) (next : List Stmt) (s : State) : Out (State × List Stmt) :=
  andThen (wrReg r v s) (fun s' => .next (s', next))

/-- `sock.send`'s frame limit (R251): data and more bytes than `P_MAX_FRAME`. -/
def tooLong (cfg : Params) (len : Nat) : Bool := decide (cfg.maxFrame < len)

/-- `status <- PAYLOAD_TOO_LONG` (R251). -/
def setTooLong (s : State) : State := { s with status := some .payloadTooLong }

/-- The frame of `rfa.write` for byte `total` (R284): the byte is read, then `sock.send` of register address and byte. -/
def accessFrame (o : Origin) (off : Nat) (src : Buf) (total len : Nat) (s : State) : Out (State × List Stmt) :=
  match bufRead s.mem src total with
  | none => .fault (.bufferUnwritten o)
  | some b =>
    if tooLong s.cfg 2 then .next (setTooLong s, [.retCount (.frame off src total len) 0])
    else accessWrite .addr ((header s.sockAddr false).setWidth 32)
      (sendTail (some (.bytes [regAddrByte (off + total), b])) 2 (.frame off src total len)) s

/-- `sock.connect(a)` and the ADDR write of the probe of `a` (R253). -/
def accessProbe (o : Origin) (a : Nat) (rest : List Nat) (s : State) : Out (State × List Stmt) :=
  if 127 < a then .fault (.badAddress o)
  else accessWrite .addr ((header (BitVec.ofNat 7 a) false).setWidth 32) (sendTail none 0 (.probe a rest))
    { s with sockAddr := BitVec.ofNat 7 a }

/-- The access a statement makes: the state after it, and the statements that stand in its place, what the procedure does
with a value read among them. A pure statement makes none. -/
def access (o : Origin) (st : Stmt) (s : State) : Out (State × List Stmt) :=
  match st with
  | .wr r v => accessWrite r v [] s
  | .rmw r clr set => .next (s, [.wr r (rmwValue (rdReg r s.ctrl) clr set)])
  | .await r mask set =>
    .next (s, if (rdReg r s.ctrl &&& mask != 0#32) = set then [] else [.await r mask set])
  | .getMode => .next (s, [.retVal (.mode (modeVal ((rdReg .ctrla s.ctrl).extractLsb' 2 3)))])
  | .phase nack => .next (s, [.setStatus (phaseStatus (rdReg .status s.ctrl) nack)])
  | .recvCheck ret k =>
    .next (s, if (rdReg .status s.ctrl).getLsbD 0 then [.setStatus .other, .retCount ret k] else [])
  | .recvByte dst k =>
    .next (s, [.store dst k ((rdReg .data s.ctrl).extractLsb' 0 8), .setStatus .success])
  | .ackPolicy nack =>
    .next (s, if s.cfg.smart then []
      else [.wr .ctrlb (rmwValue (rdReg .ctrlb s.ctrl) (if nack then 0x30000#32 else 0x70000#32)
        (if nack then 0x40000#32 else 0#32))])
  | .service x => .next (callService x s, [])
  | .wrData src k =>
    match bufRead s.mem src k with
    | none => .fault (.bufferUnwritten o)
    | some b => accessWrite .data (b.setWidth 32) [] s
  | .frame off src total len => accessFrame o off src total len s
  | .probeTry a rest => accessProbe o a rest s
  | .setStatus st => .next (s, [.setStatus st])
  | .store dst k d => .next (s, [.store dst k d])
  | .orRet ret n => .next (s, [.orRet ret n])
  | .retCount ret n => .next (s, [.retCount ret n])
  | .retVal v => .next (s, [.retVal v])
  | .sendLoop src k len ret => .next (s, [.sendLoop src k len ret])
  | .burstLoop dst k len ret => .next (s, [.burstLoop dst k len ret])

/-- The statements left after an access. They wait for the next access (R8), unless only pure ones are left up to the
procedure's return to the host program: these are taken at once (log entry 2). -/
def leave (todo : List Stmt) (s : State) : State :=
  let t := settle todo s
  if t.running.isNone then t else setTodo todo s

/-- One host step of the procedure in progress (R8, R31): its pure statements up to the next access, and that access. -/
def resume (s : State) : Out State :=
  match s.running with
  | none => .next s
  | some r =>
    let t := settle r.todo s
    match t.running with
    | none => .next t
    | some q =>
      match q.todo with
      | [] => .next (finish none t)
      | st :: rest => andThen (access q.origin st t) (fun p => .next (leave (p.2 ++ rest) p.1))

/-- Calling a procedure: its pure statements up to the first access, and that access, are one host step (R8). -/
def call (o : Origin) (todo : List Stmt) (s : State) : Out State :=
  resume { s with running := some { origin := o, todo := todo } }

end Sys2Proof.Machine
end

