-- ==== Sys2Proof/Machine/Socket.lean ====
section
/-! DEFINITION. Machine/Socket.lean: the Bus-Socket's procedures (spec/44_socket.md R250 to R253). -/

namespace Sys2Proof.Machine

/-- `sock.connect(addr)` (R250): a pure state update. -/
def execSockConnect (addr : Nat) (s : State) : Out State :=
  if 127 < addr then .fault (.badAddress (.instr (.sockConnect addr)))
  else .next { s with sockAddr := BitVec.ofNat 7 addr }

/-- `sock.send(data, len)` (R251): the frame limit is checked before any bus activity; a null buffer is the probe,
whatever `len` is. -/
def execSockSend (data : Option Nat) (len : Nat) (s : State) : Out State :=
  if data.isSome && tooLong s.cfg len then .next (giveValue (.count 0) (setTooLong s))
  else call (.instr (.sockSend data len)) (sendBody s.sockAddr (data.map Buf.mem) len .top) s

/-- A null buffer with a length (R307). -/
def nullWithLen (data : Option Nat) (len : Nat) : Bool := data.isNone && decide (0 < len)

/-- `sock.recv(data, len)` (R252). -/
def execSockRecv (data : Option Nat) (len : Nat) (s : State) : Out State :=
  if nullWithLen data len then .fault (.nullBuffer (.instr (.sockRecv data len)))
  else call (.instr (.sockRecv data len)) (recvBody s.sockAddr (.mem (data.getD 0)) len .top) s

/-- `sock.probe(cands)` (R253). -/
def execSockProbe (cands : List Nat) (s : State) : Out State :=
  match cands with
  | [] => .next (giveValue .noneFound s)
  | a :: rest => call (.instr (.sockProbe (a :: rest))) [.probeTry a rest] s

end Sys2Proof.Machine
end

