-- ==== Sys2Proof/Machine/Accessor.lean ====
section
/-! DEFINITION. Machine/Accessor.lean: the register-field accessor (spec/45_register_accessor.md R271 to R287). -/

namespace Sys2Proof.Machine

/-- `rfa.layout_check(map)` (R271). -/
def execRfaLayoutCheck (m : RMap) (s : State) : Out State :=
  if mapOk m then .next (giveValue .ok s) else .fault (.mapIllFormed (.instr (.rfaLayoutCheck m)))

/-- `rfa.offset(ref)` (R272). -/
def execRfaOffset (r : FieldRef) (s : State) : Out State :=
  match resolve s.cfg.map r with
  | some n => .next (giveValue (.nat (offsetOf s.cfg.map n)) s)
  | none => .fault (.unknownField (.instr (.rfaOffset r)))

/-- `rfa.size(ref)` (R273). -/
def execRfaSize (r : FieldRef) (s : State) : Out State :=
  match resolveField s.cfg.map r with
  | some (_, f) => .next (giveValue (.nat f.size) s)
  | none => .fault (.unknownField (.instr (.rfaSize r)))

/-- `rfa.total_size(map)` (R274). -/
def execRfaTotalSize (m : RMap) (s : State) : Out State := .next (giveValue (.nat (totalSize m)) s)

/-- The target register space has 256 bytes (R77, R311). -/
def beyondRegs (offset len : Nat) : Bool := decide (256 < offset + len)

/-- `rfa.write` once its operands are checked (R284): no byte ends it at once, else the first frame starts. -/
def writeRegs (o : Origin) (offset : Nat) (src : Buf) (len : Nat) (s : State) : Out State :=
  if len = 0 then .next (giveValue (.count 0) s) else call o [.frame offset src 0 len] s

/-- `rfa.write(offset, data, len)` (R284). -/
def execRfaWrite (offset : Nat) (data : Option Nat) (len : Nat) (s : State) : Out State :=
  let o := Origin.instr (.rfaWrite offset data len)
  if nullWithLen data len then .fault (.nullBuffer o)
  else if beyondRegs offset len then .fault (.regRange o)
  else writeRegs o offset (.mem (data.getD 0)) len s

/-- `rfa.read` once its operands are checked (R285): `sock.send` of the register address alone selects the register. -/
def readRegs (o : Origin) (offset : Nat) (dst : Dst) (len : Nat) (ret : Ret) (s : State) : Out State :=
  if tooLong s.cfg 1 then call o [.retCount (.select dst len ret) 0] (setTooLong s)
  else call o (sendBody s.sockAddr (some (.bytes [regAddrByte offset])) 1 (.select dst len ret)) s

/-- `rfa.read(offset, data, len)` (R285). -/
def execRfaRead (offset : Nat) (data : Option Nat) (len : Nat) (s : State) : Out State :=
  let o := Origin.instr (.rfaRead offset data len)
  if nullWithLen data len then .fault (.nullBuffer o)
  else if beyondRegs offset len then .fault (.regRange o)
  else readRegs o offset (.mem (data.getD 0)) len .top s

/-- `rfa.unpack(f, b)` (R281): pure; it runs on any number of bytes (log entry 21). -/
def execRfaUnpack (f : Field) (bs : List Byte) (s : State) : Out State :=
  .next (giveValue (.values (unpackField f (fieldBytes f bs))) s)

/-- `rfa.pack(f, vals)` (R282): pure. -/
def execRfaPack (f : Field) (vals : List (Option Int)) (s : State) : Out State :=
  if packShape f vals then
    match packField f vals with
    | some bs => .next (giveValue (.bytes bs) s)
    | none => .fault (.valueRange (.instr (.rfaPack f vals)))
  else .refused (.illFormed (.op (encode (.rfaPack f vals))))

/-- `rfa.read_field(ref)` (R286): the field's bytes are read into a local buffer and unpacked. -/
def execRfaReadField (r : FieldRef) (s : State) : Out State :=
  let o := Origin.instr (.rfaReadField r)
  match resolveField s.cfg.map r with
  | none => .fault (.unknownField o)
  | some (n, f) =>
    if beyondRegs (offsetOf s.cfg.map n) f.size then .fault (.regRange o)
    else readRegs o (offsetOf s.cfg.map n) .scratch f.size (.field n f.size) { s with scratch := [] }

/-- `rfa.write_field(ref, vals)` (R287): no read-modify-write. -/
def execRfaWriteField (r : FieldRef) (vals : List (Option Int)) (s : State) : Out State :=
  let o := Origin.instr (.rfaWriteField r vals)
  match resolveField s.cfg.map r with
  | none => .fault (.unknownField o)
  | some (n, f) =>
    if packShape f vals then
      match packField f vals with
      | none => .fault (.valueRange o)
      | some bs =>
        if beyondRegs (offsetOf s.cfg.map n) f.size then .fault (.regRange o)
        else writeRegs o (offsetOf s.cfg.map n) (.bytes bs) f.size s
    else .refused (.illFormed (.op (encode (.rfaWriteField r vals))))

end Sys2Proof.Machine
end

