-- ==== Sys2Proof/Machine/Common.lean ====
section
/-! DEFINITION. Machine/Common.lean: the Bus-Controller-Common procedures and the external services
(spec/42_controller_common.md R200 to R210). -/

namespace Sys2Proof.Machine

/-- `bcc.reset()` (R200). -/
def resetBody : List Stmt := [.wr .ctrla 0x00000001#32, awaitSync .swrst]

/-- `bcc.enable()` (R201). -/
def enableBody : List Stmt :=
  [.rmw .ctrla 0x1#32 0x2#32, awaitSync .enable, .wr .status 0x0010#32, awaitSync .sysop]

/-- `bcc.disable()` (R202). -/
def disableBody : List Stmt := [.rmw .ctrla 0x3#32 0x0#32, awaitSync .enable]

/-- `bcc.set_mode(m)` (R204). -/
def setModeBody (m : Role) : List Stmt := [.rmw .ctrla 0x1D#32 ((roleCode m).setWidth 32 <<< 2)]

/-- `bcc.init()` (R206). -/
def initBody (smart : Bool) : List Stmt :=
  [.service .attach, .service .frequency, .service (.pin .sda .i2c), .service (.pin .scl .i2c)] ++
    resetBody ++ setModeBody .controller ++
    [.rmw .ctrlb 0x30100#32 (if smart then 0x100#32 else 0x0#32)] ++ enableBody

/-- `bcc.reset()` (R200). -/
def execBccReset (s : State) : Out State := call (.instr .bccReset) resetBody s

/-- `bcc.enable()` (R201). -/
def execBccEnable (s : State) : Out State := call (.instr .bccEnable) enableBody s

/-- `bcc.disable()` (R202). -/
def execBccDisable (s : State) : Out State := call (.instr .bccDisable) disableBody s

/-- `bcc.wait_sync(event)` (R203). -/
def execBccWaitSync (e : Event) (s : State) : Out State := call (.instr (.bccWaitSync e)) [awaitSync e] s

/-- `bcc.set_mode(m)` (R204). -/
def execBccSetMode (m : Role) (s : State) : Out State := call (.instr (.bccSetMode m)) (setModeBody m) s

/-- `bcc.get_mode()` (R205). -/
def execBccGetMode (s : State) : Out State := call (.instr .bccGetMode) [.getMode] s

/-- `bcc.init()` (R206). -/
def execBccInit (s : State) : Out State := call (.instr .bccInit) (initBody s.cfg.smart) s

/-- `ext.clock_attach()` (R207). -/
def execExtClockAttach (s : State) : Out State := .next { s with clk := true }

/-- `ext.clock_detach()` (R208). -/
def execExtClockDetach (s : State) : Out State := .next { s with clk := false }

/-- `ext.pin_set_function(pin, kind)` (R209): `pins` follows from the two recorded functions. -/
def execExtPinSetFunction (p : Pin) (k : PinFn) (s : State) : Out State := .next (callService (.pin p k) s)

/-- `ext.get_frequency()` (R210): a free draw. -/
def execExtGetFrequency (s : State) : Out State :=
  .next (giveValue (.freq (Config.frequency s.draws)) { s with draws := s.draws + 1 })

end Sys2Proof.Machine
end

