-- ==== Sys2Proof/Machine/Engine.lean ====
section
/-! DEFINITION. Machine/Engine.lean: the Bus-Primary engine's procedures (spec/43_primary_engine.md R220 to R229). -/

namespace Sys2Proof.Machine

/-- `eng.make_header(addr, is_read)` (R220): pure. -/
def execEngMakeHeader (addr : Nat) (isRead : Bool) (s : State) : Out State :=
  match makeHeader addr isRead with
  | some h => .next (giveValue (.header h) s)
  | none => .fault (.badAddress (.instr (.engMakeHeader addr isRead)))

/-- `eng.parse_header(h)` (R228): pure. -/
def execEngParseHeader (h : Byte) (s : State) : Out State :=
  .next (giveValue (.parsed (headerAddr h) (headerRead h)) s)

/-- `eng.wait_flag(mask)` (R221). INTFLAG reads 0 above MB and SB (R29), so other bits of the mask never match (log entry
22). -/
def execEngWaitFlag (mask : Byte) (s : State) : Out State :=
  call (.instr (.engWaitFlag mask)) [.await .intflag (mask.setWidth 32) true] s

/-- `eng.set_addr_sync(addr, is_read)` (R222). -/
def execEngSetAddrSync (addr : Nat) (isRead : Bool) (s : State) : Out State :=
  match makeHeader addr isRead with
  | some h => call (.instr (.engSetAddrSync addr isRead)) (addrPhase h ++ [.retCount .status 0]) s
  | none => .fault (.badAddress (.instr (.engMakeHeader addr isRead)))

/-- `eng.send_data_sync(b)` (R223). -/
def execEngSendDataSync (b : Byte) (s : State) : Out State :=
  call (.instr (.engSendDataSync b))
    [.wr .data (b.setWidth 32), awaitFlag .mb, .phase .dataNack, .retCount .status 0] s

/-- `eng.recv_data_sync(out byte)` (R224). -/
def execEngRecvDataSync (out : Nat) (s : State) : Out State :=
  call (.instr (.engRecvDataSync out))
    [awaitFlag .sb, .recvCheck .status 0, .recvByte (.mem out) 0, .retCount .status 0] s

/-- `eng.recv_burst(buf, len, out out_len)` (R225). -/
def execEngRecvBurst (buf len : Nat) (s : State) : Out State :=
  call (.instr (.engRecvBurst buf len)) [.burstLoop (.mem buf) 0 len .burst] s

/-- `eng.send_cmd(cmd)` (R226). -/
def execEngSendCmd (c : Cmd) (s : State) : Out State :=
  call (.instr (.engSendCmd c)) [issueCmd c, awaitSync .sysop] s

/-- `eng.send_ack()` (R227). -/
def execEngSendAck (s : State) : Out State := call (.instr .engSendAck) [.ackPolicy false] s

/-- `eng.send_nack()` (R229). -/
def execEngSendNack (s : State) : Out State := call (.instr .engSendNack) [.ackPolicy true] s

end Sys2Proof.Machine
end

