-- ==== Sys2Proof/Machine/Dispatch.lean ====
section
/-! DEFINITION. Machine/Dispatch.lean: one arm per row of spec/opcode_table.json, each one call of its meaning. -/

namespace Sys2Proof.Machine

def exec (i : Instr) (s : State) : Host.Outcome State Fault Refusal :=
  match i with
  -- HACC reads (R121 to R127)
  | .rdCtrla => Sys2Proof.Machine.execRdCtrla s
  | .rdCtrlb => Sys2Proof.Machine.execRdCtrlb s
  | .rdIntflag => Sys2Proof.Machine.execRdIntflag s
  | .rdStatus => Sys2Proof.Machine.execRdStatus s
  | .rdSyncbusy => Sys2Proof.Machine.execRdSyncbusy s
  | .rdAddr => Sys2Proof.Machine.execRdAddr s
  | .rdData => Sys2Proof.Machine.execRdData s
  -- HACC writes (R130 to R142)
  | .wrCtrlaSwrst v => Sys2Proof.Machine.execWrCtrlaSwrst v s
  | .wrCtrlaConfig v => Sys2Proof.Machine.execWrCtrlaConfig v s
  | .wrCtrlbNoop v => Sys2Proof.Machine.execWrCtrlbNoop v s
  | .wrCtrlbRepeatStart v => Sys2Proof.Machine.execWrCtrlbRepeatStart v s
  | .wrCtrlbReadContinue v => Sys2Proof.Machine.execWrCtrlbReadContinue v s
  | .wrCtrlbStop v => Sys2Proof.Machine.execWrCtrlbStop v s
  | .wrIntflag v => Sys2Proof.Machine.execWrIntflag v s
  | .wrStatus v => Sys2Proof.Machine.execWrStatus v s
  | .wrSyncbusy v => Sys2Proof.Machine.execWrSyncbusy v s
  | .wrAddr v => Sys2Proof.Machine.execWrAddr v s
  | .wrData v => Sys2Proof.Machine.execWrData v s
  -- Bus-Controller-Common (R200 to R206)
  | .bccReset => Sys2Proof.Machine.execBccReset s
  | .bccEnable => Sys2Proof.Machine.execBccEnable s
  | .bccDisable => Sys2Proof.Machine.execBccDisable s
  | .bccWaitSync e => Sys2Proof.Machine.execBccWaitSync e s
  | .bccSetMode m => Sys2Proof.Machine.execBccSetMode m s
  | .bccGetMode => Sys2Proof.Machine.execBccGetMode s
  | .bccInit => Sys2Proof.Machine.execBccInit s
  -- external services (R207 to R210)
  | .extClockAttach => Sys2Proof.Machine.execExtClockAttach s
  | .extClockDetach => Sys2Proof.Machine.execExtClockDetach s
  | .extPinSetFunction p k => Sys2Proof.Machine.execExtPinSetFunction p k s
  | .extGetFrequency => Sys2Proof.Machine.execExtGetFrequency s
  -- Bus-Primary engine (R220 to R229)
  | .engMakeHeader addr isRead => Sys2Proof.Machine.execEngMakeHeader addr isRead s
  | .engParseHeader h => Sys2Proof.Machine.execEngParseHeader h s
  | .engWaitFlag mask => Sys2Proof.Machine.execEngWaitFlag mask s
  | .engSetAddrSync addr isRead => Sys2Proof.Machine.execEngSetAddrSync addr isRead s
  | .engSendDataSync b => Sys2Proof.Machine.execEngSendDataSync b s
  | .engRecvDataSync out => Sys2Proof.Machine.execEngRecvDataSync out s
  | .engRecvBurst buf len => Sys2Proof.Machine.execEngRecvBurst buf len s
  | .engSendCmd c => Sys2Proof.Machine.execEngSendCmd c s
  | .engSendAck => Sys2Proof.Machine.execEngSendAck s
  | .engSendNack => Sys2Proof.Machine.execEngSendNack s
  -- Bus-Socket (R250 to R253)
  | .sockConnect addr => Sys2Proof.Machine.execSockConnect addr s
  | .sockSend d len => Sys2Proof.Machine.execSockSend d len s
  | .sockRecv d len => Sys2Proof.Machine.execSockRecv d len s
  | .sockProbe cands => Sys2Proof.Machine.execSockProbe cands s
  -- Register-Map Description and accessor (R271 to R287)
  | .rfaLayoutCheck m => Sys2Proof.Machine.execRfaLayoutCheck m s
  | .rfaOffset r => Sys2Proof.Machine.execRfaOffset r s
  | .rfaSize r => Sys2Proof.Machine.execRfaSize r s
  | .rfaTotalSize m => Sys2Proof.Machine.execRfaTotalSize m s
  | .rfaWrite offset d len => Sys2Proof.Machine.execRfaWrite offset d len s
  | .rfaRead offset d len => Sys2Proof.Machine.execRfaRead offset d len s
  | .rfaUnpack f bs => Sys2Proof.Machine.execRfaUnpack f bs s
  | .rfaPack f vals => Sys2Proof.Machine.execRfaPack f vals s
  | .rfaReadField r => Sys2Proof.Machine.execRfaReadField r s
  | .rfaWriteField r vals => Sys2Proof.Machine.execRfaWriteField r vals s

end Sys2Proof.Machine
end

