-- ==== Sys2Proof/Machine/Fetch.lean ====
section
/-! DEFINITION. Machine/Fetch.lean: the host's next program entry (spec/70_reset_and_hazards.md R346): decoding a table
operation, and the host's own actions: host memory (R7, R76), `status` (R305), the pseudo-instructions of R104, and a
register access by address (R70 to R75). The block itself fetches nothing (R83): the entries are the host thread's. -/

namespace Sys2Proof.Machine

/-- The refusal of a program entry that names no operation (R102, R312). -/
def rejected (x : Item) : Reject → Refusal
  | .illFormed => .illFormed x
  | .unmapped => .unmapped x

/-- The instruction a program entry is: a decoded word, or the register access that an access by address makes; `none`
for the host's other actions. -/
def entryInstr (base : Nat) (x : Item) : Except Refusal (Option Instr) :=
  match x with
  | .op w =>
    match decode w with
    | .ok i => .ok (some i)
    | .error e => .error (rejected x e)
  | .act (.mmio w addr width v) =>
    match mmioInstr base w addr width v with
    | none => .error (.outsideBlock x)
    | some (.error e) => .error (rejected x e)
    | some (.ok i) => .ok (some i)
  | .act _ => .ok none

/-- An action of the host's own that is no register access by address (that one is an instruction, see `entryInstr`).
DESIGN CHOICE (log entry 15): the values that a pseudo-instruction's expansion reads (R104), each poll of a `wait` and the
read of `cmd`, `ack` and `nack`, are not given to the host's results. DESIGN CHOICE (log entry 20): `memWrite` and `memRead`
are of host memory at every address, the register window's among them, and never reach a register. -/
def hostAct (a : HostAct) (s : State) : Out State :=
  match a with
  | .memWrite addr bs => .next { s with mem := memPutBytes s.mem addr bs }
  | .memRead addr n =>
    match memReadBytes s.mem addr n with
    | some bs => .next (giveValue (.bytes bs) s)
    | none => .fault (.bufferUnwritten (.act a))
  | .readStatus =>
    match s.status with
    | some t => .next (giveValue (.status t) s)
    | none => .fault (.statusNoValue (.act a))
  | .cmd c => call (.act a) [issueCmd c] s
  | .ack => call (.act a) [.rmw .ctrlb 0x40000#32 0#32] s
  | .nack => call (.act a) [.rmw .ctrlb 0#32 0x40000#32] s
  | .swrst => call (.act a) [.wr .ctrla 0x1#32] s
  | .forceIdle => call (.act a) [.wr .status 0x0010#32] s
  | .wait r mask set => call (.act a) [.await r mask set] s
  | .mmio _ _ _ _ => .next s

/-- The program entry a line of assembly stands for (R104). -/
def assemble : Asm → Item
  | .rd r => .op (haccWord false r 0#32)
  | .wr r imm => .op (haccWord true r imm)
  | .wrCtrlb c ackact smen => .op (haccWord true .ctrlb (ctrlbWord c ackact smen))
  | .wrStatusIdle => .op (haccWord true .status 0x0010#32)
  | .wrIntflag mb sb =>
    .op (haccWord true .intflag ((if mb then maskMB else 0#32) ||| (if sb then maskSB else 0#32)))
  | .call id args => .op (.proc id args)
  | .pseudo a => .act a

/-- Placing an operation where the next step takes it: the host's turn, no procedure in progress, and the operation at
the head of the host's program. -/
def placeWord (w : HostWord) (s : State) : State :=
  { s with turn := .host, running := none, prog := .op w :: s.prog }

/-- What every step adds around a move: the free choice of the next one (R177). -/
def advance (s : State) : State := { s with turn := Config.nextMove s.tick, tick := s.tick + 1 }

end Sys2Proof.Machine
end

