-- ==== Sys2Proof/Machine/Step.lean ====
section
/-! DEFINITION. Machine/Step.lean: one step of the machine: the move that `turn` names, by the host, the controller or the
bus environment (spec/41_controller_steps.md R177), and then the free choice of the next one. -/

namespace Sys2Proof.Machine

/-- Running one program entry of the host's. -/
def runEntry (x : Item) (s : State) : Host.Outcome State Fault Refusal :=
  match entryInstr s.cfg.base x with
  | .error r => .refused r
  | .ok (some i) => exec i s
  | .ok none =>
    match x with
    | .act a => hostAct a s
    | .op _ => .next s

/-- One host step: the next statement of the procedure in progress, else the next program entry, else nothing. -/
def hostMove (s : State) : Host.Outcome State Fault Refusal :=
  match s.running with
  | some _ => resume s
  | none =>
    match s.prog with
    | [] => .next s
    | x :: rest => runEntry x { s with prog := rest }

/-- The move an agent makes (R9, R177). -/
def moveAs (m : Move) (s : State) : Host.Outcome State Fault Refusal :=
  match m with
  | .host => hostMove s
  | .swrstSync => .next (agentMove .swrstSync s)
  | .enableSync => .next (agentMove .enableSync s)
  | .sysopSync => .next (agentMove .sysopSync s)
  | .bus => .next (agentMove .bus s)
  | .busIdle => .next (agentMove .busIdle s)

/-- One step of the machine. -/
def step (s : State) : Host.Outcome State Fault Refusal :=
  match moveAs s.turn s with
  | .next t => .next (advance t)
  | .fault r => .fault r
  | .refused r => .refused r

/-- The state in which the very next step runs the instruction of a table word. -/
def State.withFetchWord (s : State) (nbits w : Nat) : State := placeWord (tableWord nbits w) s

end Sys2Proof.Machine
end

