-- ==== Sys2Proof/Safety.lean ====
section
/-! DEFINITION. Safety.lean: the terms the statements use: what a run is, when an operation may start, the invariant of the
controller and of host memory, the end of a run and what is observed there (spec/70_reset_and_hazards.md R347), and the
fairness premises (spec/41_controller_steps.md R175). -/

namespace Sys2Proof.Safety

open Sys2Proof.Machine

/-- Steps in which the moves are taken in the given order: one interleaving of R177, written out. -/
def runAs : List Move → State → Out State
  | [], s => .next s
  | m :: ms, s => andThen (step { s with turn := m }) (runAs ms)

/-- A state after `n` more steps, as far as the model's own step count and the next move go. -/
def ticked (n : Nat) (s : State) : State :=
  { s with turn := if n = 0 then s.turn else Config.nextMove (s.tick + (n - 1)), tick := s.tick + n }

/-- An operation and the interleaving after it end in a state: the operation answers a next state, and the moves then
taken, in the order given, lead to `u`. A procedure's `exec` is its first host step; its others are the host moves listed,
and the last of them returns (log entry 2). -/
def Completes (i : Instr) (moves : List Move) (s u : State) : Prop :=
  ∃ t, exec i s = .next t ∧ runAs moves t = .next (ticked moves.length u)

/-- An endless run in which the moves are taken in the order `μ` (R177): every step answers a next state. The machine's
own run is the one whose `μ` is the `turn` of each state. -/
def IsRun (μ : Nat → Move) (σ : Nat → State) : Prop := ∀ n, step { σ n with turn := μ n } = .next (σ (n + 1))

/-- At step `n` of a run the move is taken: it is enabled and it is its turn. -/
def Taken (m : Move) (μ : Nat → Move) (σ : Nat → State) (n : Nat) : Prop := μ n = m ∧ enabled m (σ n) = true

/-- Weak fairness of a move (R175): if it stays enabled it is eventually taken. -/
def WeaklyFair (m : Move) (μ : Nat → Move) (σ : Nat → State) : Prop :=
  ∀ n, (∀ k, n ≤ k → enabled m (σ k) = true) → ∃ k, n ≤ k ∧ Taken m μ σ k

/-- The synchronisation steps are weakly fair (R175). -/
def SyncFair (μ : Nat → Move) (σ : Nat → State) : Prop :=
  WeaklyFair .swrstSync μ σ ∧ WeaklyFair .enableSync μ σ ∧ WeaklyFair .sysopSync μ σ

/-- A bus step waits: all that it needs to be enabled holds, the environment's stall apart (R164 to R169). -/
structure BusWaits (s : State) : Prop where
  ready : busReady s.ctrl = true
  en : s.ctrl.en = true
  clk : s.clk = true
  swrst : s.ctrl.syncSwrst = false

/-- `P_BUS_LIVE` (R175): the premise a claim that needs a transaction to end assumes: a bus step that keeps waiting is
eventually taken, and the bus-idle observation while it stays enabled. It rules out a stall for ever, as R315 says; by R175's
words alone a stalled step would not count (DESIGN CHOICE, log entry 26). -/
def BusLive (μ : Nat → Move) (σ : Nat → State) : Prop :=
  (∀ n, (∀ k, n ≤ k → BusWaits (σ k)) → ∃ k, n ≤ k ∧ Taken .bus μ σ k) ∧ WeaklyFair .busIdle μ σ

/-- A run hangs from step `n` on (R315): the host is on the same polling statement for ever, and its condition never becomes
true. -/
def HangsAt (σ : Nat → State) (n : Nat) : Prop :=
  ∃ o r mask set rest, ∀ k, n ≤ k →
    (σ k).running = some { origin := o, todo := .await r mask set :: rest } ∧
    (rdReg r (σ k).ctrl &&& mask ≠ 0#32 ↔ set = false)

/-- Nothing stops a guarded write: no synchronisation of SWRST or ENABLE is pending (`guard_sync`, R120). -/
structure NoSync (c : Ctrl) : Prop where
  swrst : c.syncSwrst = false
  enable : c.syncEnable = false

/-- Nothing stops an operation-starting write (`guard_start`, R120). -/
structure CanStart (s : State) : Prop where
  sync : NoSync s.ctrl
  sysop : s.ctrl.sysop = false
  busop : s.ctrl.busop = none
  en : s.ctrl.en = true
  mode : s.ctrl.mode = 0b101#3
  sda : s.sdaFn = .i2c
  scl : s.sclFn = .i2c

/-- The controller may take an address phase at once: an operation can start, the clock runs, and the bus is idle or owned. -/
structure BusFree (s : State) : Prop where
  start : CanStart s
  clk : s.clk = true
  bus : s.ctrl.busstate = .idle ∨ s.ctrl.busstate = .owner

/-- The controller owns the bus in a write phase with no byte pending (R142). -/
structure WritePhase (s : State) : Prop where
  start : CanStart s
  clk : s.clk = true
  owner : s.ctrl.busstate = .owner
  dir : s.ctrl.dir = false
  ackpend : s.ctrl.ackpend = false

/-- The operation pending or in progress, as a byte transmission. -/
def IsTx (c : Ctrl) : Prop := (∃ b, c.pend = some (.tx b)) ∨ (∃ b, c.busop = some (.tx b))

/-- The operation pending or in progress, as a command. -/
def IsCmd (k : BusCmd) (c : Ctrl) : Prop := c.pend = some (.cmd k) ∨ c.busop = some (.cmd k)

/-- The invariant of the controller: what holds between its registers and its hidden state in every run. -/
structure CtrlInv (c : Ctrl) : Prop where
  /-- `pend` ≠ none exactly when SYSOP = 1 and `busop` = none (R32). -/
  pend_iff : c.pend ≠ none ↔ (c.sysop = true ∧ c.busop = none)
  /-- While an address phase is on the wire SYSOP is 0 (R33). -/
  addr_sysop : ∀ h, c.busop = some (.addr h) → c.sysop = false
  /-- While a byte is on the wire SYSOP is 0 (R33). -/
  tx_sysop : ∀ b, c.busop = some (.tx b) → c.sysop = false
  /-- While a command is in progress SYSOP stays 1 (R33). -/
  cmd_sysop : ∀ k, c.busop = some (.cmd k) → c.sysop = true
  /-- While `en` = 0 there is no bus operation (R30). -/
  disabled : c.en = false → c.pend = none ∧ c.busop = none ∧ c.ackpend = false
  /-- `en` is CTRLA.ENABLE unless an ENABLE synchronisation is pending (R30, R161). -/
  en_synced : c.syncEnable = false → c.en = c.enable
  /-- An ENABLE synchronisation is pending only when CTRLA.ENABLE was changed (R26, R131). -/
  en_pending : c.syncEnable = true → c.en ≠ c.enable
  /-- A byte waits for its acknowledge only while the controller owns the bus in read direction (R34, R164). -/
  ack_owner : c.ackpend = true → c.busstate = .owner ∧ c.dir = true
  /-- A byte is transmitted only in a write phase (R142). -/
  tx_owner : IsTx c → c.busstate = .owner ∧ c.dir = false ∧ c.ackpend = false
  /-- BUSSTATE is OWNER when the REPEAT_START step runs (R168). -/
  repeat_owner : IsCmd .repeatStart c → c.busstate = .owner
  /-- READ_CONTINUE has a byte to acknowledge (R134, R167). -/
  continue_ack : IsCmd .readContinue c → c.ackpend = true
  /-- BUSY is never entered (R41). -/
  not_busy : c.busstate ≠ .busy

/-- The invariant of the machine. -/
structure Inv (s : State) : Prop where
  ctrl : CtrlInv s.ctrl
  mem : s.mem.wf = true

/-- A host program has ended (R347): its last operation has returned. A refused or faulting run has no end. -/
def Ended (s : State) : Prop := s.running = none ∧ s.prog = []

/-- What is observed at the end of a run (R347). -/
structure Observation where
  trace : List BusEvent
  results : List Value
  status : Option TStatus
  sockAddr : BitVec 7
  buffers : Memory
  registers : List Word
deriving DecidableEq, Repr

/-- The observation of a state: the registers as `RD` would return them, in the order of R21. -/
def observe (s : State) : Observation where
  trace := s.trace
  results := s.results
  status := s.status
  sockAddr := s.sockAddr
  buffers := s.mem
  registers := [Reg.ctrla, .ctrlb, .intflag, .status, .syncbusy, .addr, .data].map (fun r => rdReg r s.ctrl)

/-- A flag as a register bit. -/
def bit (b : Bool) : Word := if b then 1#32 else 0#32

/-- The operation-starting writes: those that `guard_start` guards (R120). -/
def startsOp : Instr → Bool
  | .wrAddr _ => true
  | .wrData _ => true
  | .wrCtrlbRepeatStart _ => true
  | .wrCtrlbReadContinue _ => true
  | .wrCtrlbStop _ => true
  | .wrStatus v => v.extractLsb' 4 2 == 0b01#2
  | _ => false

/-- What drives the acknowledge of a received byte before a STOP, a REPEAT_START or an address phase (R171). -/
def otherAck (c : Ctrl) : List BusEvent :=
  if c.ackpend then [.mack (if c.smen then .nack else c.ackact)] else []

/-- What drives the acknowledge of a received byte before a READ_CONTINUE (R171). -/
def continueAck (c : Ctrl) : List BusEvent :=
  if c.ackpend then [.mack (if c.smen then .ack else c.ackact)] else []

/-- The START of an address phase: repeated while the controller owns the bus (R164). -/
def startEvent (c : Ctrl) : BusEvent := if c.busstate = .owner then .rstart else .start

-- what the controller's bus steps do to a state, as the rules list it

/-- `bus_error(flag)` on the controller (R173). -/
def busErrorCtrl (f : ReadyFlag) (c : Ctrl) : Ctrl :=
  { c with
    buserr := true, busstate := .unknown, ackpend := false, busop := none, sysop := false
    mb := c.mb || f == .mb, sb := c.sb || f == .sb }

/-- A byte asked of the environment: received into DATA with its acknowledge pending, or a bus error (R164, R167). -/
def byteIn (s : State) : State :=
  match drawByte s with
  | (.busErr, u) => { u with trace := u.trace ++ [.busErr], ctrl := busErrorCtrl .sb u.ctrl }
  | (.byte d, u) => { u with trace := u.trace ++ [.rx d], ctrl := { u.ctrl with data := d, ackpend := true, sb := true } }

/-- A header put to the environment, and what its answer leads to (R164, R168). -/
def headerOut (h : Byte) (s : State) : State :=
  match drawHeader h s with
  | (.busErr, u) =>
    { u with trace := u.trace ++ [.busErr], ctrl := busErrorCtrl (if h.getLsbD 0 then .sb else .mb) u.ctrl }
  | (.ack, u) =>
    let c := { u.ctrl with rxnack := false, busstate := .owner, dir := h.getLsbD 0 }
    if h.getLsbD 0 then byteIn { u with trace := u.trace ++ [.hdr h .ack], ctrl := c }
    else { u with trace := u.trace ++ [.hdr h .ack], ctrl := { c with mb := true } }
  | (.nack, u) =>
    let c := { u.ctrl with rxnack := true, busstate := .owner, dir := h.getLsbD 0 }
    { u with
      trace := u.trace ++ [.hdr h .nack]
      ctrl := if h.getLsbD 0 = true ∧ u.cfg.readNackFlag = .sb then { c with sb := true } else { c with mb := true } }

-- the register map (R271, R282)

/-- A value is in the range of its sub-field (R282); a Signed one of width 0 has the range of width 1 (the model's choice, log
entry 25). -/
def InRange (s : SubField) (v : Int) : Prop :=
  match s.kind with
  | .unsigned => 0 ≤ v ∧ v < 2 ^ s.width
  | .flag => v = 0 ∨ v = 1
  | .enum cs => ∃ c ∈ cs, (c.1 : Int) = v
  | .signed => -(2 ^ (s.width - 1)) ≤ v ∧ v < 2 ^ (s.width - 1)

/-- Conditions 5, 7 and 8 of R271 on a sub-field of a field of `size` bytes. Condition 8 on an enumeration is the model's
reading (log entry 18): its `dflt` is a pattern of its width. -/
structure SubWellFormed (size : Nat) (s : SubField) : Prop where
  width : 1 ≤ s.width
  place : s.bitoff + s.width ≤ 8 * size
  flag : s.kind = .flag → s.width = 1
  signed : s.kind = .signed → 2 ≤ s.width
  codes : ∀ cs, s.kind = .enum cs → (cs.map Prod.fst).Nodup ∧ ∀ c ∈ cs, c.1 < 2 ^ s.width
  dflt : (∀ cs, s.kind ≠ .enum cs) → InRange s s.dflt
  enumDflt : ∀ cs, s.kind = .enum cs → 0 ≤ s.dflt ∧ s.dflt < 2 ^ s.width

/-- Conditions 1 and 4 to 8 of R271 on a field. -/
structure FieldWellFormed (f : Field) : Prop where
  size : 1 ≤ f.size
  names : (f.allSubs.filterMap SubField.name).Nodup
  subs : ∀ s ∈ f.allSubs, SubWellFormed f.size s
  disjoint : f.allSubs.Pairwise (fun s t => s.bitoff + s.width ≤ t.bitoff ∨ t.bitoff + t.width ≤ s.bitoff)

/-- R271: a map is well-formed iff all eight conditions hold. -/
structure MapWellFormed (m : RMap) : Prop where
  total : (m.map Field.size).sum ≤ 256
  names : (m.filterMap Field.name).Nodup
  fields : ∀ f ∈ m, FieldWellFormed f

/-- The number a field's bytes form (R280). -/
def fieldNumber (bs : List Byte) : Nat := bs.foldr (fun b v => b.toNat + 256 * v) 0

/-- The value a sub-field holds in a field's number (R281); 0 for a Signed one of width 0 (the model's choice, log entry 25). -/
def subValue (s : SubField) (v : Nat) : Int :=
  let u := v / 2 ^ s.bitoff % 2 ^ s.width
  if s.kind = .signed ∧ 2 ^ (s.width - 1) ≤ u then (u : Int) - 2 ^ s.width else u

/-- The number a list of entries packs to, `none` standing for the sub-field's `dflt` (R282). -/
def packNumber (f : Field) (vals : List (Option Int)) : Nat :=
  (f.allSubs.zip vals).foldl
    (fun v p => v ||| ((p.2.getD p.1.dflt) % 2 ^ p.1.width).toNat <<< p.1.bitoff) 0

-- transactions with the simulated target of R176

/-- The next `n` bytes the simulated target supplies in a read frame (R176). -/
def simBytes (t : SimTarget) (n : Nat) : List Byte := (List.range n).map (fun k => simReg t (t.ptr + BitVec.ofNat 8 k))

/-- A burst on the wire, every byte but the last acknowledged ACK (R225, R285). -/
def burstTrace : List Byte → List BusEvent
  | [] => []
  | [b] => [.rx b]
  | b :: c :: bs => .rx b :: .mack .ack :: burstTrace (c :: bs)

/-- One frame of `rfa.write` that the target accepts, after its START: header, register address, payload, STOP (R284). -/
def acceptedFrame (h r b : Byte) : List BusEvent := [.hdr h .ack, .tx r .ack, .tx b .ack, .stop]

/-- One frame of `rfa.write` whose payload the target refuses, after its START: no STOP (R284). -/
def refusedFrame (h r b : Byte) : List BusEvent := [.hdr h .ack, .tx r .ack, .tx b .nack]

/-- The frames of `rfa.write` for the bytes `bs` at target register `off` upward, all accepted; the first begins with
`first`, every other with a START of its own (R284). -/
def acceptedFrames (h : Byte) : List BusEvent → Nat → List Byte → List BusEvent
  | _, _, [] => []
  | first, off, b :: bs =>
    first ++ acceptedFrame h (BitVec.ofNat 8 off) b ++ acceptedFrames h [.start] (off + 1) bs

/-- The target's registers after the bytes `bs` are written from register `off` upward. -/
def writtenRegs (regs : Memory) (off : Nat) : List Byte → Memory
  | [] => regs
  | b :: bs =>
    writtenRegs (if b = 0#8 then memErase regs (BitVec.ofNat 8 off).toNat else memPut regs (BitVec.ofNat 8 off).toNat b)
      (off + 1) bs

/-- The host's buffer at `a` holds the bytes `bs`. -/
def Holds (m : Memory) (a : Nat) (bs : List Byte) : Prop := ∀ k, k < bs.length → memRead m (a + k) = bs[k]?

/-- The state in which the host and the simulated target meet a transaction: the bus is free, the target `t` is on it, and
CTRLB.SMEN holds the engine's smart policy, as `bcc.init` leaves it (R206). -/
structure OnBus (s : State) (t : SimTarget) : Prop where
  free : BusFree s
  env : s.env = .sim t
  smart : s.ctrl.smen = s.cfg.smart

/-- The controller has received a byte of a read frame and waits for the next command. -/
structure ReadPhase (s : State) (t : SimTarget) : Prop where
  start : CanStart s
  clk : s.clk = true
  env : s.env = .sim t
  smart : s.ctrl.smen = s.cfg.smart
  addressed : t.addressed = true
  reading : t.reading = true
  owner : s.ctrl.busstate = .owner
  dir : s.ctrl.dir = true
  ackpend : s.ctrl.ackpend = true
  sb : s.ctrl.sb = true
  buserr : s.ctrl.buserr = false
  pend : s.ctrl.pend = none

end Sys2Proof.Safety
end

