-- ==== Sys2Proof/Certificates/Slice0/Obligations.lean ====
section
/-! DEFINITION. The statements for the provers, from the numbered rules of spec/. -/

section

open Sys2Proof Sys2Proof.Machine Sys2Proof.Safety

-- encodings (spec/30_encoding.md)

/-- R91, R100: every well-formed instruction is read back from its own host word, with every operand at every value its
encoding admits. -/
def Obligations.DecodeOfEncode : Prop := ∀ i : Instr, i.wf = true → decode (encode i) = .ok i

/-- R91, R100, R103: what the decoder accepts is the host word of exactly one instruction, and it is well-formed: a write
word and a procedure word are the instruction's own word; a read word is, once its DATA field, which R91 ignores, is
cleared. That a read of a narrow register ignores all of DATA is the model's reading (log entry 6), and so is which operand
lists have the wrong shape (log entry 17). -/
def Obligations.AcceptedWordIsTheInstructionsOwn : Prop :=
  (∀ (d : BitVec 48) (i : Instr), decode (.hacc d) = .ok i →
    i.wf = true ∧ encode i = .hacc (if d.getLsbD 40 then d else d &&& 0xFFFF00000000#48)) ∧
  (∀ (id : Byte) (ops : List Operand) (i : Instr), decode (.proc id ops) = .ok i →
    i.wf = true ∧ encode i = .proc id ops)

/-- R91, R94, R100: words written out from the encodings decode to the instructions they stand for, one at least of each
family. -/
def Obligations.SpecWordsDecode : Prop :=
  decode (.hacc 0x000000000000#48) = .ok .rdCtrla ∧
  decode (.hacc 0x001A00000000#48) = .ok .rdStatus ∧
  decode (.hacc 0x002800000000#48) = .ok .rdData ∧
  decode (.hacc 0x010000000001#48) = .ok (.wrCtrlaSwrst 0x1#32) ∧
  decode (.hacc 0x010000000014#48) = .ok (.wrCtrlaConfig 0x14#32) ∧
  decode (.hacc 0x010400040000#48) = .ok (.wrCtrlbNoop 0x40000#32) ∧
  decode (.hacc 0x010400010000#48) = .ok (.wrCtrlbRepeatStart 0x10000#32) ∧
  decode (.hacc 0x010400060000#48) = .ok (.wrCtrlbReadContinue 0x60000#32) ∧
  decode (.hacc 0x010400070000#48) = .ok (.wrCtrlbStop 0x70000#32) ∧
  decode (.hacc 0x011800000003#48) = .ok (.wrIntflag 0x3#8) ∧
  decode (.hacc 0x011A00000010#48) = .ok (.wrStatus 0x10#16) ∧
  decode (.hacc 0x011C00000000#48) = .ok (.wrSyncbusy 0x0#32) ∧
  decode (.hacc 0x012400000032#48) = .ok (.wrAddr 0x32#32) ∧
  decode (.hacc 0x01280000000F#48) = .ok (.wrData 0x0F#8) ∧
  decode (.proc 0x07#8 []) = .ok .bccInit ∧
  decode (.proc 0x08#8 []) = .ok .extClockAttach ∧
  decode (.proc 0x13#8 [.num 0x19, .bool false]) = .ok (.engSetAddrSync 0x19 false) ∧
  decode (.proc 0x23#8 [.nums [0x18, 0x19]]) = .ok (.sockProbe [0x18, 0x19]) ∧
  decode (.proc 0x38#8 [.ref (.name "accd")]) = .ok (.rfaReadField (.name "accd"))

/-- R91, R102: which words the decoder refuses, and under which name: Z ≠ 0 and DATA bits above the register's width are
ILL_FORMED, an offset that is no register is UNMAPPED, a procedure id outside the table is ILL_FORMED, and every other
register access names an operation (a read with any DATA, the model's reading, log entry 6). A program entry whose word is
refused ends the step in the refusal of that name. -/
def Obligations.DecoderRefusesByName : Prop :=
  (∀ d : BitVec 48, d.extractLsb' 41 7 ≠ 0#7 → decode (.hacc d) = .error .illFormed) ∧
  (∀ d : BitVec 48, d.extractLsb' 41 7 = 0#7 →
    d.extractLsb' 32 8 ∉ [0x00#8, 0x04#8, 0x18#8, 0x1A#8, 0x1C#8, 0x24#8, 0x28#8] →
    decode (.hacc d) = .error .unmapped) ∧
  (∀ d : BitVec 48, d.extractLsb' 41 7 = 0#7 → d.getLsbD 40 = true → d.extractLsb' 32 8 ∈ [0x18#8, 0x28#8] →
    d.extractLsb' 8 24 ≠ 0#24 → decode (.hacc d) = .error .illFormed) ∧
  (∀ d : BitVec 48, d.extractLsb' 41 7 = 0#7 → d.getLsbD 40 = true → d.extractLsb' 32 8 = 0x1A#8 →
    d.extractLsb' 16 16 ≠ 0#16 → decode (.hacc d) = .error .illFormed) ∧
  (∀ d : BitVec 48, d.extractLsb' 41 7 = 0#7 →
    d.extractLsb' 32 8 ∈ [0x00#8, 0x04#8, 0x18#8, 0x1A#8, 0x1C#8, 0x24#8, 0x28#8] →
    (d.getLsbD 40 = true → d.extractLsb' 32 8 ∈ [0x18#8, 0x28#8] → d.extractLsb' 8 24 = 0#24) →
    (d.getLsbD 40 = true → d.extractLsb' 32 8 = 0x1A#8 → d.extractLsb' 16 16 = 0#16) →
    ∃ i, decode (.hacc d) = .ok i) ∧
  (∀ (id : Byte) (ops : List Operand),
    ¬((0x01#8 ≤ id ∧ id ≤ 0x0B#8) ∨ (0x10#8 ≤ id ∧ id ≤ 0x19#8) ∨ (0x20#8 ≤ id ∧ id ≤ 0x23#8) ∨
      (0x30#8 ≤ id ∧ id ≤ 0x39#8)) →
    decode (.proc id ops) = .error .illFormed) ∧
  (∀ (s : State) (w : HostWord) (rest : List Item),
    s.turn = .host → s.running = none → s.prog = .op w :: rest →
    (decode w = .error .illFormed → step s = .refused (.illFormed (.op w))) ∧
    (decode w = .error .unmapped → step s = .refused (.unmapped (.op w))))

/-- R92, R220, R228: `eng.make_header` answers the byte with the address in bits 7:1 and the direction in bit 0 for every
address below 128 and faults above, `eng.parse_header` takes every byte apart, and parsing what was made gives the pair
back. Neither touches a register. -/
def Obligations.HeaderRoundTrip : Prop :=
  (∀ (s : State) (a : Nat) (r : Bool), a < 128 → ∃ h : Byte,
    h.toNat = 2 * a + (if r then 1 else 0) ∧
    exec (.engMakeHeader a r) s = .next { s with results := s.results ++ [.header h] } ∧
    exec (.engParseHeader h) s = .next { s with results := s.results ++ [.parsed (BitVec.ofNat 7 a) r] }) ∧
  (∀ (s : State) (a : Nat) (r : Bool), 128 ≤ a →
    exec (.engMakeHeader a r) s = .fault (.badAddress (.instr (.engMakeHeader a r)))) ∧
  (∀ (s : State) (h : Byte),
    exec (.engParseHeader h) s =
      .next { s with results := s.results ++ [.parsed (h.extractLsb' 1 7) (h.getLsbD 0)] })

-- the step (spec/00_scope.md R8, spec/41_controller_steps.md R177)

/-- On the host's turn, with no procedure in progress, a program entry whose word decodes to `i` makes the step run `i` on
the machine with that entry taken off, and then the model's own step count and next move advance; and
`State.withFetchWord` places a word so. The program's place and the choice of the next move are the model's (log entries 3
and 1). -/
def Obligations.StepRunsTheDecodedInstruction : Prop :=
  (∀ (s : State) (w : HostWord) (rest : List Item) (i : Instr),
    s.turn = .host → s.running = none → s.prog = .op w :: rest → decode w = .ok i →
    step s = andThen (exec i { s with prog := rest })
      (fun t => .next { t with turn := Config.nextMove t.tick, tick := t.tick + 1 })) ∧
  (∀ (s : State) (nbits w : Nat) (i : Instr), decodeTableWord nbits w = some i →
    step (s.withFetchWord nbits w) = andThen (exec i { s with turn := .host, running := none })
      (fun t => .next { t with turn := Config.nextMove t.tick, tick := t.tick + 1 }))

/-- R75: an access in the 64-byte window that is not at one of the seven offsets at its declared width is refused
UNMAPPED, read or write. Where a written value does not fit the register at the offset either, that the name is UNMAPPED and
not ILL_FORMED is the model's choice (log entry 23). -/
def Obligations.UnlistedOrMisSizedAccessIsUnmapped : Prop :=
  ∀ (s : State) (w : Bool) (addr width : Nat) (v : Word) (rest : List Item),
    s.turn = .host → s.running = none → s.prog = .act (.mmio w addr width v) :: rest →
    s.cfg.base ≤ addr → addr < s.cfg.base + 0x40 →
    (addr - s.cfg.base, width) ∉
      [(0x00, 32), (0x04, 32), (0x18, 8), (0x1A, 16), (0x1C, 32), (0x24, 32), (0x28, 8)] →
    step s = .refused (.unmapped (.act (.mmio w addr width v)))

/-- R8, R31: a host step on a polling loop whose condition does not hold reads the register and changes nothing: the
host stays on the same statement. -/
def Obligations.PollingKeepsItsPlace : Prop :=
  ∀ (s : State) (o : Origin) (r : Reg) (mask : Word) (set : Bool) (rest : List Stmt),
    s.turn = .host → s.running = some { origin := o, todo := .await r mask set :: rest } →
    (rdReg r s.ctrl &&& mask ≠ 0#32 ↔ set = false) →
    step s = .next (ticked 1 s)

-- the state and what every step keeps (spec/10_state.md, spec/70_reset_and_hazards.md)

/-- R55, R330: power-on: every register reads 0, the hidden state, the inputs, the trace and the host side are as the
rules list them, and no byte of host memory is written. -/
def Obligations.ResetLeaves : Prop :=
  (∀ r : Reg, rdReg r State.reset.ctrl = 0#32) ∧
  State.reset.ctrl.busstate = .unknown ∧ State.reset.ctrl.en = false ∧ State.reset.ctrl.pend = none ∧
  State.reset.ctrl.busop = none ∧ State.reset.ctrl.ackpend = false ∧ State.reset.ctrl.dir = false ∧
  State.reset.clk = false ∧ State.reset.pins = false ∧ State.reset.trace = [] ∧
  State.reset.sockAddr = State.reset.cfg.defaultAddr ∧ State.reset.status = none ∧
  (∀ a : Nat, memRead State.reset.mem a = none) ∧ State.reset.running = none

/-- The machine's invariant (Safety.Inv) holds at power-on. -/
def Obligations.InvariantHoldsAtReset : Prop := Inv State.reset

/-- R30, R32, R33, R34, R41, R168: the invariant of the controller and of host memory holds after every step of any agent
from a state in which it holds. -/
def Obligations.InvariantKeptByEveryStep : Prop :=
  ∀ s t : State, Inv s → step s = .next t → Inv t

/-- R52: no step of any agent changes the parameters: the register map, its total size and its field order never change. -/
def Obligations.ParametersNeverChange : Prop := ∀ s t : State, step s = .next t → t.cfg = s.cfg

/-- R43, R331: the trace is append-only: no step takes an event away, a software reset included; and no host step adds
one. -/
def Obligations.TraceOnlyGrows : Prop :=
  ∀ s t : State, step s = .next t →
    (∃ es, t.trace = s.trace ++ es) ∧ (s.turn = .host → t.trace = s.trace)

/-- R76, R331: a step of the controller or the bus environment never stops, and leaves host memory, the host's
position and program, its results, `status`, `sock_addr`, `clk` and the pins alone. -/
def Obligations.AgentStepsLeaveTheHostAlone : Prop :=
  ∀ s : State, s.turn ≠ .host →
    ∃ c e tr, step s = .next (ticked 1 { s with ctrl := c, env := e, trace := tr })

/-- R170, R160, R161, R162, R164, R172: a step of the controller or the environment that its rule does not enable changes
nothing. In particular without a clock, or while SYNCBUSY.SWRST = 1 (the SWRST step apart), none does. -/
def Obligations.StepsThatAreNotEnabledChangeNothing : Prop :=
  ∀ s : State,
    (s.turn = .swrstSync → ¬(s.ctrl.syncSwrst = true ∧ s.clk = true) → step s = .next (ticked 1 s)) ∧
    (s.turn = .enableSync → ¬(s.ctrl.syncEnable = true ∧ s.ctrl.syncSwrst = false ∧ s.clk = true) →
      step s = .next (ticked 1 s)) ∧
    (s.turn = .sysopSync →
      ¬(s.ctrl.sysop = true ∧ s.ctrl.pend ≠ none ∧ s.ctrl.en = true ∧ s.ctrl.syncSwrst = false ∧ s.clk = true) →
      step s = .next (ticked 1 s)) ∧
    (s.turn = .bus →
      ¬(s.ctrl.busop ≠ none ∧ ((∃ h, s.ctrl.busop = some (.addr h)) → s.ctrl.busstate = .idle ∨ s.ctrl.busstate = .owner) ∧
        s.ctrl.en = true ∧ s.ctrl.syncSwrst = false ∧ s.clk = true ∧ stalled s = false) →
      step s = .next (ticked 1 s)) ∧
    (s.turn = .busIdle →
      ¬(s.ctrl.busstate = .unknown ∧ s.ctrl.en = true ∧ s.ctrl.syncSwrst = false ∧ s.clk = true ∧ s.pins = true) →
      step s = .next (ticked 1 s))

/-- R30, R160, R161: the effective enable changes only at the ENABLE synchronisation step, to CTRLA.ENABLE, and at the
SWRST step, to 0. -/
def Obligations.EnableTakesEffectOnlyAtItsSynchronisation : Prop :=
  ∀ s t : State, step s = .next t → t.ctrl.en ≠ s.ctrl.en →
    (s.turn = .enableSync ∧ t.ctrl.en = s.ctrl.enable) ∨ (s.turn = .swrstSync ∧ t.ctrl.en = false)

/-- R46, R250: `sock.connect` binds the socket to an address of at most 127, and does nothing else, and faults above;
`sock_addr` is written by it alone: a step changes it only where the host runs `sock.connect`, or `sock.probe`, which
calls it for each candidate: the host's next access (once the pure statements before it are taken, Machine.settle) is then
that candidate's. It starts at `P_DEFAULT_ADDR`. -/
def Obligations.OnlyConnectBindsTheSocket : Prop :=
  State.reset.sockAddr = State.reset.cfg.defaultAddr ∧
  (∀ (s : State) (a : Nat), a ≤ 127 → exec (.sockConnect a) s = .next { s with sockAddr := BitVec.ofNat 7 a }) ∧
  (∀ (s : State) (a : Nat), 127 < a → exec (.sockConnect a) s = .fault (.badAddress (.instr (.sockConnect a)))) ∧
  ∀ s t : State, step s = .next t → t.sockAddr ≠ s.sockAddr →
    s.turn = .host ∧
      ((∃ r a more rest, s.running = some r ∧
          (settle r.todo s).running = some { r with todo := .probeTry a more :: rest }) ∨
        (s.running = none ∧ ∃ w rest i, s.prog = .op w :: rest ∧ decode w = .ok i ∧
          ((∃ a, i = .sockConnect a) ∨ ∃ cs, i = .sockProbe cs)))

/-- R29: a reserved bit reads 0 and ignores writes (two written values that agree on the fields do the same), and while
`en` = 1 a write of CTRLA leaves MODE as it is and a write of CTRLB, with a command or without, SMEN; the rest of the same
write takes effect. -/
def Obligations.ReservedBitsAndEnableProtection : Prop :=
  (∀ c : Ctrl, rdReg .ctrla c &&& ~~~0x1F#32 = 0#32 ∧ rdReg .ctrlb c &&& ~~~0x70100#32 = 0#32 ∧
    rdReg .intflag c &&& ~~~0x3#32 = 0#32 ∧ rdReg .status c &&& ~~~0x35#32 = 0#32 ∧
    rdReg .syncbusy c &&& ~~~0x7#32 = 0#32 ∧ rdReg .addr c &&& ~~~0xFF#32 = 0#32) ∧
  (∀ (s t : State) (v w : Word), v &&& 0x1F#32 = w &&& 0x1F#32 →
    wrReg .ctrla v s = .next t → wrReg .ctrla w s = .next t) ∧
  (∀ (s t : State) (v w : Word), v &&& 0x70100#32 = w &&& 0x70100#32 →
    wrReg .ctrlb v s = .next t → wrReg .ctrlb w s = .next t) ∧
  (∀ (s t : State) (v w : Byte), v &&& 0x3#8 = w &&& 0x3#8 →
    exec (.wrIntflag v) s = .next t → exec (.wrIntflag w) s = .next t) ∧
  (∀ (s t : State) (v w : BitVec 16), v &&& 0x35#16 = w &&& 0x35#16 →
    exec (.wrStatus v) s = .next t → exec (.wrStatus w) s = .next t) ∧
  (∀ (s t : State) (v w : Word), v &&& 0xFF#32 = w &&& 0xFF#32 →
    exec (.wrAddr v) s = .next t → exec (.wrAddr w) s = .next t) ∧
  (∀ (s t : State) (v : Word), s.ctrl.en = true →
    (wrReg .ctrla v s = .next t → t.ctrl.mode = s.ctrl.mode) ∧ (wrReg .ctrlb v s = .next t → t.ctrl.smen = s.ctrl.smen)) ∧
  (∀ (s : State) (v : Word), NoSync s.ctrl → s.ctrl.en = true → ∃ t, exec (.wrCtrlaConfig v) s = .next t ∧
    t.ctrl.mode = s.ctrl.mode ∧ t.ctrl.enable = v.getLsbD 1) ∧
  (∀ (s : State) (v : Word), NoSync s.ctrl → s.ctrl.sysop = false → s.ctrl.busop = none → s.ctrl.en = true →
    ∃ t, exec (.wrCtrlbNoop v) s = .next t ∧ t.ctrl.smen = s.ctrl.smen ∧
      t.ctrl.ackact = (if v.getLsbD 18 then .nack else .ack))

/-- R76: host memory gives back the bytes last written, and a write leaves every other byte as it was, at every address; that
it is a space apart from the register window is the model's choice (log entry 20). -/
def Obligations.HostMemoryReadsBackWhatWasWritten : Prop :=
  ∀ (s : State) (a : Nat) (bs : List Byte) (rest : List Item),
    s.running = none → s.prog = .act (.memWrite a bs) :: .act (.memRead a bs.length) :: rest →
    ∃ m, runAs [.host, .host] s =
        .next (ticked 2 { s with prog := rest, mem := m, results := s.results ++ [.bytes bs] }) ∧
      ∀ x, (x < a ∨ a + bs.length ≤ x) → memRead m x = memRead s.mem x

-- host register accesses (spec/40_register_interface.md)

/-- R78, R121 to R127: every register reads as its rule gives it, in any state, and a read changes nothing but what the
host is given. -/
def Obligations.ReadsReturnTheRegisterAndChangeNothing : Prop :=
  ∀ s : State,
    exec .rdCtrla s = .next { s with results := s.results ++
      [.word (((s.ctrl.mode.setWidth 32) <<< 2) ||| (bit s.ctrl.enable <<< 1) ||| bit s.ctrl.syncSwrst)] } ∧
    exec .rdCtrlb s = .next { s with results := s.results ++
      [.word ((bit (s.ctrl.ackact == .nack) <<< 18) ||| (bit s.ctrl.smen <<< 8))] } ∧
    exec .rdIntflag s = .next { s with results := s.results ++ [.word ((bit s.ctrl.sb <<< 1) ||| bit s.ctrl.mb)] } ∧
    exec .rdStatus s = .next { s with results := s.results ++
      [.word ((((match s.ctrl.busstate with | .unknown => 0 | .idle => 1 | .owner => 2 | .busy => 3) : Word) <<< 4) |||
        (bit s.ctrl.rxnack <<< 2) ||| bit s.ctrl.buserr)] } ∧
    exec .rdSyncbusy s = .next { s with results := s.results ++
      [.word ((bit s.ctrl.sysop <<< 2) ||| (bit s.ctrl.syncEnable <<< 1) ||| bit s.ctrl.syncSwrst)] } ∧
    exec .rdAddr s = .next { s with results := s.results ++ [.word (s.ctrl.hdr.setWidth 32)] } ∧
    exec .rdData s = .next { s with results := s.results ++ [.word (s.ctrl.data.setWidth 32)] }

/-- R130, R131: a CTRLA write with SWRST = 1 is admitted in any state and sets SYNCBUSY.SWRST alone; one with SWRST = 0,
with no synchronisation pending, writes MODE while disabled and ENABLE, and a changed ENABLE sets SYNCBUSY.ENABLE. -/
def Obligations.CtrlaWrites : Prop :=
  ∀ (s : State) (v : Word),
    exec (.wrCtrlaSwrst v) s = .next { s with ctrl := { s.ctrl with syncSwrst := true } } ∧
    (NoSync s.ctrl → exec (.wrCtrlaConfig v) s = .next { s with ctrl :=
      { s.ctrl with
        mode := if s.ctrl.en then s.ctrl.mode else v.extractLsb' 2 3
        enable := v.getLsbD 1
        syncEnable := decide (v.getLsbD 1 ≠ s.ctrl.enable) } })

/-- R132 to R135: a CTRLB write with no command writes ACKACT, and SMEN while disabled, and nothing else; each command
write that its guards admit writes ACKACT, clears MB and SB and asks for the command, and nothing else: REPEAT_START while
owning the bus, READ_CONTINUE with a byte pending and no NACK asked for outside smart mode, STOP whether or not the bus is
owned. -/
def Obligations.CtrlbWrites : Prop :=
  ∀ (s : State) (v : Word),
    (NoSync s.ctrl → s.ctrl.sysop = false → s.ctrl.busop = none → exec (.wrCtrlbNoop v) s = .next { s with ctrl :=
      { s.ctrl with
        smen := if s.ctrl.en then s.ctrl.smen else v.getLsbD 8
        ackact := if v.getLsbD 18 then .nack else .ack } }) ∧
    (CanStart s → s.ctrl.busstate = .owner → exec (.wrCtrlbRepeatStart v) s = .next { s with ctrl :=
      { s.ctrl with
        ackact := if v.getLsbD 18 then .nack else .ack
        mb := false, sb := false, pend := some (.cmd .repeatStart), sysop := true } }) ∧
    (CanStart s → s.ctrl.ackpend = true → (s.ctrl.smen = true ∨ v.getLsbD 18 = false) →
      exec (.wrCtrlbReadContinue v) s = .next { s with ctrl :=
        { s.ctrl with
          ackact := if v.getLsbD 18 then .nack else .ack
          mb := false, sb := false, pend := some (.cmd .readContinue), sysop := true } }) ∧
    (CanStart s → exec (.wrCtrlbStop v) s = .next { s with ctrl :=
      { s.ctrl with
        ackact := if v.getLsbD 18 then .nack else .ack
        mb := false, sb := false, pend := some (.cmd .stop), sysop := true } })

/-- R136, R137: an INTFLAG write clears the flags whose bit is written 1 and changes nothing else. A STATUS write clears
BUSERR where bit 0 is 1; with BUSSTATE written 0b01 it asks for force-IDLE as well, which an operation's conditions must
admit; it changes nothing else, MB and SB included. -/
def Obligations.IntflagAndStatusWrites : Prop :=
  (∀ (s : State) (v : Byte), NoSync s.ctrl →
    exec (.wrIntflag v) s = .next { s with ctrl :=
      { s.ctrl with
        mb := if v.getLsbD 0 then false else s.ctrl.mb
        sb := if v.getLsbD 1 then false else s.ctrl.sb } }) ∧
  ∀ (s : State) (v : BitVec 16),
    (v.extractLsb' 4 2 ≠ 0b01#2 → NoSync s.ctrl → exec (.wrStatus v) s = .next { s with ctrl :=
      { s.ctrl with buserr := if v.getLsbD 0 then false else s.ctrl.buserr } }) ∧
    (v.extractLsb' 4 2 = 0b01#2 → CanStart s → exec (.wrStatus v) s = .next { s with ctrl :=
      { s.ctrl with
        buserr := if v.getLsbD 0 then false else s.ctrl.buserr
        pend := some .forceIdle, sysop := true } })

/-- R141, R142: an ADDR write puts the header in ADDR, clears MB, SB and BUSERR and asks for an address phase; a DATA
write in a write phase puts the byte in DATA, clears MB and SB and asks for its transmission; neither changes anything
else. -/
def Obligations.AddrAndDataWrites : Prop :=
  (∀ (s : State) (v : Word), CanStart s → exec (.wrAddr v) s = .next { s with ctrl :=
    { s.ctrl with
      hdr := v.extractLsb' 0 8, mb := false, sb := false, buserr := false
      pend := some (.addr (v.extractLsb' 0 8)), sysop := true } }) ∧
  (∀ (s : State) (v : Byte), CanStart s → s.ctrl.busstate = .owner → s.ctrl.dir = false → s.ctrl.ackpend = false →
    exec (.wrData v) s = .next { s with ctrl :=
      { s.ctrl with data := v, mb := false, sb := false, pend := some (.tx v), sysop := true } })

/-- R140: the SYNCBUSY write is refused RO_WRITE, whatever is written and in any state. -/
def Obligations.SyncbusyWriteIsRefused : Prop :=
  ∀ (s : State) (v : Word), exec (.wrSyncbusy v) s = .refused (.roWrite (.instr (.wrSyncbusy v)))

/-- R120, R303: the faults of the writes, in their order: during a SWRST or ENABLE synchronisation every write but those
of SWRST and SYNCBUSY faults WRITE_DURING_SYNC; then an operation-starting write, or a no-command CTRLB write, faults BUSY
while an operation is pending or in progress; then an operation-starting write faults NOT_ENABLED, NOT_CONTROLLER or
PINS_NOT_ROUTED; and once these admit it, its own check: REPEAT_START while not owner, READ_CONTINUE with no byte pending
and then with a NACK asked for outside smart mode, DATA outside a write phase (R133, R134, R142). -/
def Obligations.FaultsInOrder : Prop :=
  (∀ (s : State) (i : Instr),
    ((s.ctrl.syncSwrst = true ∨ s.ctrl.syncEnable = true) →
      (startsOp i = true ∨ (∃ v, i = .wrCtrlaConfig v) ∨ (∃ v, i = .wrCtrlbNoop v) ∨ (∃ v, i = .wrIntflag v) ∨
        (∃ v, i = .wrStatus v)) →
      exec i s = .fault (.writeDuringSync (.instr i))) ∧
    (NoSync s.ctrl → (s.ctrl.sysop = true ∨ s.ctrl.busop ≠ none) →
      (startsOp i = true ∨ (∃ v, i = .wrCtrlbNoop v)) → exec i s = .fault (.busy (.instr i))) ∧
    (NoSync s.ctrl → s.ctrl.sysop = false → s.ctrl.busop = none → startsOp i = true →
      (s.ctrl.en = false → exec i s = .fault (.notEnabled (.instr i))) ∧
      (s.ctrl.en = true → s.ctrl.mode ≠ 0b101#3 → exec i s = .fault (.notController (.instr i))) ∧
      (s.ctrl.en = true → s.ctrl.mode = 0b101#3 → s.pins = false → exec i s = .fault (.pinsNotRouted (.instr i))))) ∧
  (∀ s : State, CanStart s →
    (∀ v, s.ctrl.busstate ≠ .owner →
      exec (.wrCtrlbRepeatStart v) s = .fault (.notOwner (.instr (.wrCtrlbRepeatStart v)))) ∧
    (∀ v, s.ctrl.ackpend = false →
      exec (.wrCtrlbReadContinue v) s = .fault (.noPendingByte (.instr (.wrCtrlbReadContinue v)))) ∧
    (∀ v, s.ctrl.ackpend = true → s.ctrl.smen = false → v.getLsbD 18 = true →
      exec (.wrCtrlbReadContinue v) s = .fault (.readContinueNack (.instr (.wrCtrlbReadContinue v)))) ∧
    (∀ v, (s.ctrl.busstate ≠ .owner ∨ s.ctrl.dir = true ∨ s.ctrl.ackpend = true) →
      exec (.wrData v) s = .fault (.noWritePhase (.instr (.wrData v)))))

-- controller and bus-environment steps (spec/41_controller_steps.md)

/-- R160, R331: the SWRST step gives every register and hidden controller state its power-on value, appends `Abort` where
the controller owned the bus or had an operation, and changes nothing else. -/
def Obligations.SoftwareResetStep : Prop :=
  ∀ s : State, s.turn = .swrstSync → s.ctrl.syncSwrst = true → s.clk = true →
    step s = .next (ticked 1 { s with
      ctrl := State.reset.ctrl
      trace := s.trace ++
        (if s.ctrl.busstate = .owner ∨ s.ctrl.busop ≠ none ∨ s.ctrl.pend ≠ none then [.abort] else []) })

/-- R161: the ENABLE step takes CTRLA.ENABLE over, leaves BUSSTATE UNKNOWN, and on a disable abandons whatever was
pending, in progress or owned. -/
def Obligations.EnableStep : Prop :=
  ∀ s : State, s.turn = .enableSync → s.ctrl.syncEnable = true → s.ctrl.syncSwrst = false → s.clk = true →
    (¬(s.ctrl.en = true ∧ s.ctrl.enable = false) → step s = .next (ticked 1 { s with ctrl :=
      { s.ctrl with en := s.ctrl.enable, syncEnable := false, busstate := .unknown } })) ∧
    (s.ctrl.en = true → s.ctrl.enable = false → step s = .next (ticked 1 { s with
      ctrl :=
        { s.ctrl with
          en := false, syncEnable := false, busstate := .unknown
          pend := none, busop := none, ackpend := false, sysop := false }
      trace := s.trace ++
        (if s.ctrl.busop ≠ none ∨ s.ctrl.pend ≠ none ∨ s.ctrl.ackpend = true ∨ s.ctrl.busstate = .owner
         then [.abort] else []) }))

/-- R162, R163, R166: the SYSOP step starts the pending operation: SYSOP clears for an address phase and for a byte, stays
1 for a command, and a force-IDLE is done at once; nothing goes on the wire. -/
def Obligations.SysopStep : Prop :=
  ∀ s : State, s.turn = .sysopSync → s.ctrl.sysop = true → s.ctrl.en = true → s.ctrl.syncSwrst = false →
    s.clk = true →
    (∀ h, s.ctrl.pend = some (.addr h) → step s = .next (ticked 1 { s with ctrl :=
      { s.ctrl with busop := some (.addr h), sysop := false, pend := none } })) ∧
    (∀ b, s.ctrl.pend = some (.tx b) → step s = .next (ticked 1 { s with ctrl :=
      { s.ctrl with busop := some (.tx b), sysop := false, pend := none } })) ∧
    (∀ c, s.ctrl.pend = some (.cmd c) → step s = .next (ticked 1 { s with ctrl :=
      { s.ctrl with busop := some (.cmd c), sysop := true, pend := none } })) ∧
    (s.ctrl.pend = some .forceIdle → step s = .next (ticked 1 { s with ctrl :=
      { s.ctrl with busstate := .idle, ackpend := false, sysop := false, pend := none } }))

/-- R164, R171, R173: the address phase: the pending acknowledge, a START or, owning the bus, a repeated START, the
header, and what the environment's answer leads to (Safety.headerOut); no operation is in progress after it. -/
def Obligations.AddressPhase : Prop :=
  ∀ (s : State) (h : Byte), s.turn = .bus → s.ctrl.busop = some (.addr h) →
    (s.ctrl.busstate = .idle ∨ s.ctrl.busstate = .owner) → s.ctrl.en = true → s.clk = true →
    s.ctrl.syncSwrst = false → stalled s = false →
    let u := headerOut h { s with
      ctrl := { s.ctrl with ackpend := false }, trace := s.trace ++ otherAck s.ctrl ++ [startEvent s.ctrl] }
    step s = .next (ticked 1 { u with ctrl := { u.ctrl with busop := none } })

/-- R165, R173: a byte's transmission: MB is set and RXNACK holds the answer, ACK or NACK, BUSSTATE and `dir` staying as
they are; a bus error runs `bus_error(MB)`. -/
def Obligations.ByteTransmission : Prop :=
  ∀ (s : State) (b : Byte), s.turn = .bus → s.ctrl.busop = some (.tx b) → s.ctrl.en = true → s.clk = true →
    s.ctrl.syncSwrst = false → stalled s = false →
    ∃ a e, drawData b s = (a, { s with env := e }) ∧
      step s = .next (ticked 1 (match a with
        | .ack => { s with
            env := e, trace := s.trace ++ [.tx b .ack]
            ctrl := { s.ctrl with rxnack := false, mb := true, busop := none } }
        | .nack => { s with
            env := e, trace := s.trace ++ [.tx b .nack]
            ctrl := { s.ctrl with rxnack := true, mb := true, busop := none } }
        | .busErr => { s with
            env := e, trace := s.trace ++ [.busErr]
            ctrl := { s.ctrl with
              buserr := true, busstate := .unknown, ackpend := false, mb := true, busop := none, sysop := false } }))

/-- R167, R168, R169, R171, R173: the commands on the wire, each after the pending acknowledge, each ending with SYSOP
clear and no operation in progress. READ_CONTINUE takes the next byte (Safety.byteIn). REPEAT_START sends a repeated START
and the header last written to ADDR, and what its answer leads to (Safety.headerOut). STOP sends a STOP, leaving the bus
IDLE, while the controller owns it, and nothing otherwise; it asks the environment nothing. -/
def Obligations.CommandSteps : Prop :=
  ∀ s : State, s.turn = .bus → s.ctrl.en = true → s.clk = true → s.ctrl.syncSwrst = false → stalled s = false →
    (s.ctrl.busop = some (.cmd .readContinue) →
      let u := byteIn { s with ctrl := { s.ctrl with ackpend := false }, trace := s.trace ++ continueAck s.ctrl }
      step s = .next (ticked 1 { u with ctrl := { u.ctrl with busop := none, sysop := false } })) ∧
    (s.ctrl.busop = some (.cmd .repeatStart) →
      let u := headerOut s.ctrl.hdr { s with
        ctrl := { s.ctrl with ackpend := false }, trace := s.trace ++ otherAck s.ctrl ++ [.rstart] }
      step s = .next (ticked 1 { u with ctrl := { u.ctrl with busop := none, sysop := false } })) ∧
    (s.ctrl.busop = some (.cmd .stop) →
      step s = .next (ticked 1 { s with
        ctrl :=
          { s.ctrl with
            ackpend := false, busop := none, sysop := false
            busstate := if s.ctrl.busstate = .owner then .idle else s.ctrl.busstate }
        trace := s.trace ++ otherAck s.ctrl ++ (if s.ctrl.busstate = .owner then [.stop] else []) }))

/-- R172: the bus-idle observation makes an UNKNOWN bus IDLE and puts nothing on the wire. -/
def Obligations.BusIdleObservation : Prop :=
  ∀ s : State, s.turn = .busIdle → s.ctrl.en = true → s.ctrl.busstate = .unknown → s.clk = true → s.pins = true →
    s.ctrl.syncSwrst = false →
    step s = .next (ticked 1 { s with ctrl := { s.ctrl with busstate := .idle } })

/-- R176: the simulated target's answers: a header of its own address is acknowledged and starts the frame's count; in a
write frame the first byte is the register address, the second is stored there unless its running number is rejected,
every further one is refused; a byte while not addressed is refused; in a read frame it supplies its registers in order.
It never stalls and never answers a bus error. -/
def Obligations.SimulatedTargetAnswers : Prop :=
  ∀ (s : State) (t : SimTarget), s.env = .sim t →
    stalled s = false ∧
    (∀ b : Byte, (drawHeader b s).1 ≠ .busErr ∧ (drawData b s).1 ≠ .busErr ∧ (drawByte s).1 ≠ .busErr) ∧
    (∀ h : Byte, drawHeader h s =
      (if h.extractLsb' 1 7 = t.addr then .ack else .nack,
       { s with env := .sim { t with
          n := 0, addressed := decide (h.extractLsb' 1 7 = t.addr), reading := h.getLsbD 0 } })) ∧
    (∀ b : Byte, t.addressed = false → drawData b s = (.nack, s)) ∧
    (∀ b : Byte, t.addressed = true → t.reading = false → drawData b s =
      (if t.n = 0 then (.ack, { s with env := .sim { t with ptr := b, n := 1 } })
       else if t.n = 1 ∧ t.j ∈ t.rej then (.nack, { s with env := .sim { t with j := t.j + 1, n := 2 } })
       else if t.n = 1 then
         (.ack, { s with env := .sim { t with
           regs := if b = 0x00#8 then memErase t.regs t.ptr.toNat else memPut t.regs t.ptr.toNat b
           ptr := t.ptr + 1#8, j := t.j + 1, n := 2 } })
       else (.nack, s))) ∧
    (t.addressed = true → t.reading = true → drawByte s =
      (.byte ((memRead t.regs t.ptr.toNat).getD 0x00#8), { s with env := .sim { t with ptr := t.ptr + 1#8 } }))

-- the controller's common procedures and the services (spec/42_controller_common.md)

/-- R200: with a clock, `bcc.reset` from any state ends with every register and hidden controller state at its power-on
value, `Abort` on the trace where a transfer was abandoned, and everything else unchanged. -/
def Obligations.BccResetCompletes : Prop :=
  ∀ s : State, s.clk = true →
    Completes .bccReset [.swrstSync, .host] s { s with
      ctrl := State.reset.ctrl
      trace := s.trace ++
        (if s.ctrl.busstate = .owner ∨ s.ctrl.busop ≠ none ∨ s.ctrl.pend ≠ none then [.abort] else [])
      running := none }

/-- R201, R202: `bcc.enable` ends enabled with the bus forced IDLE, whether or not it was enabled before; `bcc.disable`
ends disabled with BUSSTATE UNKNOWN and any operation abandoned, and changes nothing where it was disabled already. -/
def Obligations.BccEnableAndDisableComplete : Prop :=
  ∀ s : State, NoSync s.ctrl → s.clk = true → s.ctrl.en = s.ctrl.enable →
    (s.ctrl.mode = 0b101#3 → s.sdaFn = .i2c → s.sclFn = .i2c → s.ctrl.sysop = false → s.ctrl.busop = none →
      Completes .bccEnable [.host, .enableSync, .host, .host, .sysopSync, .host] s { s with
        ctrl :=
          { s.ctrl with enable := true, en := true, busstate := .idle, ackpend := false, pend := none }
        running := none }) ∧
    (s.ctrl.en = true →
      Completes .bccDisable [.host, .enableSync, .host] s { s with
        ctrl :=
          { s.ctrl with
            enable := false, en := false, busstate := .unknown
            pend := none, busop := none, ackpend := false, sysop := false }
        trace := s.trace ++
          (if s.ctrl.busop ≠ none ∨ s.ctrl.pend ≠ none ∨ s.ctrl.ackpend = true ∨ s.ctrl.busstate = .owner
           then [.abort] else [])
        running := none }) ∧
    (s.ctrl.en = false → Completes .bccDisable [.host, .enableSync, .host] s { s with running := none })

/-- R99, R203, R221: `bcc.wait_sync` and `eng.wait_flag` poll once in any state: where no SYNCBUSY bit of the event is set,
or some flag of the mask is, they end with that one host step; else the host is left polling; nothing else changes. That
a mask with bits beside MB and SB polls too, by MB and SB alone, is the model's reading (log entry 22). -/
def Obligations.WaitsPollTheirBits : Prop :=
  (∀ (s : State) (e : Event),
    let busy := match e with
      | .swrst => s.ctrl.syncSwrst
      | .enable => s.ctrl.syncEnable
      | .sysop => s.ctrl.sysop
      | .any => s.ctrl.syncSwrst || s.ctrl.syncEnable || s.ctrl.sysop
    let mask := match e with
      | .swrst => 0x00000001#32
      | .enable => 0x00000002#32
      | .sysop => 0x00000004#32
      | .any => 0xFFFFFFFF#32
    exec (.bccWaitSync e) s = .next { s with
      running := if busy = false then none else
        some { origin := .instr (.bccWaitSync e), todo := [.await .syncbusy mask false] } }) ∧
  (∀ (s : State) (m : Byte),
    exec (.engWaitFlag m) s = .next { s with
      running := if (m.getLsbD 0 && s.ctrl.mb || m.getLsbD 1 && s.ctrl.sb) = true then none else
        some { origin := .instr (.engWaitFlag m), todo := [.await .intflag (m.setWidth 32) true] } })

/-- R204, R205: `bcc.set_mode` writes MODE while disabled, changes nothing while enabled; `bcc.get_mode` answers what MODE
holds. -/
def Obligations.ModeProceduresComplete : Prop :=
  (∀ (s : State) (m : Role), NoSync s.ctrl →
    Completes (.bccSetMode m) [.host] s { s with
      ctrl := { s.ctrl with
        mode := if s.ctrl.en then s.ctrl.mode else (match m with | .controller => 0b101#3 | .target => 0b100#3) }
      running := none }) ∧
  (∀ s : State, exec .bccGetMode s = .next { s with
    running := none
    results := s.results ++ [.mode (if s.ctrl.mode = 0b101#3 then .controller
      else if s.ctrl.mode = 0b100#3 then .target else .reserved s.ctrl.mode)] })

/-- R206, R335: `bcc.init` completes from any state, power-on among them, and leaves the controller enabled in the
controller role with the engine's smart policy, the bus IDLE, the clock attached and the pins routed; the registers
then read as R335 gives them. -/
def Obligations.BccInitCompletesFromAnyState : Prop :=
  ∀ s : State,
    let c : Ctrl :=
      { State.reset.ctrl with enable := true, en := true, mode := 0b101#3, smen := s.cfg.smart, busstate := .idle }
    Completes .bccInit
      [.host, .host, .host, .host, .swrstSync, .host, .host, .host, .host, .host, .host, .host, .enableSync, .host, .host,
        .sysopSync, .host] s { s with
      ctrl := c, clk := true, sdaFn := .i2c, sclFn := .i2c, draws := s.draws + 1
      trace := s.trace ++
        (if s.ctrl.busstate = .owner ∨ s.ctrl.busop ≠ none ∨ s.ctrl.pend ≠ none then [.abort] else [])
      running := none } ∧
    rdReg .ctrla c = 0x00000016#32 ∧ rdReg .ctrlb c = (if s.cfg.smart then 0x100#32 else 0x0#32) ∧
    rdReg .intflag c = 0x0#32 ∧ rdReg .status c = 0x10#32 ∧ rdReg .syncbusy c = 0x0#32 ∧ rdReg .addr c = 0x0#32 ∧
    rdReg .data c = 0x0#32

/-- R207 to R210, R36: each external service changes only the input it names: `clk`, the pin's function (`pins` is 1 once
both are I2C_FUNCTION); the frequency is a free value, a fresh one at each call. -/
def Obligations.ExternalServices : Prop :=
  ∀ s : State,
    exec .extClockAttach s = .next { s with clk := true } ∧
    exec .extClockDetach s = .next { s with clk := false } ∧
    (∀ k, exec (.extPinSetFunction .sda k) s = .next { s with sdaFn := k }) ∧
    (∀ k, exec (.extPinSetFunction .scl k) s = .next { s with sclFn := k }) ∧
    (s.pins = true ↔ s.sdaFn = .i2c ∧ s.sclFn = .i2c) ∧
    (∃ hz, exec .extGetFrequency s = .next { s with results := s.results ++ [.freq hz], draws := s.draws + 1 })

-- the engine (spec/43_primary_engine.md)

/-- R222: `eng.set_addr_sync` on a free bus with the simulated target: the address phase on the wire, the status SUCCESS or
ADDR_NACK as the header is answered, and, of an acknowledged read, the first byte in DATA. A refused read header is
covered where `P_READ_NACK_FLAG` = SB; with MB the host waits for ever. -/
def Obligations.SetAddrSyncCompletes : Prop :=
  ∀ (s : State) (t : SimTarget) (a : Nat) (r : Bool), BusFree s → s.env = .sim t → a < 128 →
    let hit := decide (a = t.addr.toNat)
    let h : Byte := BitVec.ofNat 7 a ++ BitVec.ofBool r
    let byte := (memRead t.regs t.ptr.toNat).getD 0x00#8
    ((r && !hit) = true → s.cfg.readNackFlag = .sb) →
    Completes (.engSetAddrSync a r) [.sysopSync, .host, .bus, .host, .host] s { s with
      ctrl :=
        { s.ctrl with
          hdr := h, buserr := false, mb := !r, sb := r, rxnack := !hit, busstate := .owner, dir := r
          ackpend := r && hit, data := if r && hit then byte else s.ctrl.data, pend := none }
      trace := s.trace ++ otherAck s.ctrl ++ [startEvent s.ctrl, .hdr h (if hit then .ack else .nack)] ++
        (if r && hit then [.rx byte] else [])
      env := .sim { t with
        n := 0, addressed := hit, reading := r, ptr := if r && hit then t.ptr + 1#8 else t.ptr }
      status := some (if hit then .success else .addrNack)
      results := s.results ++ [.status (if hit then .success else .addrNack)]
      running := none }

/-- R223: `eng.send_data_sync` in a write phase, with any environment that does not stall: the byte goes on the wire and
the status is SUCCESS, DATA_NACK or, on a bus error, OTHER. -/
def Obligations.SendDataSyncCompletes : Prop :=
  ∀ (s : State) (b : Byte), WritePhase s → (∀ n, stalled { s with tick := n } = false) → s.ctrl.buserr = false →
    ∃ a e, drawData b s = (a, { s with env := e }) ∧
      let st : TStatus := match a with | .ack => .success | .nack => .dataNack | .busErr => .other
      Completes (.engSendDataSync b) [.sysopSync, .bus, .host, .host] s { s with
        ctrl := match a with
          | .ack => { s.ctrl with data := b, mb := true, sb := false, rxnack := false, pend := none }
          | .nack => { s.ctrl with data := b, mb := true, sb := false, rxnack := true, pend := none }
          | .busErr =>
            { s.ctrl with data := b, mb := true, sb := false, buserr := true, busstate := .unknown, pend := none }
        trace := s.trace ++ [match a with | .ack => .tx b .ack | .nack => .tx b .nack | .busErr => .busErr]
        env := e, status := some st, results := s.results ++ [.status st], running := none }

/-- R224: `eng.recv_data_sync` with read-ready set takes the byte in DATA, with no command and no acknowledge, and answers
SUCCESS; after a bus error it answers OTHER and stores nothing. That the byte goes to host memory at every address, one in
the register window included, is the model's choice (log entry 20). -/
def Obligations.RecvDataSyncCompletes : Prop :=
  ∀ (s : State) (out : Nat), s.ctrl.sb = true →
    (s.ctrl.buserr = false → Completes (.engRecvDataSync out) [.host, .host] s { s with
      mem := memPut s.mem out s.ctrl.data, status := some .success, results := s.results ++ [.status .success]
      running := none }) ∧
    (s.ctrl.buserr = true → Completes (.engRecvDataSync out) [.host] s { s with
      status := some .other, results := s.results ++ [.status .other], running := none })

/-- R225: `eng.recv_burst` of any length in a read phase of the simulated target, smart or not: the pending byte and the
target's next registers go to the buffer in order, each byte but the last acknowledged ACK, the last left for the next
command (NACK in ACKACT outside smart mode), status SUCCESS and the count `len`; a burst of no bytes only writes the
status. That the buffer is host memory at every address, the register window included, is the model's choice (log entry
20). -/
def Obligations.RecvBurstCompletes : Prop :=
  (∀ (s : State) (buf : Nat), exec (.engRecvBurst buf 0) s = .next { s with
    status := some .success, results := s.results ++ [.burst .success 0], running := none }) ∧
  (∀ (s : State) (t : SimTarget) (buf n : Nat), ReadPhase s t →
    let bytes := s.ctrl.data :: simBytes t n
    ∃ moves, Completes (.engRecvBurst buf (n + 1)) moves s { s with
      ctrl :=
        { s.ctrl with
          mb := if n = 0 then s.ctrl.mb else false
          data := bytes.getLast (by simp [bytes])
          ackact := if s.cfg.smart then s.ctrl.ackact else .nack }
      mem := memPutBytes s.mem buf bytes
      trace := s.trace ++ (burstTrace bytes).tail
      env := .sim { t with ptr := t.ptr + BitVec.ofNat 8 n }
      status := some .success, results := s.results ++ [.burst .success (n + 1)], running := none })

/-- R226: `eng.send_cmd` returns once its command's wire action is done: NOOP changes nothing; STOP drives the pending
acknowledge and releases an owned bus; READ_CONTINUE acknowledges the pending byte ACK and takes the target's next
register; REPEAT_START sends the last header again (Safety.headerOut). `status` is not written. -/
def Obligations.SendCmdCompletes : Prop :=
  ∀ s : State,
    (NoSync s.ctrl → s.ctrl.sysop = false → s.ctrl.busop = none →
      Completes (.engSendCmd .noop) [.host, .host] s { s with running := none }) ∧
    (∀ t, CanStart s → s.clk = true → s.env = .sim t →
      Completes (.engSendCmd .stop) [.host, .sysopSync, .bus, .host] s { s with
        ctrl :=
          { s.ctrl with
            mb := false, sb := false, pend := none, ackpend := false
            busstate := if s.ctrl.busstate = .owner then .idle else s.ctrl.busstate }
        trace := s.trace ++ otherAck s.ctrl ++ (if s.ctrl.busstate = .owner then [.stop] else [])
        running := none }) ∧
    (∀ t, ReadPhase s t → (s.ctrl.smen = true ∨ s.ctrl.ackact = .ack) →
      let byte := (memRead t.regs t.ptr.toNat).getD 0x00#8
      Completes (.engSendCmd .readContinue) [.host, .sysopSync, .bus, .host] s { s with
        ctrl := { s.ctrl with mb := false, sb := true, data := byte }
        trace := s.trace ++ [.mack .ack, .rx byte]
        env := .sim { t with ptr := t.ptr + 1#8 }
        running := none }) ∧
    (∀ t, CanStart s → s.clk = true → s.env = .sim t → s.ctrl.busstate = .owner →
      let u := headerOut s.ctrl.hdr { s with
        ctrl := { s.ctrl with mb := false, sb := false, pend := none, ackpend := false }
        trace := s.trace ++ otherAck s.ctrl ++ [.rstart] }
      Completes (.engSendCmd .repeatStart) [.host, .sysopSync, .bus, .host] s { u with running := none })

/-- R227, R229: in smart mode `eng.send_ack` and `eng.send_nack` touch nothing; else they set ACKACT to ACK and to NACK,
with no command and SMEN as it was, once no operation is pending or in progress. -/
def Obligations.AckPolicyCompletes : Prop :=
  ∀ s : State,
    (s.cfg.smart = true →
      exec .engSendAck s = .next { s with running := none } ∧ exec .engSendNack s = .next { s with running := none }) ∧
    (s.cfg.smart = false → NoSync s.ctrl → s.ctrl.sysop = false → s.ctrl.busop = none →
      Completes .engSendAck [.host] s { s with ctrl := { s.ctrl with ackact := .ack }, running := none } ∧
      Completes .engSendNack [.host] s { s with ctrl := { s.ctrl with ackact := .nack }, running := none })

/-- R302: where a phase leaves both BUSERR = 1 and RXNACK = 1, its status is OTHER: BUSERR is tested first, by the host
step that reads STATUS. That this step, the last access of its procedure, also writes `status` and returns is the model's
choice (log entry 2). -/
def Obligations.BusErrorComesBeforeNack : Prop :=
  ∀ (s : State) (o : Origin) (nack : TStatus), s.turn = .host →
    s.running = some { origin := o, todo := [.phase nack, .retCount .status 0] } →
    let st : TStatus := if s.ctrl.buserr then .other else if s.ctrl.rxnack then nack else .success
    step s = .next (ticked 1 { s with
      status := some st, results := s.results ++ [.status st], running := none })

-- the socket (spec/44_socket.md)

/-- R251: `sock.send`: too many bytes for a frame are refused before any bus activity; a refused address ends it with 0
and no STOP; the probe (a null buffer, whatever the length) and an empty payload are an address phase and a STOP; a frame
of one byte, the register address, and one of two bytes go out whole, the second byte stored by the simulated target; where
the target refuses that byte, or in a longer frame the third, the call ends there with the bytes before it, DATA_NACK and
no STOP. That the buffer is host memory at every address is the model's choice (log entry 20). -/
def Obligations.SockSendCompletes : Prop :=
  (∀ (s : State) (a len : Nat), s.cfg.maxFrame < len → exec (.sockSend (some a) len) s = .next { s with
    status := some .payloadTooLong, results := s.results ++ [.count 0] }) ∧
  (∀ (s : State) (t : SimTarget), BusFree s → s.env = .sim t →
    let h : Byte := s.sockAddr ++ 0#1
    let opened : Ctrl :=
      { s.ctrl with
        hdr := h, mb := false, sb := false, buserr := false, rxnack := false, busstate := .idle, dir := false
        ackpend := false, pend := none }
    let stored (r b : Byte) : Memory :=
      if b = 0x00#8 then memErase t.regs r.toNat else memPut t.regs r.toNat b
    (∀ data len, s.sockAddr ≠ t.addr → (data = none ∨ len ≤ s.cfg.maxFrame) →
      ∃ moves, Completes (.sockSend data len) moves s { s with
        ctrl := { opened with mb := true, rxnack := true, busstate := .owner }
        trace := s.trace ++ otherAck s.ctrl ++ [startEvent s.ctrl, .hdr h .nack]
        env := .sim { t with n := 0, addressed := false, reading := false }
        status := some .addrNack, results := s.results ++ [.count 0], running := none }) ∧
    (∀ data len, s.sockAddr = t.addr → (data = none ∨ len = 0) →
      ∃ moves, Completes (.sockSend data len) moves s { s with
        ctrl := opened
        trace := s.trace ++ otherAck s.ctrl ++ [startEvent s.ctrl, .hdr h .ack, .stop]
        env := .sim { t with n := 0, addressed := true, reading := false }
        status := some .success, results := s.results ++ [.count 0], running := none }) ∧
    (∀ a (r : Byte), s.sockAddr = t.addr → 1 ≤ s.cfg.maxFrame → Holds s.mem a [r] →
      ∃ moves, Completes (.sockSend (some a) 1) moves s { s with
        ctrl := { opened with data := r }
        trace := s.trace ++ otherAck s.ctrl ++ [startEvent s.ctrl, .hdr h .ack, .tx r .ack, .stop]
        env := .sim { t with n := 1, addressed := true, reading := false, ptr := r }
        status := some .success, results := s.results ++ [.count 1], running := none }) ∧
    (∀ a (r b : Byte), s.sockAddr = t.addr → 2 ≤ s.cfg.maxFrame → Holds s.mem a [r, b] → t.j ∉ t.rej →
      ∃ moves, Completes (.sockSend (some a) 2) moves s { s with
        ctrl := { opened with data := b }
        trace := s.trace ++ otherAck s.ctrl ++ [startEvent s.ctrl] ++ acceptedFrame h r b
        env := .sim { t with
          n := 2, addressed := true, reading := false, ptr := r + 1#8, j := t.j + 1, regs := stored r b }
        status := some .success, results := s.results ++ [.count 2], running := none }) ∧
    (∀ a more (r b : Byte), s.sockAddr = t.addr → 2 + more ≤ s.cfg.maxFrame → Holds s.mem a [r, b] → t.j ∈ t.rej →
      ∃ moves, Completes (.sockSend (some a) (2 + more)) moves s { s with
        ctrl := { opened with data := b, mb := true, rxnack := true, busstate := .owner }
        trace := s.trace ++ otherAck s.ctrl ++ [startEvent s.ctrl] ++ refusedFrame h r b
        env := .sim { t with n := 2, addressed := true, reading := false, ptr := r, j := t.j + 1 }
        status := some .dataNack, results := s.results ++ [.count 1], running := none }) ∧
    (∀ a more (r b c : Byte), s.sockAddr = t.addr → 3 + more ≤ s.cfg.maxFrame → Holds s.mem a [r, b, c] →
      t.j ∉ t.rej →
      ∃ moves, Completes (.sockSend (some a) (3 + more)) moves s { s with
        ctrl := { opened with data := c, mb := true, rxnack := true, busstate := .owner }
        trace := s.trace ++ otherAck s.ctrl ++
          [startEvent s.ctrl, .hdr h .ack, .tx r .ack, .tx b .ack, .tx c .nack]
        env := .sim { t with
          n := 2, addressed := true, reading := false, ptr := r + 1#8, j := t.j + 1, regs := stored r b }
        status := some .dataNack, results := s.results ++ [.count 2], running := none }))

/-- R252: `sock.recv` of any length from the simulated target, smart or not: one address phase for read, one burst with
every byte but the last acknowledged ACK and the last NACK, and a STOP; the bytes in the buffer in order, the count and
SUCCESS. With no length the one byte the address phase fetched gets the STOP's acknowledge. A refused address ends it with
0 and no STOP, where `P_READ_NACK_FLAG` = SB. That the buffer is host memory at every address, the register window included,
is the model's choice (log entry 20). -/
def Obligations.SockRecvCompletes : Prop :=
  ∀ (s : State) (t : SimTarget), OnBus s t →
    let h : Byte := s.sockAddr ++ 1#1
    let closed : Ctrl :=
      { s.ctrl with
        hdr := h, mb := false, sb := false, buserr := false, rxnack := false, busstate := .idle, dir := true
        ackpend := false, pend := none }
    (∀ a n, s.sockAddr = t.addr →
      let bytes := simBytes t (n + 1)
      ∃ moves, Completes (.sockRecv (some a) (n + 1)) moves s { s with
        ctrl :=
          { closed with
            data := bytes.getLast (by simp [bytes, simBytes])
            ackact := if s.cfg.smart then s.ctrl.ackact else .nack }
        mem := memPutBytes s.mem a bytes
        trace := s.trace ++ otherAck s.ctrl ++ [startEvent s.ctrl, .hdr h .ack] ++ burstTrace bytes ++ [.mack .nack, .stop]
        env := .sim { t with n := 0, addressed := true, reading := true, ptr := t.ptr + BitVec.ofNat 8 (n + 1) }
        status := some .success, results := s.results ++ [.count (n + 1)], running := none }) ∧
    (∀ data, s.sockAddr = t.addr →
      let byte := (memRead t.regs t.ptr.toNat).getD 0x00#8
      ∃ moves, Completes (.sockRecv data 0) moves s { s with
        ctrl := { closed with data := byte }
        trace := s.trace ++ otherAck s.ctrl ++
          [startEvent s.ctrl, .hdr h .ack, .rx byte, .mack (if s.ctrl.smen then .nack else s.ctrl.ackact), .stop]
        env := .sim { t with n := 0, addressed := true, reading := true, ptr := t.ptr + 1#8 }
        status := some .success, results := s.results ++ [.count 0], running := none }) ∧
    (∀ data len, s.sockAddr ≠ t.addr → (data = none → len = 0) → s.cfg.readNackFlag = .sb →
      ∃ moves, Completes (.sockRecv data len) moves s { s with
        ctrl := { closed with sb := true, rxnack := true, busstate := .owner }
        trace := s.trace ++ otherAck s.ctrl ++ [startEvent s.ctrl, .hdr h .nack]
        env := .sim { t with n := 0, addressed := false, reading := true }
        status := some .addrNack, results := s.results ++ [.count 0], running := none })

/-- R253: `sock.probe` on the simulated target: the first candidate that is the target's address is found and bound, with
a repeated START after every refused one and a STOP at the end; where none is, the answer is NONE_FOUND with the socket
bound to the last candidate, ADDR_NACK and no STOP; an empty list answers at once. -/
def Obligations.SockProbeCompletes : Prop :=
  (∀ s : State, exec (.sockProbe []) s = .next { s with results := s.results ++ [.noneFound] }) ∧
  (∀ (s : State) (t : SimTarget), BusFree s → s.env = .sim t →
    let hdr (a : Nat) : Byte := BitVec.ofNat 7 a ++ 0#1
    let closed (a : Nat) : Ctrl :=
      { s.ctrl with
        hdr := hdr a, mb := false, sb := false, buserr := false, rxnack := false, busstate := .idle, dir := false
        ackpend := false, pend := none }
    (∀ pre post, (∀ a ∈ pre, a < 128 ∧ a ≠ t.addr.toNat) →
      ∃ moves, Completes (.sockProbe (pre ++ t.addr.toNat :: post)) moves s { s with
        ctrl := closed t.addr.toNat
        trace := s.trace ++ otherAck s.ctrl ++ [startEvent s.ctrl] ++
          pre.flatMap (fun a => [.hdr (hdr a) .nack, .rstart]) ++ [.hdr (hdr t.addr.toNat) .ack, .stop]
        env := .sim { t with n := 0, addressed := true, reading := false }
        sockAddr := t.addr, status := some .success, results := s.results ++ [.found t.addr.toNat]
        running := none }) ∧
    (∀ pre last, (∀ a ∈ pre ++ [last], a < 128 ∧ a ≠ t.addr.toNat) →
      ∃ moves, Completes (.sockProbe (pre ++ [last])) moves s { s with
        ctrl := { closed last with mb := true, rxnack := true, busstate := .owner }
        trace := s.trace ++ otherAck s.ctrl ++ [startEvent s.ctrl] ++
          pre.flatMap (fun a => [.hdr (hdr a) .nack, .rstart]) ++ [.hdr (hdr last) .nack]
        env := .sim { t with n := 0, addressed := false, reading := false }
        sockAddr := BitVec.ofNat 7 last, status := some .addrNack, results := s.results ++ [.noneFound]
        running := none }))

-- the register map and the accessor (spec/45_register_accessor.md)

/-- R271 to R274: the layout procedures answer and touch nothing else: `rfa.layout_check` OK exactly on a well-formed map
(Safety.MapWellFormed; the reading of condition 8 on an enumeration is the model's, log entry 18), else MAP_ILL_FORMED;
`rfa.offset` the sizes of the fields before the one the reference names, by index or by name, `rfa.size` its size,
UNKNOWN_FIELD where it names none (a name that two fields bear names the first: log entry 24);
`rfa.total_size` the sum of all sizes. -/
def Obligations.LayoutProceduresAnswer : Prop :=
  (∀ (s : State) (m : RMap),
    (MapWellFormed m → exec (.rfaLayoutCheck m) s = .next { s with results := s.results ++ [.ok] }) ∧
    (¬MapWellFormed m → exec (.rfaLayoutCheck m) s = .fault (.mapIllFormed (.instr (.rfaLayoutCheck m)))) ∧
    exec (.rfaTotalSize m) s = .next { s with results := s.results ++ [.nat (m.map Field.size).sum] }) ∧
  (∀ (s : State) (r : FieldRef) (n : Nat) (f : Field), s.cfg.map[n]? = some f →
    (r = .idx n ∨ ∃ x, r = .name x ∧ f.name = some x ∧ ∀ g ∈ s.cfg.map.take n, g.name ≠ some x) →
    exec (.rfaOffset r) s =
      .next { s with results := s.results ++ [.nat ((s.cfg.map.take n).map Field.size).sum] } ∧
    exec (.rfaSize r) s = .next { s with results := s.results ++ [.nat f.size] }) ∧
  (∀ (s : State) (r : FieldRef),
    ((∃ n, r = .idx n ∧ s.cfg.map.length ≤ n) ∨ ∃ x, r = .name x ∧ ∀ g ∈ s.cfg.map, g.name ≠ some x) →
    exec (.rfaOffset r) s = .fault (.unknownField (.instr (.rfaOffset r))) ∧
    exec (.rfaSize r) s = .fault (.unknownField (.instr (.rfaSize r))))

/-- R275: for a well-formed map the offsets that `rfa.offset` answers start at 0, each is the one before plus its field's
size, they strictly increase, and a field ends within the total size. -/
def Obligations.LayoutLaws : Prop :=
  ∀ s : State, MapWellFormed s.cfg.map → ∀ n, n < s.cfg.map.length → ∃ o z total : Nat,
    exec (.rfaOffset (.idx n)) s = .next { s with results := s.results ++ [.nat o] } ∧
    exec (.rfaSize (.idx n)) s = .next { s with results := s.results ++ [.nat z] } ∧
    exec (.rfaTotalSize s.cfg.map) s = .next { s with results := s.results ++ [.nat total] } ∧
    (n = 0 → o = 0) ∧ o + z ≤ total ∧
    (n + 1 < s.cfg.map.length →
      exec (.rfaOffset (.idx (n + 1))) s = .next { s with results := s.results ++ [.nat (o + z)] }) ∧
    (∀ m, n < m → m < s.cfg.map.length → ∃ o', o < o' ∧
      exec (.rfaOffset (.idx m)) s = .next { s with results := s.results ++ [.nat o'] })

/-- R280, R281, R282: `rfa.unpack` answers one value per sub-field, taken from the little-endian number of the bytes, a
signed one in two's complement; for a list of another length than the field R281 states no result, and the result is the
model's choice (log entry 21): of a longer list the number of all its bytes, of a shorter one the missing bytes as free
values; `rfa.pack` answers the bytes of the number its values, or their defaults, make, refuses a
list of another length, and faults VALUE_RANGE where one is out of range. The value and the range of a Signed sub-field of
width 0 are the model's choice (log entry 25). Both touch nothing else. -/
def Obligations.UnpackAndPackAnswer : Prop :=
  (∀ (s : State) (f : Field) (bs : List Byte), f.size ≤ bs.length → exec (.rfaUnpack f bs) s = .next { s with
    results := s.results ++ [.values (f.allSubs.map (fun x => subValue x (fieldNumber bs)))] }) ∧
  (∀ (s : State) (f : Field) (bs : List Byte), bs.length < f.size → ∃ rest : List Byte,
    bs.length + rest.length = f.size ∧
    exec (.rfaUnpack f bs) s = .next { s with
      results := s.results ++ [.values (f.allSubs.map (fun x => subValue x (fieldNumber (bs ++ rest))))] }) ∧
  (∀ (s : State) (f : Field) (vals : List (Option Int)),
    (vals.length ≠ f.allSubs.length → ∃ x, exec (.rfaPack f vals) s = .refused (.illFormed x)) ∧
    (vals.length = f.allSubs.length →
      ((∀ p ∈ f.allSubs.zip vals, InRange p.1 (p.2.getD p.1.dflt)) → ∃ bs : List Byte,
        exec (.rfaPack f vals) s = .next { s with results := s.results ++ [.bytes bs] } ∧
        bs.length = f.size ∧ fieldNumber bs = packNumber f vals % 2 ^ (8 * f.size)) ∧
      (¬(∀ p ∈ f.allSubs.zip vals, InRange p.1 (p.2.getD p.1.dflt)) →
        exec (.rfaPack f vals) s = .fault (.valueRange (.instr (.rfaPack f vals))))))

/-- R283: for a well-formed field, unpacking what was packed gives every value back; packing what was unpacked gives the
bytes back with every bit of no sub-field cleared, unless they hold an enumeration code the field does not list; and the
value of a sub-field depends on its own bits alone. -/
def Obligations.PackUnpackRoundTrip : Prop :=
  ∀ (s : State) (f : Field), FieldWellFormed f →
    (∀ vals : List Int, vals.length = f.allSubs.length → (∀ p ∈ f.allSubs.zip vals, InRange p.1 p.2) →
      ∃ bs, exec (.rfaPack f (vals.map some)) s = .next { s with results := s.results ++ [.bytes bs] } ∧
        exec (.rfaUnpack f bs) s = .next { s with results := s.results ++ [.values vals] }) ∧
    (∀ bs : List Byte, bs.length = f.size → ∃ vals,
      exec (.rfaUnpack f bs) s = .next { s with results := s.results ++ [.values vals] } ∧
      ((∀ p ∈ f.allSubs.zip vals, ∀ cs, p.1.kind = .enum cs → ∃ c ∈ cs, (c.1 : Int) = p.2) →
        ∃ out : List Byte, exec (.rfaPack f (vals.map some)) s = .next { s with results := s.results ++ [.bytes out] } ∧
          out.length = f.size ∧
          ∀ i, (fieldNumber out).testBit i =
            ((fieldNumber bs).testBit i && f.allSubs.any (fun x => decide (x.bitoff ≤ i ∧ i < x.bitoff + x.width))))) ∧
    (∀ x ∈ f.allSubs, ∀ bs cs : List Byte,
      (∀ i, x.bitoff ≤ i → i < x.bitoff + x.width → (fieldNumber bs).testBit i = (fieldNumber cs).testBit i) →
      subValue x (fieldNumber bs) = subValue x (fieldNumber cs))

/-- R284: `rfa.write` of N bytes to the simulated target issues exactly N frames of a register address and one payload
byte and answers N; where the target rejects byte k the call answers k, with DATA_NACK and no STOP after the refused
frame; no bytes answer 0 with no bus traffic. That the buffer is host memory at every address is the model's choice (log
entry 20). -/
def Obligations.RfaWriteCompletes : Prop :=
  (∀ (s : State) (offset : Nat) (data : Option Nat), offset ≤ 256 →
    exec (.rfaWrite offset data 0) s = .next { s with results := s.results ++ [.count 0] }) ∧
  (∀ (s : State) (t : SimTarget) (offset a : Nat) (bs : List Byte), BusFree s → s.env = .sim t → s.sockAddr = t.addr →
    2 ≤ s.cfg.maxFrame → offset + bs.length ≤ 256 → Holds s.mem a bs →
    let h : Byte := s.sockAddr ++ 0#1
    let closed : Ctrl :=
      { s.ctrl with
        hdr := h, mb := false, sb := false, buserr := false, rxnack := false, busstate := .idle, dir := false
        ackpend := false, pend := none }
    (∀ b, bs.getLast? = some b → (∀ k, k < bs.length → t.j + k ∉ t.rej) →
      ∃ moves, Completes (.rfaWrite offset (some a) bs.length) moves s { s with
        ctrl := { closed with data := b }
        trace := s.trace ++ otherAck s.ctrl ++ acceptedFrames h [startEvent s.ctrl] offset bs
        env := .sim { t with
          n := 2, addressed := true, reading := false, ptr := BitVec.ofNat 8 (offset + bs.length)
          j := t.j + bs.length, regs := writtenRegs t.regs offset bs }
        status := some .success, results := s.results ++ [.count bs.length], running := none }) ∧
    (∀ k b, bs[k]? = some b → t.j + k ∈ t.rej → (∀ i, i < k → t.j + i ∉ t.rej) →
      ∃ moves, Completes (.rfaWrite offset (some a) bs.length) moves s { s with
        ctrl := { closed with data := b, mb := true, rxnack := true, busstate := .owner }
        trace := s.trace ++ otherAck s.ctrl ++ acceptedFrames h [startEvent s.ctrl] offset (bs.take k) ++
          [if k = 0 then startEvent s.ctrl else .start] ++ refusedFrame h (BitVec.ofNat 8 (offset + k)) b
        env := .sim { t with
          n := 2, addressed := true, reading := false, ptr := BitVec.ofNat 8 (offset + k)
          j := t.j + k + 1, regs := writtenRegs t.regs offset (bs.take k) }
        status := some .dataNack, results := s.results ++ [.count k], running := none }))

/-- R285: `rfa.read` of N bytes from the simulated target issues exactly one select write, the register address with no
payload, and one burst read that acknowledges every byte but the last and answers the last NACK; the bytes are the
target's registers from the offset upward, and it answers N. With no length it still selects and runs a read frame of no
bytes, and answers 0 (the byte that selects offset 256 is the model's free value, log entry 12). A failed select, the
address refused or no room in a frame, answers 0 with the status of its cause and no read. That the buffer is host memory at
every address, the register window included, is the model's choice (log entry 20). -/
def Obligations.RfaReadCompletes : Prop :=
  (∀ (s : State) (offset : Nat) (data : Option Nat) (len : Nat), s.cfg.maxFrame = 0 → (data = none → len = 0) →
    offset + len ≤ 256 →
    exec (.rfaRead offset data len) s = .next { s with
      status := some .payloadTooLong, results := s.results ++ [.count 0], running := none }) ∧
  (∀ (s : State) (t : SimTarget) (offset : Nat), OnBus s t → 1 ≤ s.cfg.maxFrame →
    let hw : Byte := s.sockAddr ++ 0#1
    let hr : Byte := s.sockAddr ++ 1#1
    let closed : Ctrl :=
      { s.ctrl with
        hdr := hr, mb := false, sb := false, buserr := false, rxnack := false, busstate := .idle, dir := true
        ackpend := false, pend := none }
    (∀ a n, s.sockAddr = t.addr → offset + (n + 1) ≤ 256 →
      let bytes := simBytes { t with ptr := BitVec.ofNat 8 offset } (n + 1)
      ∃ moves, Completes (.rfaRead offset (some a) (n + 1)) moves s { s with
        ctrl :=
          { closed with
            data := bytes.getLast (by simp [bytes, simBytes])
            ackact := if s.cfg.smart then s.ctrl.ackact else .nack }
        mem := memPutBytes s.mem a bytes
        trace := s.trace ++ otherAck s.ctrl ++
          [startEvent s.ctrl, .hdr hw .ack, .tx (BitVec.ofNat 8 offset) .ack, .stop, .start, .hdr hr .ack] ++
          burstTrace bytes ++ [.mack .nack, .stop]
        env := .sim { t with
          n := 0, addressed := true, reading := true, ptr := BitVec.ofNat 8 offset + BitVec.ofNat 8 (n + 1) }
        status := some .success, results := s.results ++ [.count (n + 1)], running := none }) ∧
    (∀ data, s.sockAddr = t.addr → offset ≤ 256 → ∃ r : Byte, (offset < 256 → r = BitVec.ofNat 8 offset) ∧
      let byte := (memRead t.regs r.toNat).getD 0x00#8
      ∃ moves, Completes (.rfaRead offset data 0) moves s { s with
        ctrl := { closed with data := byte }
        trace := s.trace ++ otherAck s.ctrl ++
          [startEvent s.ctrl, .hdr hw .ack, .tx r .ack, .stop, .start, .hdr hr .ack, .rx byte,
            .mack (if s.ctrl.smen then .nack else s.ctrl.ackact), .stop]
        env := .sim { t with n := 0, addressed := true, reading := true, ptr := r + 1#8 }
        status := some .success, results := s.results ++ [.count 0], running := none }) ∧
    (∀ data len, s.sockAddr ≠ t.addr → (data = none → len = 0) → offset + len ≤ 256 →
      ∃ moves, Completes (.rfaRead offset data len) moves s { s with
        ctrl :=
          { s.ctrl with
            hdr := hw, mb := true, sb := false, buserr := false, rxnack := true, busstate := .owner, dir := false
            ackpend := false, pend := none }
        trace := s.trace ++ otherAck s.ctrl ++ [startEvent s.ctrl, .hdr hw .nack]
        env := .sim { t with n := 0, addressed := false, reading := false }
        status := some .addrNack, results := s.results ++ [.count 0], running := none }))

/-- R286, R287: `rfa.read_field` reads exactly the field's registers and answers their unpacked values, with host memory
as it was (the bytes are left in the model's own buffer, log entry 16); `rfa.write_field` writes the field's packed bytes,
one per sub-field value in range, with no read of the target, and answers their number. Both on the simulated target, for a
field of at least one byte inside the register space, named by index or by name (a name that two fields bear: log entry 24;
the value and the range of a Signed sub-field of width 0: log entry 25). -/
def Obligations.FieldDispatcherCompletes : Prop :=
  ∀ (s : State) (t : SimTarget) (r : FieldRef) (i : Nat) (f : Field), OnBus s t → s.sockAddr = t.addr →
    s.cfg.map[i]? = some f →
    (r = .idx i ∨ ∃ x, r = .name x ∧ f.name = some x ∧ ∀ g ∈ s.cfg.map.take i, g.name ≠ some x) →
    let offset := ((s.cfg.map.take i).map Field.size).sum
    let hw : Byte := s.sockAddr ++ 0#1
    let hr : Byte := s.sockAddr ++ 1#1
    let closed : Ctrl :=
      { s.ctrl with
        mb := false, sb := false, buserr := false, rxnack := false, busstate := .idle, ackpend := false, pend := none }
    1 ≤ f.size → offset + f.size ≤ 256 →
    (1 ≤ s.cfg.maxFrame →
      let bytes := simBytes { t with ptr := BitVec.ofNat 8 offset } f.size
      ∃ moves, Completes (.rfaReadField r) moves s { s with
        ctrl :=
          { closed with
            hdr := hr, dir := true, data := bytes.getLastD s.ctrl.data
            ackact := if s.cfg.smart then s.ctrl.ackact else .nack }
        scratch := bytes
        trace := s.trace ++ otherAck s.ctrl ++
          [startEvent s.ctrl, .hdr hw .ack, .tx (BitVec.ofNat 8 offset) .ack, .stop, .start, .hdr hr .ack] ++
          burstTrace bytes ++ [.mack .nack, .stop]
        env := .sim { t with
          n := 0, addressed := true, reading := true, ptr := BitVec.ofNat 8 offset + BitVec.ofNat 8 f.size }
        status := some .success
        results := s.results ++ [.field (some (f.allSubs.map (fun x => subValue x (fieldNumber bytes))))]
        running := none }) ∧
    (∀ vals, 2 ≤ s.cfg.maxFrame → (∀ k, k < f.size → t.j + k ∉ t.rej) → vals.length = f.allSubs.length →
      (∀ p ∈ f.allSubs.zip vals, InRange p.1 (p.2.getD p.1.dflt)) →
      ∃ bs : List Byte, bs.length = f.size ∧ fieldNumber bs = packNumber f vals % 2 ^ (8 * f.size) ∧
        ∃ moves, Completes (.rfaWriteField r vals) moves s { s with
          ctrl := { closed with hdr := hw, dir := false, data := bs.getLastD s.ctrl.data }
          trace := s.trace ++ otherAck s.ctrl ++ acceptedFrames hw [startEvent s.ctrl] offset bs
          env := .sim { t with
            n := 2, addressed := true, reading := false, ptr := BitVec.ofNat 8 (offset + f.size)
            j := t.j + f.size, regs := writtenRegs t.regs offset bs }
          status := some .success, results := s.results ++ [.count f.size], running := none })

-- outcomes (spec/60_exceptions.md)

/-- R304 to R307, R309 to R311: a procedure whose operands have no meaning faults before its first register access, under
the name the rule gives; so does a read of `status` before anything wrote it. Whom a fault names as its origin is the
model's reading (log entry 19), and so are the range of a Signed sub-field of width 0 (log entry 25) and that a buffer is host memory at every address (log
entry 20). -/
def Obligations.OperandFaults : Prop :=
  ∀ s : State,
    (∀ a r, 127 < a → exec (.engSetAddrSync a r) s = .fault (.badAddress (.instr (.engMakeHeader a r)))) ∧
    (∀ a rest, 127 < a → exec (.sockProbe (a :: rest)) s = .fault (.badAddress (.instr (.sockProbe (a :: rest))))) ∧
    (∀ len, 0 < len → exec (.sockRecv none len) s = .fault (.nullBuffer (.instr (.sockRecv none len)))) ∧
    (∀ o len, 0 < len →
      exec (.rfaRead o none len) s = .fault (.nullBuffer (.instr (.rfaRead o none len))) ∧
      exec (.rfaWrite o none len) s = .fault (.nullBuffer (.instr (.rfaWrite o none len)))) ∧
    (∀ o data len, (data = none → len = 0) → 256 < o + len →
      exec (.rfaRead o data len) s = .fault (.regRange (.instr (.rfaRead o data len))) ∧
      exec (.rfaWrite o data len) s = .fault (.regRange (.instr (.rfaWrite o data len)))) ∧
    (∀ o a len, 0 < len → o + len ≤ 256 → memRead s.mem a = none →
      exec (.rfaWrite o (some a) len) s = .fault (.bufferUnwritten (.instr (.rfaWrite o (some a) len)))) ∧
    (∀ r vals, ((∃ n, r = .idx n ∧ s.cfg.map.length ≤ n) ∨ ∃ x, r = .name x ∧ ∀ g ∈ s.cfg.map, g.name ≠ some x) →
      exec (.rfaReadField r) s = .fault (.unknownField (.instr (.rfaReadField r))) ∧
      exec (.rfaWriteField r vals) s = .fault (.unknownField (.instr (.rfaWriteField r vals)))) ∧
    (∀ n f vals, s.cfg.map[n]? = some f → vals.length = f.allSubs.length →
      (∃ p ∈ f.allSubs.zip vals, ¬InRange p.1 (p.2.getD p.1.dflt)) →
      exec (.rfaWriteField (.idx n) vals) s = .fault (.valueRange (.instr (.rfaWriteField (.idx n) vals)))) ∧
    (∀ rest, s.turn = .host → s.running = none → s.prog = .act .readStatus :: rest → s.status = none →
      step s = .fault (.statusNoValue (.act .readStatus)))

/-- R315, R208, R221: two causes of a hang: in every interleaving the host polls for ever, its condition never becoming true,
where it does not hold and no clock is attached, and where it waits for a ready flag that is not set while nothing is pending, in progress or
being synchronised. -/
def Obligations.WaitsThatNeverEnd : Prop :=
  ∀ (μ : Nat → Move) (σ : Nat → State) (n : Nat) (o : Origin) (r : Reg) (mask : Word) (set : Bool) (rest : List Stmt),
    IsRun μ σ → (σ n).running = some { origin := o, todo := .await r mask set :: rest } →
    (rdReg r (σ n).ctrl &&& mask ≠ 0#32 ↔ set = false) →
    ((σ n).clk = false ∨
      (r = .intflag ∧ NoSync (σ n).ctrl ∧ (σ n).ctrl.sysop = false ∧ (σ n).ctrl.busop = none)) →
    HangsAt σ n

/-- R160, R175: with the clock attached and the synchronisation steps weakly fair, the software reset that the host waits
for ends, in every interleaving. -/
def Obligations.SoftwareResetEnds : Prop :=
  ∀ (μ : Nat → Move) (σ : Nat → State) (n : Nat) (o : Origin) (rest : List Stmt),
    IsRun μ σ → SyncFair μ σ →
    (σ n).running = some { origin := o, todo := .await .syncbusy 0x00000001#32 false :: rest } → (σ n).clk = true →
    ∃ k, n ≤ k ∧ (σ k).ctrl.syncSwrst = false

end
end

