-- ==== Sys2Proof/Laws/Bits.lean ====
section
/-! SUPPORT. Laws/Bits.lean: what the procedures see of a register and what they write back: the polled bits, the status of
a phase, the fields of a read value, and the read-modify-writes (spec/30_encoding.md R93, spec/42 to 44). -/

namespace Sys2Proof.Machine

-- polled bits

theorem poll_syncbusy (c : Ctrl) (e : Event) :
    (rdReg .syncbusy c &&& eventMask e != 0#32) =
      (match e with
       | .swrst => c.syncSwrst
       | .enable => c.syncEnable
       | .sysop => c.sysop
       | .any => c.syncSwrst || c.syncEnable || c.sysop) := by
  have key : ∀ a b d : Bool,
      (0#29 ++ BitVec.ofBool a ++ BitVec.ofBool b ++ BitVec.ofBool d &&& eventMask e != 0#32) =
        (match e with | .swrst => d | .enable => b | .sysop => a | .any => d || b || a) := by
    cases e <;> decide
  exact key c.sysop c.syncEnable c.syncSwrst

theorem poll_intflag (c : Ctrl) (f : ReadyFlag) :
    (rdReg .intflag c &&& readyMask f != 0#32) = (match f with | .mb => c.mb | .sb => c.sb) := by
  have key : ∀ a b : Bool,
      (0#30 ++ BitVec.ofBool a ++ BitVec.ofBool b &&& readyMask f != 0#32) = (match f with | .mb => b | .sb => a) := by
    cases f <;> decide
  exact key c.sb c.mb

-- fields of a read value

theorem rdReg_status_buserr (c : Ctrl) : (rdReg .status c).getLsbD 0 = c.buserr := by
  have key : ∀ (k : BitVec 2) (a b : Bool),
      (0#26 ++ k ++ 0#1 ++ BitVec.ofBool a ++ 0#1 ++ BitVec.ofBool b).getLsbD 0 = b := by decide
  exact key _ _ _

theorem rdReg_status_rxnack (c : Ctrl) : (rdReg .status c).getLsbD 2 = c.rxnack := by
  have key : ∀ (k : BitVec 2) (a b : Bool),
      (0#26 ++ k ++ 0#1 ++ BitVec.ofBool a ++ 0#1 ++ BitVec.ofBool b).getLsbD 2 = a := by decide
  exact key _ _ _

theorem phaseStatus_rdReg (c : Ctrl) (n : TStatus) :
    phaseStatus (rdReg .status c) n = if c.buserr then .other else if c.rxnack then n else .success := by
  unfold phaseStatus
  rw [rdReg_status_buserr, rdReg_status_rxnack]

@[simp] theorem rdReg_data_byte (c : Ctrl) : (rdReg .data c).extractLsb' 0 8 = c.data := by
  simp only [rdReg]
  ext i h
  simp [h]; omega

@[simp] theorem rdReg_ctrla_mode (c : Ctrl) : (rdReg .ctrla c).extractLsb' 2 3 = c.mode := by
  have key : ∀ (m : BitVec 3) (a b : Bool), (0#27 ++ m ++ BitVec.ofBool a ++ BitVec.ofBool b).extractLsb' 2 3 = m := by
    decide
  exact key _ _ _

-- written values

@[simp] theorem byte_setWidth_extract (h : Byte) : (h.setWidth 32).extractLsb' 0 8 = h := by
  ext i hi
  simp [hi]; omega

/-- `bcc.enable`'s CTRLA write sets ENABLE and keeps MODE (R201). -/
theorem configCtrla_enable (c : Ctrl) :
    configCtrla (rmwValue (readCtrla c) 0x1#32 0x2#32) c =
      { c with enable := true, syncEnable := c.syncEnable || !c.enable } := by
  have key : ∀ (m : BitVec 3) (a b : Bool),
      (rmwValue (0#27 ++ m ++ BitVec.ofBool a ++ BitVec.ofBool b) 0x1#32 0x2#32).extractLsb' 2 3 = m ∧
      (rmwValue (0#27 ++ m ++ BitVec.ofBool a ++ BitVec.ofBool b) 0x1#32 0x2#32).getLsbD 1 = true := by decide
  obtain ⟨h1, h2⟩ := key c.mode c.enable c.syncSwrst
  simp only [configCtrla, readCtrla, h1, h2, ite_self]
  cases c.enable <;> rfl

/-- `bcc.disable`'s CTRLA write clears ENABLE and keeps MODE (R202). -/
theorem configCtrla_disable (c : Ctrl) :
    configCtrla (rmwValue (readCtrla c) 0x3#32 0x0#32) c =
      { c with enable := false, syncEnable := c.syncEnable || c.enable } := by
  have key : ∀ (m : BitVec 3) (a b : Bool),
      (rmwValue (0#27 ++ m ++ BitVec.ofBool a ++ BitVec.ofBool b) 0x3#32 0x0#32).extractLsb' 2 3 = m ∧
      (rmwValue (0#27 ++ m ++ BitVec.ofBool a ++ BitVec.ofBool b) 0x3#32 0x0#32).getLsbD 1 = false := by decide
  obtain ⟨h1, h2⟩ := key c.mode c.enable c.syncSwrst
  simp only [configCtrla, readCtrla, h1, h2, ite_self]
  cases c.enable <;> rfl

/-- `bcc.set_mode`'s CTRLA write sets MODE while disabled and keeps ENABLE (R204). -/
theorem configCtrla_setMode (c : Ctrl) (m : Role) :
    configCtrla (rmwValue (readCtrla c) 0x1D#32 ((roleCode m).setWidth 32 <<< 2)) c =
      { c with mode := if c.en then c.mode else roleCode m } := by
  have key : ∀ (k : BitVec 3) (a b : Bool),
      (rmwValue (0#27 ++ k ++ BitVec.ofBool a ++ BitVec.ofBool b) 0x1D#32 ((roleCode m).setWidth 32 <<< 2)).extractLsb' 2 3
        = roleCode m ∧
      (rmwValue (0#27 ++ k ++ BitVec.ofBool a ++ BitVec.ofBool b) 0x1D#32 ((roleCode m).setWidth 32 <<< 2)).getLsbD 1
        = a := by cases m <;> decide
  obtain ⟨h1, h2⟩ := key c.mode c.enable c.syncSwrst
  simp only [configCtrla, readCtrla, h1, h2]
  cases c.syncEnable <;> cases c.enable <;> rfl

/-- None of the procedures' CTRLA read-modify-writes writes SWRST (R201, R202, R204). -/
theorem rmw_ctrla_swrst (c : Ctrl) (clr set : Word) (h : clr.getLsbD 0 = true) (h' : set.getLsbD 0 = false) :
    (rmwValue (readCtrla c) clr set).getLsbD 0 = false := by
  simp only [rmwValue, BitVec.getLsbD_or, BitVec.getLsbD_and, BitVec.getLsbD_not, h, h']
  simp

/-- A command's read-modify-write of CTRLB writes its CMD code and carries SMEN and ACKACT (R93, R226). -/
theorem rmw_ctrlb_cmd (c : Ctrl) (k : Cmd) :
    ctrlbCmdBits (rmwValue (readCtrlb c) cmdMask (cmdWord k)) = k.code ∧
    (rmwValue (readCtrlb c) cmdMask (cmdWord k)).getLsbD 8 = c.smen ∧
    ackOfBit ((rmwValue (readCtrlb c) cmdMask (cmdWord k)).getLsbD 18) = c.ackact := by
  have key : ∀ (a : Ack) (b : Bool),
      ctrlbCmdBits (rmwValue (0#13 ++ BitVec.ofBool (ackBit a) ++ 0#9 ++ BitVec.ofBool b ++ 0#8) cmdMask (cmdWord k))
        = k.code ∧
      (rmwValue (0#13 ++ BitVec.ofBool (ackBit a) ++ 0#9 ++ BitVec.ofBool b ++ 0#8) cmdMask (cmdWord k)).getLsbD 8 = b ∧
      ackOfBit ((rmwValue (0#13 ++ BitVec.ofBool (ackBit a) ++ 0#9 ++ BitVec.ofBool b ++ 0#8) cmdMask
        (cmdWord k)).getLsbD 18) = a := by
    intro a b; cases k <;> cases a <;> cases b <;> decide
  exact key _ _

/-- `send_ack`'s and `send_nack`'s read-modify-writes of CTRLB carry SMEN and set ACKACT, with no command (R227, R229). -/
theorem rmw_ctrlb_ack (c : Ctrl) (nack : Bool) :
    let v := rmwValue (readCtrlb c) (if nack then 0x30000#32 else 0x70000#32) (if nack then 0x40000#32 else 0#32)
    ctrlbCmdBits v = 0b00#2 ∧ v.getLsbD 8 = c.smen ∧ v.getLsbD 18 = nack := by
  have key : ∀ (a : Ack) (b : Bool),
      let v := rmwValue (0#13 ++ BitVec.ofBool (ackBit a) ++ 0#9 ++ BitVec.ofBool b ++ 0#8)
        (if nack then 0x30000#32 else 0x70000#32) (if nack then 0x40000#32 else 0#32)
      ctrlbCmdBits v = 0b00#2 ∧ v.getLsbD 8 = b ∧ v.getLsbD 18 = nack := by
    intro a b; cases nack <;> cases a <;> cases b <;> decide
  exact key _ _

/-- `bcc.init`'s CTRLB write sets SMEN to the smart policy and keeps ACKACT, with no command (R206). -/
theorem rmw_ctrlb_smart (c : Ctrl) (smart : Bool) :
    let v := rmwValue (readCtrlb c) 0x30100#32 (if smart then 0x100#32 else 0x0#32)
    ctrlbCmdBits v = 0b00#2 ∧ v.getLsbD 8 = smart ∧ ackOfBit (v.getLsbD 18) = c.ackact := by
  have key : ∀ (a : Ack) (b : Bool),
      let v := rmwValue (0#13 ++ BitVec.ofBool (ackBit a) ++ 0#9 ++ BitVec.ofBool b ++ 0#8)
        0x30100#32 (if smart then 0x100#32 else 0x0#32)
      ctrlbCmdBits v = 0b00#2 ∧ v.getLsbD 8 = smart ∧ ackOfBit (v.getLsbD 18) = a := by
    intro a b; cases smart <;> cases a <;> cases b <;> decide
  exact key _ _

-- the writes themselves

theorem wrReg_swrst (s : State) : wrReg .ctrla 0x1#32 s = .next { s with ctrl := { s.ctrl with syncSwrst := true } } := rfl

theorem wrReg_config (v : Word) (s : State) (h : v.getLsbD 0 = false) : wrReg .ctrla v s = execWrCtrlaConfig v s := by
  unfold wrReg
  simp only [h, Bool.false_eq_true, if_false]

theorem wrReg_addr (h : Byte) (s : State) : wrReg .addr (h.setWidth 32) s = execWrAddr (h.setWidth 32) s := rfl

theorem wrReg_data (b : Byte) (s : State) : wrReg .data (b.setWidth 32) s = execWrData b s := by
  simp [wrReg]

theorem wrReg_forceIdle (s : State) : wrReg .status 0x0010#32 s = execWrStatus 0x0010#16 s := rfl

theorem wrReg_ctrlb (v : Word) (s : State) (k : Cmd) (h : ctrlbCmdBits v = k.code) :
    wrReg .ctrlb v s =
      (match k with
       | .noop => execWrCtrlbNoop v s
       | .repeatStart => execWrCtrlbRepeatStart v s
       | .readContinue => execWrCtrlbReadContinue v s
       | .stop => execWrCtrlbStop v s) := by
  cases k <;> simp [wrReg, h, Cmd.code]

end Sys2Proof.Machine
end

