-- ==== Sys2Proof/Laws/Memory.lean ====
section
/-! SUPPORT. Laws/Memory.lean: the laws of host memory: a read after a write, and that every memory operation keeps the
canonical form. -/

namespace Sys2Proof.Machine

/-- The first address of a memory, if it lists one. -/
def memHead : Memory → Option Nat
  | [] => none
  | c :: _ => some c.1

theorem wf_tail {c : Host.Cell} {m : Memory} (h : Memory.wf (c :: m) = true) : Memory.wf m = true := by
  cases m with
  | nil => rfl
  | cons d m => simp [Memory.wf] at h; exact h.2

/-- The form of a longer memory: the tail's form, and the head below the tail's first address. -/
theorem wf_cons {c : Host.Cell} {m : Memory} :
    Memory.wf (c :: m) = true ↔ Memory.wf m = true ∧ ∀ a, memHead m = some a → c.1 < a := by
  cases m with
  | nil => simp [Memory.wf, memHead]
  | cons d m => simp [Memory.wf, memHead, and_comm]

theorem memHead_memPut (m : Memory) (a : Nat) (b : Byte) (x : Nat) (h : memHead (memPut m a b) = some x) :
    x = a ∨ memHead m = some x := by
  cases m with
  | nil => simp [memPut, memHead] at h; exact .inl h.symm
  | cons c m =>
    simp only [memPut] at h
    split at h
    · simp [memHead] at h; exact .inl h.symm
    · split at h
      · simp [memHead] at h; exact .inl h.symm
      · simp [memHead] at h ⊢; exact .inr h

/-- Writing a byte keeps the canonical form. -/
theorem memPut_wf (m : Memory) (a : Nat) (b : Byte) (h : Memory.wf m = true) : Memory.wf (memPut m a b) = true := by
  induction m with
  | nil => rfl
  | cons c m ih =>
    simp only [memPut]
    split
    · rename_i hlt
      exact wf_cons.2 ⟨h, by simp [memHead, hlt]⟩
    · split
      · rename_i heq
        refine wf_cons.2 ⟨wf_tail h, fun x hx => ?_⟩
        have := (wf_cons.1 h).2 x hx
        simp only; omega
      · refine wf_cons.2 ⟨ih (wf_tail h), fun x hx => ?_⟩
        rcases memHead_memPut m a b x hx with rfl | hx
        · omega
        · exact (wf_cons.1 h).2 x hx

/-- Writing bytes keeps the canonical form. -/
theorem memPutBytes_wf (bs : List Byte) (m : Memory) (a : Nat) (h : Memory.wf m = true) :
    Memory.wf (memPutBytes m a bs) = true := by
  induction bs generalizing m a with
  | nil => exact h
  | cons b bs ih => exact ih _ _ (memPut_wf m a b h)

theorem memHead_memErase {m : Memory} {a x : Nat} (hw : Memory.wf m = true) (h : memHead (memErase m a) = some x) :
    ∃ y, memHead m = some y ∧ y ≤ x := by
  cases m with
  | nil => simp [memErase, memHead] at h
  | cons c m =>
    simp only [memErase] at h
    split at h
    · exact ⟨c.1, rfl, Nat.le_of_lt ((wf_cons.1 hw).2 x h)⟩
    · simp [memHead] at h ⊢; omega

/-- Taking an address out keeps the canonical form. -/
theorem memErase_wf (m : Memory) (a : Nat) (h : Memory.wf m = true) : Memory.wf (memErase m a) = true := by
  induction m with
  | nil => rfl
  | cons c m ih =>
    simp only [memErase]
    split
    · exact wf_tail h
    · refine wf_cons.2 ⟨ih (wf_tail h), fun x hx => ?_⟩
      obtain ⟨y, hy, hle⟩ := memHead_memErase (wf_tail h) hx
      have := (wf_cons.1 h).2 y hy
      omega

/-- A write of the simulated target keeps its registers in canonical form. -/
theorem simPut_wf (t : SimTarget) (a b : Byte) (h : Memory.wf t.regs = true) : Memory.wf (simPut t a b) = true := by
  unfold simPut
  split
  · exact memErase_wf _ _ h
  · exact memPut_wf _ _ _ h

/-- A write of the host's destination keeps host memory in canonical form. -/
theorem dstWrite_wf (d : Dst) (k : Nat) (b : Byte) (s : State) (h : Memory.wf s.mem = true) :
    Memory.wf (dstWrite d k b s).mem = true := by
  cases d with
  | mem base => exact memPut_wf _ _ _ h
  | scratch => exact h

/-- A read after a write to the same address gives the byte written. -/
@[simp] theorem memRead_memPut_same (m : Memory) (a : Nat) (b : Byte) : memRead (memPut m a b) a = some b := by
  induction m with
  | nil => simp [memPut, memRead]
  | cons c m ih =>
    simp only [memPut]
    split
    · simp [memRead]
    · split
      · simp [memRead]
      · have : c.1 ≠ a := by omega
        simp [memRead, this, ih]

/-- A write leaves every other address alone. -/
theorem memRead_memPut_other (m : Memory) (a x : Nat) (b : Byte) (h : x ≠ a) :
    memRead (memPut m a b) x = memRead m x := by
  induction m with
  | nil => simp [memPut, memRead, Ne.symm h]
  | cons c m ih =>
    simp only [memPut]
    split
    · simp [memRead, Ne.symm h]
    · split
      · rename_i heq
        simp [memRead, Ne.symm h, ← heq]
      · simp only [memRead, ih]

end Sys2Proof.Machine
end

