-- ==== Sys2Proof/Laws/State.lean ====
section
/-! SUPPORT. Laws/State.lean: what each named update of the state leaves in each field. -/

namespace Sys2Proof.Machine

@[simp] theorem emit_ctrl (e : BusEvent) (s : State) : (emit e s).ctrl = s.ctrl := rfl
@[simp] theorem emit_clk (e : BusEvent) (s : State) : (emit e s).clk = s.clk := rfl
@[simp] theorem emit_sdaFn (e : BusEvent) (s : State) : (emit e s).sdaFn = s.sdaFn := rfl
@[simp] theorem emit_sclFn (e : BusEvent) (s : State) : (emit e s).sclFn = s.sclFn := rfl
@[simp] theorem emit_trace (e : BusEvent) (s : State) : (emit e s).trace = s.trace ++ [e] := rfl
@[simp] theorem emit_sockAddr (e : BusEvent) (s : State) : (emit e s).sockAddr = s.sockAddr := rfl
@[simp] theorem emit_status (e : BusEvent) (s : State) : (emit e s).status = s.status := rfl
@[simp] theorem emit_mem (e : BusEvent) (s : State) : (emit e s).mem = s.mem := rfl
@[simp] theorem emit_results (e : BusEvent) (s : State) : (emit e s).results = s.results := rfl
@[simp] theorem emit_prog (e : BusEvent) (s : State) : (emit e s).prog = s.prog := rfl
@[simp] theorem emit_running (e : BusEvent) (s : State) : (emit e s).running = s.running := rfl
@[simp] theorem emit_scratch (e : BusEvent) (s : State) : (emit e s).scratch = s.scratch := rfl
@[simp] theorem emit_env (e : BusEvent) (s : State) : (emit e s).env = s.env := rfl
@[simp] theorem emit_cfg (e : BusEvent) (s : State) : (emit e s).cfg = s.cfg := rfl
@[simp] theorem emit_turn (e : BusEvent) (s : State) : (emit e s).turn = s.turn := rfl
@[simp] theorem emit_tick (e : BusEvent) (s : State) : (emit e s).tick = s.tick := rfl
@[simp] theorem emit_draws (e : BusEvent) (s : State) : (emit e s).draws = s.draws := rfl

@[simp] theorem giveValue_ctrl (v : Value) (s : State) : (giveValue v s).ctrl = s.ctrl := rfl
@[simp] theorem giveValue_clk (v : Value) (s : State) : (giveValue v s).clk = s.clk := rfl
@[simp] theorem giveValue_sdaFn (v : Value) (s : State) : (giveValue v s).sdaFn = s.sdaFn := rfl
@[simp] theorem giveValue_sclFn (v : Value) (s : State) : (giveValue v s).sclFn = s.sclFn := rfl
@[simp] theorem giveValue_trace (v : Value) (s : State) : (giveValue v s).trace = s.trace := rfl
@[simp] theorem giveValue_sockAddr (v : Value) (s : State) : (giveValue v s).sockAddr = s.sockAddr := rfl
@[simp] theorem giveValue_status (v : Value) (s : State) : (giveValue v s).status = s.status := rfl
@[simp] theorem giveValue_mem (v : Value) (s : State) : (giveValue v s).mem = s.mem := rfl
@[simp] theorem giveValue_results (v : Value) (s : State) : (giveValue v s).results = s.results ++ [v] := rfl
@[simp] theorem giveValue_prog (v : Value) (s : State) : (giveValue v s).prog = s.prog := rfl
@[simp] theorem giveValue_running (v : Value) (s : State) : (giveValue v s).running = s.running := rfl
@[simp] theorem giveValue_scratch (v : Value) (s : State) : (giveValue v s).scratch = s.scratch := rfl
@[simp] theorem giveValue_env (v : Value) (s : State) : (giveValue v s).env = s.env := rfl
@[simp] theorem giveValue_cfg (v : Value) (s : State) : (giveValue v s).cfg = s.cfg := rfl
@[simp] theorem giveValue_turn (v : Value) (s : State) : (giveValue v s).turn = s.turn := rfl
@[simp] theorem giveValue_tick (v : Value) (s : State) : (giveValue v s).tick = s.tick := rfl
@[simp] theorem giveValue_draws (v : Value) (s : State) : (giveValue v s).draws = s.draws := rfl

@[simp] theorem finish_ctrl (v : Option Value) (s : State) : (finish v s).ctrl = s.ctrl := rfl
@[simp] theorem finish_clk (v : Option Value) (s : State) : (finish v s).clk = s.clk := rfl
@[simp] theorem finish_sdaFn (v : Option Value) (s : State) : (finish v s).sdaFn = s.sdaFn := rfl
@[simp] theorem finish_sclFn (v : Option Value) (s : State) : (finish v s).sclFn = s.sclFn := rfl
@[simp] theorem finish_trace (v : Option Value) (s : State) : (finish v s).trace = s.trace := rfl
@[simp] theorem finish_sockAddr (v : Option Value) (s : State) : (finish v s).sockAddr = s.sockAddr := rfl
@[simp] theorem finish_status (v : Option Value) (s : State) : (finish v s).status = s.status := rfl
@[simp] theorem finish_mem (v : Option Value) (s : State) : (finish v s).mem = s.mem := rfl
@[simp] theorem finish_results (v : Option Value) (s : State) : (finish v s).results = s.results ++ v.toList := by
  cases v <;> simp [finish, withResult]
@[simp] theorem finish_prog (v : Option Value) (s : State) : (finish v s).prog = s.prog := rfl
@[simp] theorem finish_running (v : Option Value) (s : State) : (finish v s).running = none := rfl
@[simp] theorem finish_scratch (v : Option Value) (s : State) : (finish v s).scratch = s.scratch := rfl
@[simp] theorem finish_env (v : Option Value) (s : State) : (finish v s).env = s.env := rfl
@[simp] theorem finish_cfg (v : Option Value) (s : State) : (finish v s).cfg = s.cfg := rfl
@[simp] theorem finish_turn (v : Option Value) (s : State) : (finish v s).turn = s.turn := rfl
@[simp] theorem finish_tick (v : Option Value) (s : State) : (finish v s).tick = s.tick := rfl
@[simp] theorem finish_draws (v : Option Value) (s : State) : (finish v s).draws = s.draws := rfl

@[simp] theorem setTodo_ctrl (l : List Stmt) (s : State) : (setTodo l s).ctrl = s.ctrl := rfl
@[simp] theorem setTodo_clk (l : List Stmt) (s : State) : (setTodo l s).clk = s.clk := rfl
@[simp] theorem setTodo_sdaFn (l : List Stmt) (s : State) : (setTodo l s).sdaFn = s.sdaFn := rfl
@[simp] theorem setTodo_sclFn (l : List Stmt) (s : State) : (setTodo l s).sclFn = s.sclFn := rfl
@[simp] theorem setTodo_trace (l : List Stmt) (s : State) : (setTodo l s).trace = s.trace := rfl
@[simp] theorem setTodo_sockAddr (l : List Stmt) (s : State) : (setTodo l s).sockAddr = s.sockAddr := rfl
@[simp] theorem setTodo_status (l : List Stmt) (s : State) : (setTodo l s).status = s.status := rfl
@[simp] theorem setTodo_mem (l : List Stmt) (s : State) : (setTodo l s).mem = s.mem := rfl
@[simp] theorem setTodo_results (l : List Stmt) (s : State) : (setTodo l s).results = s.results := rfl
@[simp] theorem setTodo_prog (l : List Stmt) (s : State) : (setTodo l s).prog = s.prog := rfl
@[simp] theorem setTodo_running (l : List Stmt) (s : State) : (setTodo l s).running = s.running.map (fun r => { r with todo := l }) := rfl
@[simp] theorem setTodo_scratch (l : List Stmt) (s : State) : (setTodo l s).scratch = s.scratch := rfl
@[simp] theorem setTodo_env (l : List Stmt) (s : State) : (setTodo l s).env = s.env := rfl
@[simp] theorem setTodo_cfg (l : List Stmt) (s : State) : (setTodo l s).cfg = s.cfg := rfl
@[simp] theorem setTodo_turn (l : List Stmt) (s : State) : (setTodo l s).turn = s.turn := rfl
@[simp] theorem setTodo_tick (l : List Stmt) (s : State) : (setTodo l s).tick = s.tick := rfl
@[simp] theorem setTodo_draws (l : List Stmt) (s : State) : (setTodo l s).draws = s.draws := rfl

@[simp] theorem setTooLong_ctrl (s : State) : (setTooLong s).ctrl = s.ctrl := rfl
@[simp] theorem setTooLong_clk (s : State) : (setTooLong s).clk = s.clk := rfl
@[simp] theorem setTooLong_sdaFn (s : State) : (setTooLong s).sdaFn = s.sdaFn := rfl
@[simp] theorem setTooLong_sclFn (s : State) : (setTooLong s).sclFn = s.sclFn := rfl
@[simp] theorem setTooLong_trace (s : State) : (setTooLong s).trace = s.trace := rfl
@[simp] theorem setTooLong_sockAddr (s : State) : (setTooLong s).sockAddr = s.sockAddr := rfl
@[simp] theorem setTooLong_status (s : State) : (setTooLong s).status = some .payloadTooLong := rfl
@[simp] theorem setTooLong_mem (s : State) : (setTooLong s).mem = s.mem := rfl
@[simp] theorem setTooLong_results (s : State) : (setTooLong s).results = s.results := rfl
@[simp] theorem setTooLong_prog (s : State) : (setTooLong s).prog = s.prog := rfl
@[simp] theorem setTooLong_running (s : State) : (setTooLong s).running = s.running := rfl
@[simp] theorem setTooLong_scratch (s : State) : (setTooLong s).scratch = s.scratch := rfl
@[simp] theorem setTooLong_env (s : State) : (setTooLong s).env = s.env := rfl
@[simp] theorem setTooLong_cfg (s : State) : (setTooLong s).cfg = s.cfg := rfl
@[simp] theorem setTooLong_turn (s : State) : (setTooLong s).turn = s.turn := rfl
@[simp] theorem setTooLong_tick (s : State) : (setTooLong s).tick = s.tick := rfl
@[simp] theorem setTooLong_draws (s : State) : (setTooLong s).draws = s.draws := rfl

@[simp] theorem advance_ctrl (s : State) : (advance s).ctrl = s.ctrl := rfl
@[simp] theorem advance_clk (s : State) : (advance s).clk = s.clk := rfl
@[simp] theorem advance_sdaFn (s : State) : (advance s).sdaFn = s.sdaFn := rfl
@[simp] theorem advance_sclFn (s : State) : (advance s).sclFn = s.sclFn := rfl
@[simp] theorem advance_trace (s : State) : (advance s).trace = s.trace := rfl
@[simp] theorem advance_sockAddr (s : State) : (advance s).sockAddr = s.sockAddr := rfl
@[simp] theorem advance_status (s : State) : (advance s).status = s.status := rfl
@[simp] theorem advance_mem (s : State) : (advance s).mem = s.mem := rfl
@[simp] theorem advance_results (s : State) : (advance s).results = s.results := rfl
@[simp] theorem advance_prog (s : State) : (advance s).prog = s.prog := rfl
@[simp] theorem advance_running (s : State) : (advance s).running = s.running := rfl
@[simp] theorem advance_scratch (s : State) : (advance s).scratch = s.scratch := rfl
@[simp] theorem advance_env (s : State) : (advance s).env = s.env := rfl
@[simp] theorem advance_cfg (s : State) : (advance s).cfg = s.cfg := rfl
@[simp] theorem advance_turn (s : State) : (advance s).turn = Config.nextMove s.tick := rfl
@[simp] theorem advance_tick (s : State) : (advance s).tick = s.tick + 1 := rfl
@[simp] theorem advance_draws (s : State) : (advance s).draws = s.draws := rfl

@[simp] theorem placeWord_ctrl (w : HostWord) (s : State) : (placeWord w s).ctrl = s.ctrl := rfl
@[simp] theorem placeWord_clk (w : HostWord) (s : State) : (placeWord w s).clk = s.clk := rfl
@[simp] theorem placeWord_sdaFn (w : HostWord) (s : State) : (placeWord w s).sdaFn = s.sdaFn := rfl
@[simp] theorem placeWord_sclFn (w : HostWord) (s : State) : (placeWord w s).sclFn = s.sclFn := rfl
@[simp] theorem placeWord_trace (w : HostWord) (s : State) : (placeWord w s).trace = s.trace := rfl
@[simp] theorem placeWord_sockAddr (w : HostWord) (s : State) : (placeWord w s).sockAddr = s.sockAddr := rfl
@[simp] theorem placeWord_status (w : HostWord) (s : State) : (placeWord w s).status = s.status := rfl
@[simp] theorem placeWord_mem (w : HostWord) (s : State) : (placeWord w s).mem = s.mem := rfl
@[simp] theorem placeWord_results (w : HostWord) (s : State) : (placeWord w s).results = s.results := rfl
@[simp] theorem placeWord_prog (w : HostWord) (s : State) : (placeWord w s).prog = .op w :: s.prog := rfl
@[simp] theorem placeWord_running (w : HostWord) (s : State) : (placeWord w s).running = none := rfl
@[simp] theorem placeWord_scratch (w : HostWord) (s : State) : (placeWord w s).scratch = s.scratch := rfl
@[simp] theorem placeWord_env (w : HostWord) (s : State) : (placeWord w s).env = s.env := rfl
@[simp] theorem placeWord_cfg (w : HostWord) (s : State) : (placeWord w s).cfg = s.cfg := rfl
@[simp] theorem placeWord_turn (w : HostWord) (s : State) : (placeWord w s).turn = .host := rfl
@[simp] theorem placeWord_tick (w : HostWord) (s : State) : (placeWord w s).tick = s.tick := rfl
@[simp] theorem placeWord_draws (w : HostWord) (s : State) : (placeWord w s).draws = s.draws := rfl

@[simp] theorem startOp_enable (p : PendOp) (c : Ctrl) : (startOp p c).enable = c.enable := rfl
@[simp] theorem startOp_mode (p : PendOp) (c : Ctrl) : (startOp p c).mode = c.mode := rfl
@[simp] theorem startOp_smen (p : PendOp) (c : Ctrl) : (startOp p c).smen = c.smen := rfl
@[simp] theorem startOp_ackact (p : PendOp) (c : Ctrl) : (startOp p c).ackact = c.ackact := rfl
@[simp] theorem startOp_mb (p : PendOp) (c : Ctrl) : (startOp p c).mb = false := rfl
@[simp] theorem startOp_sb (p : PendOp) (c : Ctrl) : (startOp p c).sb = false := rfl
@[simp] theorem startOp_buserr (p : PendOp) (c : Ctrl) : (startOp p c).buserr = c.buserr := rfl
@[simp] theorem startOp_rxnack (p : PendOp) (c : Ctrl) : (startOp p c).rxnack = c.rxnack := rfl
@[simp] theorem startOp_busstate (p : PendOp) (c : Ctrl) : (startOp p c).busstate = c.busstate := rfl
@[simp] theorem startOp_syncSwrst (p : PendOp) (c : Ctrl) : (startOp p c).syncSwrst = c.syncSwrst := rfl
@[simp] theorem startOp_syncEnable (p : PendOp) (c : Ctrl) : (startOp p c).syncEnable = c.syncEnable := rfl
@[simp] theorem startOp_sysop (p : PendOp) (c : Ctrl) : (startOp p c).sysop = true := rfl
@[simp] theorem startOp_hdr (p : PendOp) (c : Ctrl) : (startOp p c).hdr = c.hdr := rfl
@[simp] theorem startOp_data (p : PendOp) (c : Ctrl) : (startOp p c).data = c.data := rfl
@[simp] theorem startOp_en (p : PendOp) (c : Ctrl) : (startOp p c).en = c.en := rfl
@[simp] theorem startOp_pend (p : PendOp) (c : Ctrl) : (startOp p c).pend = some p := rfl
@[simp] theorem startOp_busop (p : PendOp) (c : Ctrl) : (startOp p c).busop = c.busop := rfl
@[simp] theorem startOp_ackpend (p : PendOp) (c : Ctrl) : (startOp p c).ackpend = c.ackpend := rfl
@[simp] theorem startOp_dir (p : PendOp) (c : Ctrl) : (startOp p c).dir = c.dir := rfl

@[simp] theorem setReady_enable (r : ReadyFlag) (c : Ctrl) : (setReady r c).enable = c.enable := by cases r <;> rfl
@[simp] theorem setReady_mode (r : ReadyFlag) (c : Ctrl) : (setReady r c).mode = c.mode := by cases r <;> rfl
@[simp] theorem setReady_smen (r : ReadyFlag) (c : Ctrl) : (setReady r c).smen = c.smen := by cases r <;> rfl
@[simp] theorem setReady_ackact (r : ReadyFlag) (c : Ctrl) : (setReady r c).ackact = c.ackact := by cases r <;> rfl
@[simp] theorem setReady_buserr (r : ReadyFlag) (c : Ctrl) : (setReady r c).buserr = c.buserr := by cases r <;> rfl
@[simp] theorem setReady_rxnack (r : ReadyFlag) (c : Ctrl) : (setReady r c).rxnack = c.rxnack := by cases r <;> rfl
@[simp] theorem setReady_busstate (r : ReadyFlag) (c : Ctrl) : (setReady r c).busstate = c.busstate := by cases r <;> rfl
@[simp] theorem setReady_syncSwrst (r : ReadyFlag) (c : Ctrl) : (setReady r c).syncSwrst = c.syncSwrst := by cases r <;> rfl
@[simp] theorem setReady_syncEnable (r : ReadyFlag) (c : Ctrl) : (setReady r c).syncEnable = c.syncEnable := by cases r <;> rfl
@[simp] theorem setReady_sysop (r : ReadyFlag) (c : Ctrl) : (setReady r c).sysop = c.sysop := by cases r <;> rfl
@[simp] theorem setReady_hdr (r : ReadyFlag) (c : Ctrl) : (setReady r c).hdr = c.hdr := by cases r <;> rfl
@[simp] theorem setReady_data (r : ReadyFlag) (c : Ctrl) : (setReady r c).data = c.data := by cases r <;> rfl
@[simp] theorem setReady_en (r : ReadyFlag) (c : Ctrl) : (setReady r c).en = c.en := by cases r <;> rfl
@[simp] theorem setReady_pend (r : ReadyFlag) (c : Ctrl) : (setReady r c).pend = c.pend := by cases r <;> rfl
@[simp] theorem setReady_busop (r : ReadyFlag) (c : Ctrl) : (setReady r c).busop = c.busop := by cases r <;> rfl
@[simp] theorem setReady_ackpend (r : ReadyFlag) (c : Ctrl) : (setReady r c).ackpend = c.ackpend := by cases r <;> rfl
@[simp] theorem setReady_dir (r : ReadyFlag) (c : Ctrl) : (setReady r c).dir = c.dir := by cases r <;> rfl

@[simp] theorem setReady_of_sb (c : Ctrl) : setReady .sb c = { c with sb := true } := rfl
@[simp] theorem setReady_of_mb (c : Ctrl) : setReady .mb c = { c with mb := true } := rfl

/-- Two runs of updates that differ in nothing but the host's position are told apart by it alone. -/
theorem setTodo_todo {s : State} {o : Origin} {l l' : List Stmt} (h : s.running = some { origin := o, todo := l }) :
    (setTodo l' s).running = some { origin := o, todo := l' } := by
  simp [h]

end Sys2Proof.Machine
end

