-- ==== Sys2Proof/Laws/Ops.lean ====
section
/-! SUPPORT. Laws/Ops.lean: one lemma per shared operation, saying all it can do: the guards, a guarded write, `WR(REG, v)`,
the pure statements, an access, a host step of a procedure, and the moves of the controller and the environment. -/

namespace Sys2Proof.Machine

open Sys2Proof.Safety

-- outcomes

@[simp] theorem andThen_next_left {α β : Type} (a : α) (f : α → Out β) : andThen (.next a) f = f a := rfl
@[simp] theorem andThen_fault_left {α β : Type} (r : Fault) (f : α → Out β) : andThen (.fault r) f = .fault r := rfl
@[simp] theorem andThen_refused_left {α β : Type} (r : Refusal) (f : α → Out β) :
    andThen (.refused r) f = .refused r := rfl

theorem andThen_eq_next {α β : Type} {x : Out α} {f : α → Out β} {b : β} :
    andThen x f = .next b ↔ ∃ a, x = .next a ∧ f a = .next b := by
  cases x <;> simp [andThen]

theorem guarded_eq_next {g : Option Fault} {t u : State} : guarded g t = .next u ↔ g = none ∧ u = t := by
  cases g <;> simp [guarded, eq_comm]

-- the guards (R120)

theorem guardSync_eq_none {o : Origin} {s : State} : guardSync o s = none ↔ NoSync s.ctrl := by
  unfold guardSync
  split
  · rename_i h
    simp only [reduceCtorEq, false_iff]
    rintro ⟨h1, h2⟩
    simp [h1, h2] at h
  · rename_i h
    simp only [Bool.or_eq_true, not_or, Bool.not_eq_true] at h
    exact ⟨fun _ => ⟨h.1, h.2⟩, fun _ => rfl⟩

theorem pins_eq_true {s : State} : s.pins = true ↔ s.sdaFn = .i2c ∧ s.sclFn = .i2c := by
  simp [State.pins]

theorem opBusy_eq_false {c : Ctrl} : opBusy c = false ↔ c.sysop = false ∧ c.busop = none := by
  simp [opBusy]

/-- `guard_start` raises nothing exactly when an operation can start. -/
theorem guardStart_eq_none {o : Origin} {s : State} : guardStart o s = none ↔ CanStart s := by
  unfold guardStart
  rw [Option.or_eq_none_iff, guardSync_eq_none]
  constructor
  · rintro ⟨hs, h⟩
    repeat' split at h
    all_goals try (simp at h; done)
    rename_i h1 h2 h3 h4
    obtain ⟨a, b⟩ := opBusy_eq_false.1 (by simpa using h1)
    obtain ⟨c, d⟩ := pins_eq_true.1 (by simpa using h4)
    exact ⟨hs, a, b, by simpa using h2, by simpa [modeController] using h3, c, d⟩
  · rintro ⟨hs, a, b, c, d, e, f⟩
    exact ⟨hs, by simp [opBusy, a, b, c, d, modeController, pins_eq_true.2 ⟨e, f⟩]⟩

-- writes: only the controller changes

/-- A host write changes the controller alone. -/
theorem wrReg_frame {r : Reg} {v : Word} {s t : State} (h : wrReg r v s = .next t) : t = { s with ctrl := t.ctrl } := by
  have key : ∀ {g : Option Fault} {c : Ctrl}, guarded g { s with ctrl := c } = .next t → t = { s with ctrl := t.ctrl } := by
    intro g c hg
    obtain ⟨-, rfl⟩ := guarded_eq_next.1 hg
    rfl
  cases r <;> simp only [wrReg] at h
  · split at h
    · simp only [execWrCtrlaSwrst, Host.Outcome.next.injEq] at h; subst h; rfl
    · exact key h
  · repeat' split at h
    all_goals exact key h
  · exact key h
  · exact key h
  · simp [execWrSyncbusy] at h
  · exact key h
  · exact key h

-- pure statements: only the host's position, its results, `status` and its buffers change

/-- Returning changes the host's position and its results alone. -/
theorem returnTo_frame (r : Ret) (n : Nat) (s : State) :
    ∃ p v, returnTo r n s = { s with running := p, results := v } := by
  induction r generalizing n with
  | top => exact ⟨_, _, rfl⟩
  | status => exact ⟨_, _, rfl⟩
  | burst => exact ⟨_, _, rfl⟩
  | recv next ih =>
    simp only [returnTo]; split
    · exact ⟨_, _, rfl⟩
    · exact ih n
  | frame off src total len =>
    simp only [returnTo]; repeat' split
    all_goals exact ⟨_, _, rfl⟩
  | select dst len next ih =>
    simp only [returnTo]; split
    · exact ih 0
    · exact ⟨_, _, rfl⟩
  | probe a rest =>
    simp only [returnTo]; split
    · exact ⟨_, _, rfl⟩
    · split <;> exact ⟨_, _, rfl⟩
  | field i sz =>
    simp only [returnTo]; split <;> exact ⟨_, _, rfl⟩

/-- What pure statements may change: the host's position, its results, `status` and its buffers. -/
def PureFrame (s t : State) : Prop :=
  t = { s with running := t.running, results := t.results, status := t.status, mem := t.mem, scratch := t.scratch }

theorem PureFrame.refl (s : State) : PureFrame s s := rfl

theorem PureFrame.trans {s t u : State} (h : PureFrame s t) (g : PureFrame t u) : PureFrame s u := by
  unfold PureFrame at h g ⊢
  rw [g, h]

theorem pureFrame_setTodo (l : List Stmt) (s : State) : PureFrame s (setTodo l s) := rfl

theorem pureFrame_returnTo (r : Ret) (n : Nat) (s : State) : PureFrame s (returnTo r n s) := by
  obtain ⟨p, v, h⟩ := returnTo_frame r n s
  rw [h]; rfl

/-- The pure statements change the host's position, its results, `status` and its buffers alone. -/
theorem settle_frame (l : List Stmt) (s : State) : PureFrame s (settle l s) := by
  induction l generalizing s with
  | nil => rfl
  | cons st rest ih =>
    cases st with
    | setStatus st => exact PureFrame.trans (t := { s with status := some st }) rfl (ih { s with status := some st })
    | store dst k d =>
      refine .trans ?_ (ih (dstWrite dst k d s))
      cases dst <;> rfl
    | orRet ret n => simp only [settle]; split <;> first | exact ih s | exact pureFrame_returnTo ret n s
    | retCount ret n => exact pureFrame_returnTo ret n s
    | retVal v => rfl
    | sendLoop src k len ret => simp only [settle]; split <;> first | exact ih s | rfl
    | burstLoop dst k len ret =>
      simp only [settle]
      split
      · rfl
      · split
        · exact PureFrame.trans (t := { s with status := some .success }) rfl (pureFrame_returnTo ret len { s with status := some .success })
        · exact pureFrame_returnTo ret len s
    | _ => rfl

/-- What is left after an access is as pure statements leave it. -/
theorem leave_frame (l : List Stmt) (s : State) : PureFrame s (leave l s) := by
  simp only [leave]
  split
  · exact settle_frame l s
  · rfl

/-- A list that begins with an access has no pure statement to take. -/
theorem settle_access {st : Stmt} (h : isPure st = false) (rest : List Stmt) (s : State) :
    settle (st :: rest) s = setTodo (st :: rest) s := by
  cases st <;> first | rfl | cases h

/-- The host's next statement is an access. -/
def AtAccess (s : State) : Prop := ∀ q, s.running = some q → ∃ st rest, q.todo = st :: rest ∧ isPure st = false

theorem atAccess_finish (v : Option Value) (s : State) : AtAccess (finish v s) := by
  intro q h; cases h

theorem atAccess_setTodo {st : Stmt} (h : isPure st = false) (rest : List Stmt) (s : State) :
    AtAccess (setTodo (st :: rest) s) := by
  intro q hq
  rw [setTodo_running, Option.map_eq_some_iff] at hq
  obtain ⟨r, -, rfl⟩ := hq
  exact ⟨st, rest, rfl, h⟩

/-- Returning ends the procedure the host called, or comes to the caller's next access. -/
theorem returnTo_atAccess (r : Ret) (n : Nat) (s : State) : AtAccess (returnTo r n s) := by
  induction r generalizing n with
  | top => exact atAccess_finish _ _
  | status => exact atAccess_finish _ _
  | burst => exact atAccess_finish _ _
  | recv next ih =>
    simp only [returnTo]; split
    · exact atAccess_setTodo rfl _ _
    · exact ih n
  | frame off src total len =>
    simp only [returnTo]; repeat' split
    all_goals first | exact atAccess_setTodo rfl _ _ | exact atAccess_finish _ _
  | select dst len next ih =>
    simp only [returnTo]; split
    · exact ih 0
    · exact atAccess_setTodo rfl _ _
  | probe a rest =>
    simp only [returnTo]; repeat' split
    all_goals first | exact atAccess_setTodo rfl _ _ | exact atAccess_finish _ _
  | field i sz => simp only [returnTo]; split <;> exact atAccess_finish _ _

/-- Taking the pure statements ends the procedure the host called, or comes to its next access (R8). -/
theorem settle_atAccess (l : List Stmt) (s : State) : AtAccess (settle l s) := by
  induction l generalizing s with
  | nil => exact atAccess_finish _ _
  | cons st rest ih =>
    cases st with
    | setStatus st => exact ih _
    | store dst k d => exact ih _
    | orRet ret n => simp only [settle]; split <;> first | exact ih s | exact returnTo_atAccess ret n s
    | retCount ret n => exact returnTo_atAccess ret n s
    | retVal v => exact atAccess_finish _ _
    | sendLoop src k len ret =>
      simp only [settle]; split <;> first | exact ih s | exact atAccess_setTodo rfl _ _
    | burstLoop dst k len ret =>
      simp only [settle]
      split
      · cases k with
        | zero => exact atAccess_setTodo rfl _ _
        | succ k => exact atAccess_setTodo rfl _ _
      · exact returnTo_atAccess ret len _
    | _ => exact atAccess_setTodo rfl _ _

/-- Pure statements are taken once. -/
theorem settle_settled {s : State} {q : Running} (h : AtAccess s) (hq : s.running = some q) : settle q.todo s = s := by
  obtain ⟨st, rest, ht, hp⟩ := h q hq
  rw [ht, settle_access hp, ← ht]
  obtain ⟨_, _, _, _, _, _, _, _, _, _, r, _, _, _, _, _, _⟩ := s
  simp only at hq
  subst hq
  rfl

/-- What is left after an access stays where it is while it begins with another one. -/
theorem leave_access {st : Stmt} (h : isPure st = false) (rest : List Stmt) (s : State) :
    leave (st :: rest) s = setTodo (st :: rest) s := by
  simp only [leave, settle_access h, ite_self]

-- an access

theorem accessWrite_eq_next {r : Reg} {v : Word} {l l' : List Stmt} {s t : State}
    (h : accessWrite r v l s = .next (t, l')) : wrReg r v s = .next t ∧ l' = l := by
  obtain ⟨a, ha, hb⟩ := andThen_eq_next.1 h
  simp only [Host.Outcome.next.injEq, Prod.mk.injEq] at hb
  exact ⟨hb.1 ▸ ha, hb.2.symm⟩

/-- An access touches neither the trace, the host's results, program and position, the environment nor the parameters. -/
theorem access_frame {o : Origin} {st : Stmt} {s t : State} {l : List Stmt} (h : access o st s = .next (t, l)) :
    t = { s with ctrl := t.ctrl, clk := t.clk, sdaFn := t.sdaFn, sclFn := t.sclFn, sockAddr := t.sockAddr,
                 status := t.status, mem := t.mem, scratch := t.scratch, draws := t.draws } := by
  have wr : ∀ {r v k}, accessWrite r v k s = .next (t, l) →
      t = { s with ctrl := t.ctrl, clk := t.clk, sdaFn := t.sdaFn, sclFn := t.sclFn, sockAddr := t.sockAddr,
                   status := t.status, mem := t.mem, scratch := t.scratch, draws := t.draws } := by
    intro r v k h
    have := wrReg_frame (accessWrite_eq_next h).1
    rw [this]
  cases st with
  | wr r v => exact wr h
  | wrData src k =>
    simp only [access] at h
    split at h
    · simp at h
    · exact wr h
  | frame off src total len =>
    simp only [access, accessFrame] at h
    split at h
    · simp at h
    · split at h
      · simp only [Host.Outcome.next.injEq, Prod.mk.injEq] at h; rw [← h.1]; rfl
      · exact wr h
  | probeTry a rest =>
    simp only [access, accessProbe] at h
    split at h
    · simp at h
    · have := wrReg_frame (accessWrite_eq_next h).1
      rw [this]
  | service x =>
    simp only [access, Host.Outcome.next.injEq, Prod.mk.injEq] at h
    rw [← h.1]
    cases x with
    | pin p k => cases p <;> rfl
    | _ => rfl
  | _ => simp only [access, Host.Outcome.next.injEq, Prod.mk.injEq] at h; rw [← h.1]

-- a host step of a procedure

/-- What a host step of a procedure can do: nothing is in progress, the procedure ends on its pure statements, or they are
taken up to the next access, that access is made, and the rest is left. -/
theorem resume_cases {s t : State} (h : resume s = .next t) :
    (s.running = none ∧ t = s) ∨
    (∃ r, s.running = some r ∧ (t = settle r.todo s ∨ t = finish none (settle r.todo s))) ∨
    (∃ r o st rest u l, s.running = some r ∧
      (settle r.todo s).running = some { origin := o, todo := st :: rest } ∧
      access o st (settle r.todo s) = .next (u, l) ∧ t = leave (l ++ rest) u) := by
  unfold resume at h
  split at h
  · rename_i hr
    simp only [Host.Outcome.next.injEq] at h
    exact .inl ⟨hr, h.symm⟩
  · rename_i r hr
    simp only at h
    split at h
    · simp only [Host.Outcome.next.injEq] at h
      exact .inr (.inl ⟨r, hr, .inl h.symm⟩)
    · rename_i q hq
      obtain ⟨o, todo⟩ := q
      cases todo with
      | nil =>
        simp only [Host.Outcome.next.injEq] at h
        exact .inr (.inl ⟨r, hr, .inr h.symm⟩)
      | cons st rest =>
        obtain ⟨⟨u, l⟩, ha, hb⟩ := andThen_eq_next.1 h
        simp only [Host.Outcome.next.injEq] at hb
        exact .inr (.inr ⟨r, o, st, rest, u, l, hr, hq, ha, hb.symm⟩)

/-- A host step of a procedure touches neither the trace, the host's program, the environment nor the parameters. -/
theorem resume_frame {s t : State} (h : resume s = .next t) :
    t = { s with ctrl := t.ctrl, clk := t.clk, sdaFn := t.sdaFn, sclFn := t.sclFn, sockAddr := t.sockAddr,
                 status := t.status, mem := t.mem, scratch := t.scratch, draws := t.draws,
                 results := t.results, running := t.running } := by
  rcases resume_cases h with ⟨-, rfl⟩ | ⟨r, -, rfl | rfl⟩ | ⟨r, o, st, rest, u, l, -, -, ha, rfl⟩
  · rfl
  · rw [settle_frame r.todo s]
  · rw [settle_frame r.todo s]; rfl
  · have hl := leave_frame (l ++ rest) u
    have hs := settle_frame r.todo s
    unfold PureFrame at hl hs
    rw [hl, access_frame ha, hs]

/-- Calling a procedure touches neither the trace, the host's program, the environment nor the parameters. -/
theorem call_frame {o : Origin} {l : List Stmt} {s t : State} (h : call o l s = .next t) :
    t = { s with ctrl := t.ctrl, clk := t.clk, sdaFn := t.sdaFn, sclFn := t.sclFn, sockAddr := t.sockAddr,
                 status := t.status, mem := t.mem, scratch := t.scratch, draws := t.draws,
                 results := t.results, running := t.running } := by
  have := resume_frame h
  rw [this]

-- the bytes `rfa.unpack` reads

/-- A list of at least size(f) bytes is read as it is. -/
theorem fieldBytes_of_le {f : Field} {bs : List Byte} (h : f.size ≤ bs.length) : fieldBytes f bs = bs := by
  simp [fieldBytes, Nat.sub_eq_zero_of_le h]

/-- A shorter list is read with some bytes behind it, up to the field's size. -/
theorem fieldBytes_of_lt {f : Field} {bs : List Byte} (h : bs.length < f.size) :
    ∃ rest, bs.length + rest.length = f.size ∧ fieldBytes f bs = bs ++ rest :=
  ⟨_, by simp; omega, rfl⟩

-- the environment's answers: only the environment changes

theorem drawHeader_frame (h : Byte) (s : State) : ∃ a e, drawHeader h s = (a, { s with env := e }) := by
  unfold drawHeader
  split <;> exact ⟨_, _, rfl⟩

theorem drawData_frame (b : Byte) (s : State) : ∃ a e, drawData b s = (a, { s with env := e }) := by
  unfold drawData
  repeat' split
  all_goals exact ⟨_, _, rfl⟩

theorem drawByte_frame (s : State) : ∃ a e, drawByte s = (a, { s with env := e }) := by
  unfold drawByte
  repeat' split
  all_goals exact ⟨_, _, rfl⟩

-- moves of the controller and the environment: only the controller, the trace and the environment change

/-- What the controller and the environment may change, and the trace only by growing. -/
def AgentFrame (s t : State) : Prop :=
  ∃ c e es, t = { s with ctrl := c, env := e, trace := s.trace ++ es }

theorem AgentFrame.refl (s : State) : AgentFrame s s := ⟨s.ctrl, s.env, [], by simp⟩

theorem AgentFrame.trans {s t u : State} (h : AgentFrame s t) (g : AgentFrame t u) : AgentFrame s u := by
  obtain ⟨c, e, es, rfl⟩ := h
  obtain ⟨c', e', es', rfl⟩ := g
  exact ⟨c', e', es ++ es', by simp⟩

theorem agentFrame_emit (v : BusEvent) (s : State) (c : Ctrl) (e : BusEnv) :
    AgentFrame s (emit v { s with ctrl := c, env := e }) := ⟨c, e, [v], rfl⟩

theorem agentFrame_ctrl (s : State) (c : Ctrl) : AgentFrame s { s with ctrl := c } := ⟨c, s.env, [], by simp⟩

theorem drivePendingAck_frame (k : Ack) (s : State) : AgentFrame s (drivePendingAck k s) := by
  unfold drivePendingAck
  split
  · exact ⟨_, s.env, [.mack k], rfl⟩
  · exact .refl s

theorem busError_frame (f : ReadyFlag) (s : State) : AgentFrame s (busError f s) := ⟨_, s.env, [.busErr], rfl⟩

theorem receiveByte_frame (s : State) : AgentFrame s (receiveByte s) := by
  obtain ⟨a, e, h⟩ := drawByte_frame s
  unfold receiveByte
  rw [h]
  cases a with
  | busErr => exact .trans ⟨s.ctrl, e, [], by simp⟩ (busError_frame _ _)
  | byte d => exact ⟨_, e, [.rx d], rfl⟩

theorem headerAnswered_frame (h : Byte) (a : Ack) (s : State) : AgentFrame s (headerAnswered h a s) := by
  have base : AgentFrame s (emit (.hdr h a)
      { s with ctrl := { s.ctrl with rxnack := ackBit a, busstate := .owner, dir := headerRead h } }) :=
    ⟨_, s.env, [.hdr h a], rfl⟩
  unfold headerAnswered
  simp only
  split
  · exact base.trans (agentFrame_ctrl _ _)
  · cases a with
    | ack => exact base.trans (receiveByte_frame _)
    | nack => exact base.trans (agentFrame_ctrl _ _)

theorem sendHeader_frame (h : Byte) (s : State) : AgentFrame s (sendHeader h s) := by
  obtain ⟨a, e, hd⟩ := drawHeader_frame h s
  have base : AgentFrame s { s with env := e } := ⟨s.ctrl, e, [], by simp⟩
  unfold sendHeader
  rw [hd]
  cases a with
  | busErr => exact base.trans (busError_frame _ _)
  | ack => exact base.trans (headerAnswered_frame _ _ _)
  | nack => exact base.trans (headerAnswered_frame _ _ _)

/-- A move of the controller or the environment changes the controller and the environment, and adds to the trace. -/
theorem fire_frame (m : Move) (s : State) : AgentFrame s (fire m s) := by
  have emit' : ∀ (v : BusEvent) (t : State), AgentFrame t (emit v t) := fun v t => ⟨t.ctrl, t.env, [v], rfl⟩
  have opt : ∀ (b : Bool) (v : BusEvent), AgentFrame s (if b then emit v s else s) := by
    intro b v; cases b
    · exact .refl s
    · exact emit' v s
  cases m with
  | host => exact .refl s
  | swrstSync => exact (opt _ _).trans (agentFrame_ctrl _ _)
  | enableSync =>
    simp only [fire, fireEnable]
    split
    · exact (opt _ _).trans (agentFrame_ctrl _ _)
    · exact agentFrame_ctrl _ _
  | sysopSync =>
    simp only [fire, fireSysop]
    split
    · exact .refl s
    all_goals exact agentFrame_ctrl _ _
  | busIdle => exact agentFrame_ctrl _ _
  | bus =>
    simp only [fire, fireBus]
    split
    · exact .refl s
    · exact (((drivePendingAck_frame _ _).trans (emit' _ _)).trans (sendHeader_frame _ _)).trans (agentFrame_ctrl _ _)
    · rename_i b _
      obtain ⟨a, e, hd⟩ := drawData_frame b s
      unfold fireTx
      rw [hd]
      cases a with
      | busErr =>
        have base : AgentFrame s { s with env := e } := ⟨s.ctrl, e, [], by simp⟩
        exact (base.trans (busError_frame _ _)).trans (agentFrame_ctrl _ _)
      | ack => exact ⟨_, e, [.tx b .ack], rfl⟩
      | nack => exact ⟨_, e, [.tx b .nack], rfl⟩
    · exact ((drivePendingAck_frame _ _).trans (receiveByte_frame _)).trans (agentFrame_ctrl _ _)
    · exact (((drivePendingAck_frame _ _).trans (emit' _ _)).trans (sendHeader_frame _ _)).trans (agentFrame_ctrl _ _)
    · refine AgentFrame.trans (drivePendingAck_frame (ackOther s.ctrl) s) ?_
      unfold fireStop
      simp only
      split
      · exact ⟨_, _, [.stop], rfl⟩
      · exact agentFrame_ctrl _ _

/-- A move that may not be enabled changes no more. -/
theorem agentMove_frame (m : Move) (s : State) : AgentFrame s (agentMove m s) := by
  unfold agentMove
  split
  · exact fire_frame m s
  · exact .refl s

end Sys2Proof.Machine
end

