-- ==== Sys2Proof/Laws/Controller.lean ====
section
/-! SUPPORT. Laws/Controller.lean: what the shared parts of the bus steps do, in the terms of Safety: the pending
acknowledge, a bus error, a byte's reception, a header and what follows it, and which step is enabled. -/

namespace Sys2Proof.Machine

open Sys2Proof.Safety

theorem busError_eq (f : ReadyFlag) (s : State) :
    busError f s = { s with trace := s.trace ++ [.busErr], ctrl := busErrorCtrl f s.ctrl } := by
  cases f <;> simp [busError, busErrorCtrl, setReady, emit]

theorem receiveByte_eq (s : State) : receiveByte s = byteIn s := by
  unfold receiveByte byteIn
  split <;> simp_all [busError_eq, emit]

theorem sendHeader_eq (h : Byte) (s : State) : sendHeader h s = headerOut h s := by
  unfold sendHeader headerOut
  cases hh : h.getLsbD 0
  · split
    · rename_i e; simp only [e, busError_eq, headerRead, readyOf, hh]
    · rename_i e; simp only [e, headerAnswered, headerRead, ackBit, emit, hh]; rfl
    · rename_i e; simp only [e, headerAnswered, headerRead, ackBit, emit, hh]; rfl
  · split
    · rename_i e; simp only [e, busError_eq, headerRead, readyOf, hh]
    · rename_i e; simp only [e, headerAnswered, headerRead, ackBit, receiveByte_eq, emit, hh]; rfl
    · rename_i s1 e; simp only [e, headerAnswered, headerRead, ackBit, emit, hh]
      cases hf : s1.cfg.readNackFlag <;> simp [setReady]

/-- `SimTarget` never answers a bus error, and never stalls (R176). -/
theorem sim_never_busErr {s : State} {t : SimTarget} (h : s.env = .sim t) (b : Byte) :
    (drawHeader b s).1 ≠ .busErr ∧ (drawData b s).1 ≠ .busErr ∧ (drawByte s).1 ≠ .busErr ∧ stalled s = false := by
  have ack (a : Ack) : ackAnswer a ≠ .busErr := by cases a <;> decide
  refine ⟨?_, ?_, ?_, ?_⟩
  · simp only [drawHeader, h]; exact ack _
  · simp only [drawData, h]; split <;> exact ack _
  · simp only [drawByte, h]; split <;> exact ByteDraw.noConfusion
  · simp only [stalled, h]

/-- The environment's answer to a data byte depends on itself and the trace alone (R174). -/
theorem drawData_congr (b : Byte) {s u : State} (he : u.env = s.env) (ht : u.trace = s.trace) :
    drawData b u = ((drawData b s).1, { u with env := (drawData b s).2.env }) := by
  unfold drawData
  rw [he, ht]
  rcases u with ⟨_, _, _, _, _, _, _, _, _, _, _, _, e, _, _, _, _⟩
  simp only at he ht
  subst he ht
  cases h : s.env with
  | oracle => simp [h]
  | sim t => cases g : simData t b <;> simp [h, g]

/-- Whether the environment stalls depends on itself, the trace and the step count alone (R174). -/
theorem stalled_congr {s u : State} (he : u.env = s.env) (ht : u.trace = s.trace) (hn : u.tick = s.tick) :
    stalled u = stalled s := by
  unfold stalled
  rw [he, ht, hn]

theorem drivePendingAck_other (s : State) :
    drivePendingAck (ackOther s.ctrl) s =
      { s with ctrl := { s.ctrl with ackpend := false }, trace := s.trace ++ otherAck s.ctrl } := by
  unfold drivePendingAck otherAck ackOther
  cases h : s.ctrl.ackpend <;> simp [emit]
  obtain ⟨c⟩ := s
  obtain ⟨c⟩ := c
  simp_all

theorem drivePendingAck_continue (s : State) :
    drivePendingAck (ackContinue s.ctrl) s =
      { s with ctrl := { s.ctrl with ackpend := false }, trace := s.trace ++ continueAck s.ctrl } := by
  unfold drivePendingAck continueAck ackContinue
  cases h : s.ctrl.ackpend <;> simp [emit]
  obtain ⟨c⟩ := s
  obtain ⟨c⟩ := c
  simp_all

/-- An address phase: the pending acknowledge, the START, and the header with what follows it (R164). -/
theorem fireAddr_eq (h : Byte) (s : State) :
    fireAddr h s = endOp (headerOut h { s with
      ctrl := { s.ctrl with ackpend := false }, trace := s.trace ++ otherAck s.ctrl ++ [startEvent s.ctrl] }) := by
  simp only [fireAddr, drivePendingAck_other, sendHeader_eq, startEvent, emit]

/-- READ_CONTINUE: the pending acknowledge and the next byte (R167). -/
theorem fireReadContinue_eq (s : State) :
    fireReadContinue s = endCmd (byteIn { s with
      ctrl := { s.ctrl with ackpend := false }, trace := s.trace ++ continueAck s.ctrl }) := by
  simp only [fireReadContinue, drivePendingAck_continue, receiveByte_eq]

/-- REPEAT_START: the pending acknowledge, a repeated START and the header last written to ADDR (R168). -/
theorem fireRepeatStart_eq (s : State) :
    fireRepeatStart s = endCmd (headerOut s.ctrl.hdr { s with
      ctrl := { s.ctrl with ackpend := false }, trace := s.trace ++ otherAck s.ctrl ++ [.rstart] }) := by
  simp only [fireRepeatStart, drivePendingAck_other, sendHeader_eq, emit]

/-- STOP: the pending acknowledge and, on an owned bus, a STOP (R169). -/
theorem fireStop_eq (s : State) :
    fireStop s = { s with
      ctrl :=
        { s.ctrl with
          ackpend := false, busop := none, sysop := false
          busstate := if s.ctrl.busstate = .owner then .idle else s.ctrl.busstate }
      trace := s.trace ++ otherAck s.ctrl ++ (if s.ctrl.busstate = .owner then [.stop] else []) } := by
  simp only [fireStop, drivePendingAck_other, endCmd, emit]
  split <;> simp

/-- A bus step on the machine's turn. -/
theorem step_bus {s : State} (ht : s.turn = .bus) (he : enabled .bus s = true) :
    step s = .next (advance (fireBus s)) := by
  simp [step, ht, moveAs, agentMove, he, fire]

theorem enabled_bus {s : State} (hb : busReady s.ctrl = true) (he : s.ctrl.en = true) (hc : s.clk = true)
    (hr : s.ctrl.syncSwrst = false) (hs : stalled s = false) : enabled .bus s = true := by
  simp [enabled, hb, he, hc, hr, hs]

end Sys2Proof.Machine
end

