-- ==== Sys2Proof/Laws/Exec.lean ====
section
/-! SUPPORT. Laws/Exec.lean: what the meaning of an instruction, a program entry and a host step can change: never the
trace, the environment, the parameters or the model's own turn and tick; the program only by taking an entry off. -/

namespace Sys2Proof.Machine

open Sys2Proof.Safety

/-- What a host step may change. -/
def HostFrame (s t : State) : Prop :=
  t = { s with
    ctrl := t.ctrl, clk := t.clk, sdaFn := t.sdaFn, sclFn := t.sclFn, sockAddr := t.sockAddr
    status := t.status, mem := t.mem, scratch := t.scratch, draws := t.draws
    results := t.results, running := t.running }

theorem hostFrame_next {s t u : State} (h : (Host.Outcome.next u : Out State) = .next t) (hu : HostFrame s u) :
    HostFrame s t := by
  cases h; exact hu

theorem hostFrame_guarded {g : Option Fault} {s t u : State} (h : guarded g u = .next t) (hu : HostFrame s u) :
    HostFrame s t := by
  obtain ⟨-, rfl⟩ := guarded_eq_next.1 h; exact hu

theorem hostFrame_call {o : Origin} {l : List Stmt} {s t u : State} (h : call o l u = .next t) (hu : HostFrame s u) :
    HostFrame s t := by
  have ht := call_frame h
  unfold HostFrame at hu ⊢
  rw [ht, hu]

/-- The meaning of an instruction changes no more. -/
theorem exec_frame {i : Instr} {s t : State} (h : exec i s = .next t) : HostFrame s t := by
  have rd : ∀ {offset : Nat} {d : Dst} {len : Nat} {ret : Ret} {o : Origin} {u : State}, HostFrame s u →
      readRegs o offset d len ret u = .next t → HostFrame s t := by
    intro offset d len ret o u hu hr
    unfold readRegs at hr
    split at hr
    · refine hostFrame_call hr ?_
      unfold HostFrame at hu ⊢; rw [hu]; rfl
    · exact hostFrame_call hr hu
  have wr : ∀ {offset : Nat} {b : Buf} {len : Nat} {o : Origin}, writeRegs o offset b len s = .next t →
      HostFrame s t := by
    intro offset b len o hw
    unfold writeRegs at hw
    split at hw
    · exact hostFrame_next hw rfl
    · exact hostFrame_call hw rfl
  cases i <;> simp only [exec] at h
  case engMakeHeader a r =>
    simp only [execEngMakeHeader] at h; split at h
    · exact hostFrame_next h rfl
    · cases h
  case engSetAddrSync a r =>
    simp only [execEngSetAddrSync] at h; split at h
    · exact hostFrame_call h rfl
    · cases h
  case extPinSetFunction p k => cases p <;> exact hostFrame_next h rfl
  case sockConnect a =>
    simp only [execSockConnect] at h; split at h
    · cases h
    · exact hostFrame_next h rfl
  case sockSend d len =>
    simp only [execSockSend] at h; split at h
    · exact hostFrame_next h rfl
    · exact hostFrame_call h rfl
  case sockRecv d len =>
    simp only [execSockRecv] at h; split at h
    · cases h
    · exact hostFrame_call h rfl
  case sockProbe cs =>
    simp only [execSockProbe] at h; split at h
    · exact hostFrame_next h rfl
    · exact hostFrame_call h rfl
  case rfaLayoutCheck m =>
    simp only [execRfaLayoutCheck] at h; split at h
    · exact hostFrame_next h rfl
    · cases h
  case rfaOffset r =>
    simp only [execRfaOffset] at h; split at h
    · exact hostFrame_next h rfl
    · cases h
  case rfaSize r =>
    simp only [execRfaSize] at h; split at h
    · exact hostFrame_next h rfl
    · cases h
  case rfaWrite o d len =>
    simp only [execRfaWrite] at h; split at h
    · cases h
    · split at h
      · cases h
      · exact wr h
  case rfaRead o d len =>
    simp only [execRfaRead] at h; split at h
    · cases h
    · split at h
      · cases h
      · refine rd ?_ h; rfl
  case rfaPack f vals =>
    simp only [execRfaPack] at h; split at h
    · split at h
      · exact hostFrame_next h rfl
      · cases h
    · cases h
  case rfaReadField r =>
    simp only [execRfaReadField] at h; split at h
    · cases h
    · split at h
      · cases h
      · refine rd ?_ h; rfl
  case rfaWriteField r vals =>
    simp only [execRfaWriteField] at h; split at h
    · cases h
    · split at h
      · split at h
        · cases h
        · split at h
          · cases h
          · exact wr h
      · cases h
  case wrSyncbusy v => cases h
  all_goals first
    | exact hostFrame_next h rfl
    | exact hostFrame_guarded h rfl
    | exact hostFrame_call h rfl

/-- An action of the host's own changes no more. -/
theorem hostAct_frame {a : HostAct} {s t : State} (h : hostAct a s = .next t) : HostFrame s t := by
  cases a <;> simp only [hostAct] at h
  case memRead addr n =>
    split at h
    · exact hostFrame_next h rfl
    · cases h
  case readStatus =>
    split at h
    · exact hostFrame_next h rfl
    · cases h
  all_goals first
    | exact hostFrame_next h rfl
    | exact hostFrame_call h rfl

/-- A program entry changes no more. -/
theorem runEntry_frame {x : Item} {s t : State} (h : runEntry x s = .next t) : HostFrame s t := by
  simp only [runEntry] at h
  split at h
  · cases h
  · exact exec_frame h
  · split at h
    · exact hostAct_frame h
    · exact hostFrame_next h rfl

/-- A host step goes on with the procedure in progress, takes the next program entry, or does nothing. -/
theorem hostMove_cases {s t : State} (h : hostMove s = .next t) :
    (s.running ≠ none ∧ resume s = .next t) ∨ (s.running = none ∧ s.prog = [] ∧ t = s) ∨
      (s.running = none ∧ ∃ x rest, s.prog = x :: rest ∧ runEntry x { s with prog := rest } = .next t) := by
  unfold hostMove at h
  split at h
  · rename_i e; exact .inl ⟨by simp [e], h⟩
  · rename_i e
    split at h
    · rename_i p; cases h; exact .inr (.inl ⟨e, p, rfl⟩)
    · rename_i x rest p; exact .inr (.inr ⟨e, x, rest, p, h⟩)

/-- A host step touches neither the trace, the environment nor the parameters. -/
theorem hostMove_frame {s t : State} (h : hostMove s = .next t) : HostFrame { s with prog := t.prog } t := by
  rcases hostMove_cases h with ⟨-, h⟩ | ⟨-, -, rfl⟩ | ⟨-, x, rest, -, h⟩
  · have := resume_frame h
    unfold HostFrame; rw [this]
  · rfl
  · have := runEntry_frame h
    unfold HostFrame at this ⊢; rw [this]

/-- A step is a host step, or a move of the controller or the environment, which never stops. -/
theorem step_cases {s t : State} (h : step s = .next t) :
    (s.turn = .host ∧ ∃ u, hostMove s = .next u ∧ t = advance u) ∨
      (s.turn ≠ .host ∧ t = advance (agentMove s.turn s)) := by
  unfold step at h
  split at h
  · rename_i u hu
    cases h
    cases hm : s.turn <;> rw [hm] at hu <;> simp only [moveAs] at hu
    case host => exact .inl ⟨rfl, u, hu, rfl⟩
    all_goals cases hu; exact .inr ⟨by simp, rfl⟩
  · cases h
  · cases h

end Sys2Proof.Machine
end

