-- ==== Sys2Proof/Laws/PerInstr.lean ====
section
/-! SUPPORT. Laws/PerInstr.lean: the family Row. An instruction's host word is an instance of its row of
spec/opcode_table.json: the bits its mask names are the bits its match gives, or its procedure id is the row's. The mask and
match numbers are the table's own. -/

namespace Sys2Proof.Laws.Row

/-- What spec/opcode_table.json fixes in a row's words: mask and match of a 48-bit descriptor, or a procedure id. -/
inductive Pattern where
  | hacc (mask fixed : BitVec 48)
  | proc (id : Byte)
deriving DecidableEq, Repr

/-- A host word is an instance of a row. -/
def Pattern.fits : Pattern → HostWord → Bool
  | .hacc mask fixed, .hacc d => d &&& mask == fixed
  | .proc id, .proc id' _ => id == id'
  | .hacc _ _, .proc _ _ => false
  | .proc _, .hacc _ => false

/-- The row of an instruction (R101, R100). -/
def row : Instr → Pattern
  | .rdCtrla => .hacc 0xFFFF00000000#48 0x000000000000#48
  | .rdCtrlb => .hacc 0xFFFF00000000#48 0x000400000000#48
  | .rdIntflag => .hacc 0xFFFF00000000#48 0x001800000000#48
  | .rdStatus => .hacc 0xFFFF00000000#48 0x001A00000000#48
  | .rdSyncbusy => .hacc 0xFFFF00000000#48 0x001C00000000#48
  | .rdAddr => .hacc 0xFFFF00000000#48 0x002400000000#48
  | .rdData => .hacc 0xFFFF00000000#48 0x002800000000#48
  | .wrCtrlaSwrst _ => .hacc 0xFFFF00000001#48 0x010000000001#48
  | .wrCtrlaConfig _ => .hacc 0xFFFF00000001#48 0x010000000000#48
  | .wrCtrlbNoop _ => .hacc 0xFFFF00030000#48 0x010400000000#48
  | .wrCtrlbRepeatStart _ => .hacc 0xFFFF00030000#48 0x010400010000#48
  | .wrCtrlbReadContinue _ => .hacc 0xFFFF00030000#48 0x010400020000#48
  | .wrCtrlbStop _ => .hacc 0xFFFF00030000#48 0x010400030000#48
  | .wrIntflag _ => .hacc 0xFFFF00000000#48 0x011800000000#48
  | .wrStatus _ => .hacc 0xFFFF00000000#48 0x011A00000000#48
  | .wrSyncbusy _ => .hacc 0xFFFF00000000#48 0x011C00000000#48
  | .wrAddr _ => .hacc 0xFFFF00000000#48 0x012400000000#48
  | .wrData _ => .hacc 0xFFFF00000000#48 0x012800000000#48
  | .bccReset => .proc 0x01#8
  | .bccEnable => .proc 0x02#8
  | .bccDisable => .proc 0x03#8
  | .bccWaitSync _ => .proc 0x04#8
  | .bccSetMode _ => .proc 0x05#8
  | .bccGetMode => .proc 0x06#8
  | .bccInit => .proc 0x07#8
  | .extClockAttach => .proc 0x08#8
  | .extClockDetach => .proc 0x09#8
  | .extPinSetFunction _ _ => .proc 0x0A#8
  | .extGetFrequency => .proc 0x0B#8
  | .engMakeHeader _ _ => .proc 0x10#8
  | .engParseHeader _ => .proc 0x11#8
  | .engWaitFlag _ => .proc 0x12#8
  | .engSetAddrSync _ _ => .proc 0x13#8
  | .engSendDataSync _ => .proc 0x14#8
  | .engRecvDataSync _ => .proc 0x15#8
  | .engRecvBurst _ _ => .proc 0x16#8
  | .engSendCmd _ => .proc 0x17#8
  | .engSendAck => .proc 0x18#8
  | .engSendNack => .proc 0x19#8
  | .sockConnect _ => .proc 0x20#8
  | .sockSend _ _ => .proc 0x21#8
  | .sockRecv _ _ => .proc 0x22#8
  | .sockProbe _ => .proc 0x23#8
  | .rfaLayoutCheck _ => .proc 0x30#8
  | .rfaOffset _ => .proc 0x31#8
  | .rfaSize _ => .proc 0x32#8
  | .rfaTotalSize _ => .proc 0x33#8
  | .rfaWrite _ _ _ => .proc 0x34#8
  | .rfaRead _ _ _ => .proc 0x35#8
  | .rfaUnpack _ _ => .proc 0x36#8
  | .rfaPack _ _ => .proc 0x37#8
  | .rfaReadField _ => .proc 0x38#8
  | .rfaWriteField _ _ => .proc 0x39#8

/-- The statement of the family: a well-formed instruction's word is an instance of its own row. -/
def Statement (i : Instr) : Prop := i.wf = true → (row i).fits (encode i) = true

/-- A mask over a descriptor with all of Z, W and OFF keeps them, and acts on DATA alone. -/
theorem mask_split (a : BitVec 16) (v m : BitVec 32) : (a ++ v) &&& (0xFFFF#16 ++ m) = a ++ (v &&& m) := by
  rw [BitVec.and_append]; congr 1; exact BitVec.and_allOnes

/-- The SWRST bit of a CTRLA value. -/
theorem and_swrst (v : Word) : v &&& 0x1#32 = if v.getLsbD 0 then 1#32 else 0#32 := by
  apply BitVec.eq_of_getLsbD_eq; intro i hi
  by_cases h0 : i = 0
  · subst h0; cases h : v.getLsbD 0 <;> simp_all
  · have : (1#32).getLsbD i = false := by simp [h0]
    rw [BitVec.getLsbD_and, this]; split <;> simp [h0]

/-- The CMD bits of a CTRLB value. -/
theorem and_cmd (v : Word) : v &&& 0x30000#32 = (ctrlbCmdBits v).setWidth 32 <<< 16 := by
  apply BitVec.eq_of_getLsbD_eq; intro i hi
  have bits : ∀ i, i < 32 → (0x30000#32).getLsbD i = (decide (16 ≤ i) && decide (i < 18)) := by decide
  rw [BitVec.getLsbD_and, bits i hi]
  have h18 : (i - 16 < 2) ↔ i < 18 := by omega
  by_cases h : 16 ≤ i
  · have e : 16 + (i - 16) = i := by omega
    simp [ctrlbCmdBits, hi, h, e, h18]
    rw [Bool.and_comm]
    have : decide (i < 16) = false := by simp; omega
    simp [this]
  · simp [h]

/-- A descriptor fits a row that fixes Z, W and OFF alone. -/
theorem fits_reg (w : Bool) (r : Reg) (v : Word) :
    (Pattern.hacc 0xFFFF00000000#48 (0#7 ++ BitVec.ofBool w ++ r.offset ++ 0#32)).fits (haccWord w r v) = true := by
  simp only [Pattern.fits, haccWord, beq_iff_eq]
  rw [show 0xFFFF00000000#48 = 0xFFFF#16 ++ 0x0#32 from rfl, mask_split, BitVec.and_zero]

/-- A descriptor fits a row that fixes DATA bits as well. -/
theorem fits_data (w : Bool) (r : Reg) (v m x : Word) (h : v &&& m = x) :
    (Pattern.hacc (0xFFFF#16 ++ m) (0#7 ++ BitVec.ofBool w ++ r.offset ++ x)).fits (haccWord w r v) = true := by
  simp only [Pattern.fits, haccWord, beq_iff_eq]
  rw [mask_split, h]

theorem rdCtrla : Statement .rdCtrla := fun _ => fits_reg false .ctrla _

theorem rdCtrlb : Statement .rdCtrlb := fun _ => fits_reg false .ctrlb _

theorem rdIntflag : Statement .rdIntflag := fun _ => fits_reg false .intflag _

theorem rdStatus : Statement .rdStatus := fun _ => fits_reg false .status _

theorem rdSyncbusy : Statement .rdSyncbusy := fun _ => fits_reg false .syncbusy _

theorem rdAddr : Statement .rdAddr := fun _ => fits_reg false .addr _

theorem rdData : Statement .rdData := fun _ => fits_reg false .data _

theorem wrCtrlaSwrst (v : Word) : Statement (.wrCtrlaSwrst v) := fun h =>
  fits_data true .ctrla v 0x1#32 0x1#32 (by rw [and_swrst]; exact if_pos h)

theorem wrCtrlaConfig (v : Word) : Statement (.wrCtrlaConfig v) := fun h => by
  have h' : v.getLsbD 0 = false := by simpa [Instr.wf] using h
  exact fits_data true .ctrla v 0x1#32 0x0#32 (by rw [and_swrst, h']; rfl)

theorem wrCtrlbNoop (v : Word) : Statement (.wrCtrlbNoop v) := fun h => by
  have h' : ctrlbCmdBits v = 0#2 := by simpa [Instr.wf] using h
  exact fits_data true .ctrlb v 0x30000#32 0x00000#32 (by rw [and_cmd, h']; rfl)

theorem wrCtrlbRepeatStart (v : Word) : Statement (.wrCtrlbRepeatStart v) := fun h => by
  have h' : ctrlbCmdBits v = 1#2 := by simpa [Instr.wf] using h
  exact fits_data true .ctrlb v 0x30000#32 0x10000#32 (by rw [and_cmd, h']; rfl)

theorem wrCtrlbReadContinue (v : Word) : Statement (.wrCtrlbReadContinue v) := fun h => by
  have h' : ctrlbCmdBits v = 2#2 := by simpa [Instr.wf] using h
  exact fits_data true .ctrlb v 0x30000#32 0x20000#32 (by rw [and_cmd, h']; rfl)

theorem wrCtrlbStop (v : Word) : Statement (.wrCtrlbStop v) := fun h => by
  have h' : ctrlbCmdBits v = 3#2 := by simpa [Instr.wf] using h
  exact fits_data true .ctrlb v 0x30000#32 0x30000#32 (by rw [and_cmd, h']; rfl)

theorem wrIntflag (v : Byte) : Statement (.wrIntflag v) := fun _ => fits_reg true .intflag _

theorem wrStatus (v : BitVec 16) : Statement (.wrStatus v) := fun _ => fits_reg true .status _

theorem wrSyncbusy (v : Word) : Statement (.wrSyncbusy v) := fun _ => fits_reg true .syncbusy _

theorem wrAddr (v : Word) : Statement (.wrAddr v) := fun _ => fits_reg true .addr _

theorem wrData (v : Byte) : Statement (.wrData v) := fun _ => fits_reg true .data _

theorem bccReset : Statement .bccReset := fun _ => rfl

theorem bccEnable : Statement .bccEnable := fun _ => rfl

theorem bccDisable : Statement .bccDisable := fun _ => rfl

theorem bccWaitSync (e : Event) : Statement (.bccWaitSync e) := fun _ => rfl

theorem bccSetMode (m : Role) : Statement (.bccSetMode m) := fun _ => rfl

theorem bccGetMode : Statement .bccGetMode := fun _ => rfl

theorem bccInit : Statement .bccInit := fun _ => rfl

theorem extClockAttach : Statement .extClockAttach := fun _ => rfl

theorem extClockDetach : Statement .extClockDetach := fun _ => rfl

theorem extPinSetFunction (p : Pin) (k : PinFn) : Statement (.extPinSetFunction p k) := fun _ => rfl

theorem extGetFrequency : Statement .extGetFrequency := fun _ => rfl

theorem engMakeHeader (addr : Nat) (isRead : Bool) : Statement (.engMakeHeader addr isRead) := fun _ => rfl

theorem engParseHeader (h : Byte) : Statement (.engParseHeader h) := fun _ => rfl

theorem engWaitFlag (mask : Byte) : Statement (.engWaitFlag mask) := fun _ => rfl

theorem engSetAddrSync (addr : Nat) (isRead : Bool) : Statement (.engSetAddrSync addr isRead) := fun _ => rfl

theorem engSendDataSync (b : Byte) : Statement (.engSendDataSync b) := fun _ => rfl

theorem engRecvDataSync (out : Nat) : Statement (.engRecvDataSync out) := fun _ => rfl

theorem engRecvBurst (buf : Nat) (len : Nat) : Statement (.engRecvBurst buf len) := fun _ => rfl

theorem engSendCmd (c : Cmd) : Statement (.engSendCmd c) := fun _ => rfl

theorem engSendAck : Statement .engSendAck := fun _ => rfl

theorem engSendNack : Statement .engSendNack := fun _ => rfl

theorem sockConnect (addr : Nat) : Statement (.sockConnect addr) := fun _ => rfl

theorem sockSend (data : Option Nat) (len : Nat) : Statement (.sockSend data len) := fun _ => rfl

theorem sockRecv (data : Option Nat) (len : Nat) : Statement (.sockRecv data len) := fun _ => rfl

theorem sockProbe (cands : List Nat) : Statement (.sockProbe cands) := fun _ => rfl

theorem rfaLayoutCheck (m : RMap) : Statement (.rfaLayoutCheck m) := fun _ => rfl

theorem rfaOffset (r : FieldRef) : Statement (.rfaOffset r) := fun _ => rfl

theorem rfaSize (r : FieldRef) : Statement (.rfaSize r) := fun _ => rfl

theorem rfaTotalSize (m : RMap) : Statement (.rfaTotalSize m) := fun _ => rfl

theorem rfaWrite (offset : Nat) (data : Option Nat) (len : Nat) : Statement (.rfaWrite offset data len) := fun _ => rfl

theorem rfaRead (offset : Nat) (data : Option Nat) (len : Nat) : Statement (.rfaRead offset data len) := fun _ => rfl

theorem rfaUnpack (f : Field) (bs : List Byte) : Statement (.rfaUnpack f bs) := fun _ => rfl

theorem rfaPack (f : Field) (vals : List (Option Int)) : Statement (.rfaPack f vals) := fun _ => rfl

theorem rfaReadField (r : FieldRef) : Statement (.rfaReadField r) := fun _ => rfl

theorem rfaWriteField (r : FieldRef) (vals : List (Option Int)) : Statement (.rfaWriteField r vals) := fun _ => rfl

end Sys2Proof.Laws.Row
end

