-- ==== Sys2Proof/Laws/Runs.lean ====
section
/-! SUPPORT. Laws/Runs.lean: how the moves of a run compose (Safety.runAs, Safety.ticked), and what one move does. -/

namespace Sys2Proof.Machine

open Sys2Proof.Safety

@[simp] theorem runAs_nil (s : State) : runAs [] s = .next s := rfl

theorem runAs_cons (m : Move) (ms : List Move) (s : State) :
    runAs (m :: ms) s = andThen (step { s with turn := m }) (runAs ms) := rfl

/-- A run is cut anywhere. -/
theorem runAs_append (ms ns : List Move) (s : State) : runAs (ms ++ ns) s = andThen (runAs ms s) (runAs ns) := by
  induction ms generalizing s with
  | nil => rfl
  | cons m ms ih =>
    simp only [List.cons_append, runAs_cons]
    cases step { s with turn := m } with
    | next t => exact ih t
    | fault r => rfl
    | refused r => rfl

@[simp] theorem ticked_zero (s : State) : ticked 0 s = s := rfl

/-- Step counts add up. -/
theorem ticked_ticked (m n : Nat) (s : State) : ticked m (ticked n s) = ticked (n + m) s := by
  cases m with
  | zero => rfl
  | succ m =>
    have e : s.tick + n + m = s.tick + (n + m) := Nat.add_assoc ..
    simp [ticked, e, Nat.add_assoc]

theorem advance_eq (s : State) : advance s = ticked 1 s := rfl

/-- The move taken is the one the run names, whatever came before. -/
theorem turn_ticked (n : Nat) (s : State) (m : Move) :
    { ticked n s with turn := m } = { s with turn := m, tick := s.tick + n } := rfl

/-- A move of the controller or the environment answers a next state. -/
theorem step_agent {s : State} (h : s.turn ≠ .host) : step s = .next (advance (agentMove s.turn s)) := by
  have e : moveAs s.turn s = .next (agentMove s.turn s) := by
    cases ht : s.turn <;> first | exact absurd ht h | rfl
  simp [step, e]

/-- A host step inside a procedure whose next statement is an access makes it and leaves the rest. -/
theorem step_running {s : State} {o : Origin} {st : Stmt} {rest : List Stmt} (ht : s.turn = .host)
    (hr : s.running = some { origin := o, todo := st :: rest }) (hp : isPure st = false) :
    step s = andThen (access o st s) (fun p => .next (advance (leave (p.2 ++ rest) p.1))) := by
  have e : settle (st :: rest) s = s := by
    refine settle_settled (q := { origin := o, todo := st :: rest }) ?_ hr
    intro q hq
    rw [hr] at hq
    cases hq
    exact ⟨st, rest, rfl, hp⟩
  simp only [step, ht, moveAs, hostMove, hr, resume, e]
  cases access o st s <;> rfl

/-- A host step inside a procedure whose next statements are pure is the step from the state they lead to (R8). -/
theorem step_settle {s : State} {r q : Running} (ht : s.turn = .host) (hr : s.running = some r)
    (hq : (settle r.todo s).running = some q) : step s = step (settle r.todo s) := by
  have hs := settle_settled (settle_atAccess r.todo s) hq
  have e : (settle r.todo s).turn = s.turn := by rw [settle_frame r.todo s]
  simp only [step, e, ht, moveAs, hostMove, hr, hq, resume, hs]

/-- A procedure ends in a state as soon as the moves after its first host step lead there. -/
theorem completes_of_run {i : Instr} {ms : List Move} {s t u : State} (h : exec i s = .next t)
    (hr : runAs ms t = .next (ticked ms.length u)) : Completes i ms s u := ⟨t, h, hr⟩

/-- An operation that is one host step completes with no move after it. -/
theorem completes_of_exec {i : Instr} {s t : State} (h : exec i s = .next t) : Completes i [] s t := ⟨t, h, rfl⟩

/-- A bus step is enabled exactly when it waits and the environment does not stall it (R164 to R169, R174). -/
theorem enabled_bus_iff (s : State) : enabled .bus s = true ↔ BusWaits s ∧ stalled s = false := by
  constructor
  · intro h
    simp only [enabled, Bool.and_eq_true, Bool.not_eq_true'] at h
    exact ⟨⟨h.1.1.1.1, h.1.1.1.2, h.1.1.2, h.1.2⟩, h.2⟩
  · rintro ⟨⟨a, b, c, d⟩, e⟩
    exact enabled_bus a b c d e

/-- `P_BUS_LIVE` gives what R175 words it as: a bus step that stays enabled is eventually taken. -/
theorem busLive_weaklyFair {μ : Nat → Move} {σ : Nat → State} (h : BusLive μ σ) : WeaklyFair .bus μ σ :=
  fun n g => h.1 n (fun k hk => ((enabled_bus_iff _).1 (g k hk)).1)

/-- `P_BUS_LIVE` rules out a stall for ever (R315): a bus step does not wait for ever while the environment stalls it. -/
theorem busLive_no_endless_stall {μ : Nat → Move} {σ : Nat → State} (h : BusLive μ σ) (n : Nat) :
    ¬∀ k, n ≤ k → BusWaits (σ k) ∧ stalled (σ k) = true := by
  intro g
  obtain ⟨k, hk, -, he⟩ := h.1 n (fun k hk => (g k hk).1)
  have := ((enabled_bus_iff _).1 he).2
  simp [(g k hk).2] at this

end Sys2Proof.Machine
end

