-- ==== Sys2Proof/Tests/Slice0.lean ====
section
/-! SUPPORT. Tests/Slice0.lean: the model's own tests. Expected words and results are those of spec/95_test_vectors.md (its
V, W and P numbers) or are worked out by hand from the rule named. Then one witness for each premise of the statements. -/

namespace Sys2Proof.Tests

open Sys2Proof.Machine Sys2Proof.Safety

-- well-formedness: for each check an ill-formed term it refuses

theorem test_wf_swrst_needs_its_bit : (Instr.wrCtrlaSwrst 0x2#32).wf = false := by decide
theorem test_wf_config_excludes_swrst : (Instr.wrCtrlaConfig 0x15#32).wf = false := by decide
theorem test_wf_noop_excludes_commands : (Instr.wrCtrlbNoop 0x10000#32).wf = false := by decide
theorem test_wf_repeat_start_code : (Instr.wrCtrlbRepeatStart 0x20000#32).wf = false := by decide
theorem test_wf_read_continue_code : (Instr.wrCtrlbReadContinue 0x30000#32).wf = false := by decide
theorem test_wf_stop_code : (Instr.wrCtrlbStop 0x0#32).wf = false := by decide
theorem test_wf_pack_length : (Instr.rfaPack zeroField []).wf = false := by decide

-- decoding: words written out from R91, R94 and R100

theorem test_decode_reads :
    decode (.hacc 0x000000000000#48) = .ok .rdCtrla ∧ decode (.hacc 0x000400000000#48) = .ok .rdCtrlb ∧
    decode (.hacc 0x001800000000#48) = .ok .rdIntflag ∧ decode (.hacc 0x001A00000000#48) = .ok .rdStatus ∧
    decode (.hacc 0x001C00000000#48) = .ok .rdSyncbusy ∧ decode (.hacc 0x002400000000#48) = .ok .rdAddr ∧
    decode (.hacc 0x002800000000#48) = .ok .rdData := ⟨rfl, rfl, rfl, rfl, rfl, rfl, rfl⟩

theorem test_decode_writes :
    decode (.hacc 0x010000000001#48) = .ok (.wrCtrlaSwrst 0x1#32) ∧
    decode (.hacc 0x010000000014#48) = .ok (.wrCtrlaConfig 0x14#32) ∧
    decode (.hacc 0x011800000003#48) = .ok (.wrIntflag 0x03#8) ∧
    decode (.hacc 0x011A00000010#48) = .ok (.wrStatus 0x0010#16) ∧
    decode (.hacc 0x011C00000000#48) = .ok (.wrSyncbusy 0x0#32) ∧
    decode (.hacc 0x012400000032#48) = .ok (.wrAddr 0x32#32) ∧
    decode (.hacc 0x01280000000F#48) = .ok (.wrData 0x0F#8) := ⟨rfl, rfl, rfl, rfl, rfl, rfl, rfl⟩

theorem test_decode_commands :
    decode (.hacc 0x010400040000#48) = .ok (.wrCtrlbNoop 0x40000#32) ∧
    decode (.hacc 0x010400010000#48) = .ok (.wrCtrlbRepeatStart 0x10000#32) ∧
    decode (.hacc 0x010400060000#48) = .ok (.wrCtrlbReadContinue 0x60000#32) ∧
    decode (.hacc 0x010400070000#48) = .ok (.wrCtrlbStop 0x70000#32) := ⟨rfl, rfl, rfl, rfl⟩

theorem test_decode_common :
    decode (.proc 0x01#8 []) = .ok .bccReset ∧ decode (.proc 0x02#8 []) = .ok .bccEnable ∧
    decode (.proc 0x03#8 []) = .ok .bccDisable ∧ decode (.proc 0x04#8 [.event .any]) = .ok (.bccWaitSync .any) ∧
    decode (.proc 0x05#8 [.role .target]) = .ok (.bccSetMode .target) ∧ decode (.proc 0x06#8 []) = .ok .bccGetMode ∧
    decode (.proc 0x07#8 []) = .ok .bccInit := ⟨rfl, rfl, rfl, rfl, rfl, rfl, rfl⟩

theorem test_decode_services :
    decode (.proc 0x08#8 []) = .ok .extClockAttach ∧ decode (.proc 0x09#8 []) = .ok .extClockDetach ∧
    decode (.proc 0x0A#8 [.pin .scl, .pinFn .i2c]) = .ok (.extPinSetFunction .scl .i2c) ∧
    decode (.proc 0x0B#8 []) = .ok .extGetFrequency := ⟨rfl, rfl, rfl, rfl⟩

theorem test_decode_engine :
    decode (.proc 0x10#8 [.num 0x80, .bool false]) = .ok (.engMakeHeader 0x80 false) ∧
    decode (.proc 0x11#8 [.byte 0xA5]) = .ok (.engParseHeader 0xA5) ∧
    decode (.proc 0x12#8 [.byte 2]) = .ok (.engWaitFlag 2) ∧
    decode (.proc 0x13#8 [.num 0x19, .bool true]) = .ok (.engSetAddrSync 0x19 true) ∧
    decode (.proc 0x14#8 [.byte 0x0F]) = .ok (.engSendDataSync 0x0F) ∧
    decode (.proc 0x15#8 [.num 7]) = .ok (.engRecvDataSync 7) ∧
    decode (.proc 0x16#8 [.num 7, .num 3]) = .ok (.engRecvBurst 7 3) ∧
    decode (.proc 0x17#8 [.cmd .stop]) = .ok (.engSendCmd .stop) ∧
    decode (.proc 0x18#8 []) = .ok .engSendAck ∧ decode (.proc 0x19#8 []) = .ok .engSendNack :=
  ⟨rfl, rfl, rfl, rfl, rfl, rfl, rfl, rfl, rfl, rfl⟩

theorem test_decode_socket :
    decode (.proc 0x20#8 [.num 0x19]) = .ok (.sockConnect 0x19) ∧
    decode (.proc 0x21#8 [.buf none, .num 5]) = .ok (.sockSend none 5) ∧
    decode (.proc 0x22#8 [.buf (some 9), .num 2]) = .ok (.sockRecv (some 9) 2) ∧
    decode (.proc 0x23#8 [.nums [0x18, 0x19]]) = .ok (.sockProbe [0x18, 0x19]) := ⟨rfl, rfl, rfl, rfl⟩

theorem test_decode_accessor :
    decode (.proc 0x30#8 [.map []]) = .ok (.rfaLayoutCheck []) ∧
    decode (.proc 0x31#8 [.ref (.idx 5)]) = .ok (.rfaOffset (.idx 5)) ∧
    decode (.proc 0x32#8 [.ref (.idx 2)]) = .ok (.rfaSize (.idx 2)) ∧
    decode (.proc 0x33#8 [.map []]) = .ok (.rfaTotalSize []) ∧
    decode (.proc 0x34#8 [.num 0x0F, .buf (some 1), .num 2]) = .ok (.rfaWrite 0x0F (some 1) 2) ∧
    decode (.proc 0x35#8 [.num 0x02, .buf (some 1), .num 6]) = .ok (.rfaRead 0x02 (some 1) 6) ∧
    decode (.proc 0x36#8 [.field zeroField, .bytes [0xF7]]) = .ok (.rfaUnpack zeroField [0xF7]) ∧
    decode (.proc 0x37#8 [.field zeroField, .vals [some 4]]) = .ok (.rfaPack zeroField [some 4]) ∧
    decode (.proc 0x38#8 [.ref (.name "accd")]) = .ok (.rfaReadField (.name "accd")) ∧
    decode (.proc 0x39#8 [.ref (.idx 4), .vals [some 8, none]]) = .ok (.rfaWriteField (.idx 4) [some 8, none]) :=
  ⟨rfl, rfl, rfl, rfl, rfl, rfl, rfl, rfl, rfl, rfl⟩

/-- V26, V27, V28, R102: what is refused, and how. -/
theorem test_decode_refuses :
    decode (.hacc 0x800000000000#48) = .error .illFormed ∧ decode (.hacc 0x011800000100#48) = .error .illFormed ∧
    decode (.hacc 0x011A00010000#48) = .error .illFormed ∧ decode (.hacc 0x000800000000#48) = .error .unmapped ∧
    decode (.proc 0x00#8 []) = .error .illFormed ∧ decode (.proc 0x0C#8 []) = .error .illFormed ∧
    decode (.proc 0x3A#8 []) = .error .illFormed ∧ decode (.proc 0x01#8 [.num 0]) = .error .illFormed :=
  ⟨rfl, rfl, rfl, rfl, rfl, rfl, rfl, rfl⟩

/-- R91: a read ignores its DATA field. -/
theorem test_decode_read_ignores_data : decode (.hacc 0x0018FFFFFFFF#48) = .ok .rdIntflag := rfl

/-- R104: a line of assembly stands for the descriptor of P4. -/
theorem test_assemble_stop :
    assemble (.wrCtrlb .stop true false) = .op (.hacc 0x010400070000#48) ∧
    assemble .wrStatusIdle = .op (.hacc 0x011A00000010#48) ∧
    assemble (.wrIntflag true true) = .op (.hacc 0x011800000003#48) := by decide

-- a small machine: S0 of R335, with the simulated target T of the test vectors

/-- The parameters of the vectors. -/
def params : Params where
  smart := false
  readNackFlag := .sb
  maxFrame := 2
  defaultAddr := 0x18#7
  map := exMap
  base := 0x42000000

/-- The simulated target at 0x19 with registers 0 to 4. -/
def target : SimTarget := simTarget 0x19#7 [(0, 0x5A#8), (1, 0x6B#8), (2, 0x11#8), (3, 0x22#8), (4, 0x33#8)] []

/-- S0 (R335) with the simulated target on the bus and the socket bound to it. -/
def ready : State :=
  { State.reset with
    ctrl := { Ctrl.reset with enable := true, en := true, mode := 0b101#3, busstate := .idle }
    clk := true, sdaFn := .i2c, sclFn := .i2c, sockAddr := 0x19#7, env := .sim target, cfg := params }

/-- S0 with its controller changed. -/
def readyWith (f : Ctrl → Ctrl) : State := { ready with ctrl := f ready.ctrl }

/-- The controller owning the bus in a write phase, after `Hdr(0x32, ACK)`. -/
def writing : State :=
  { readyWith (fun c => { c with busstate := .owner, mb := true, hdr := 0x32#8 }) with
    env := .sim { target with addressed := true } }

/-- The controller with a received byte, after V15: `Hdr(0x33, ACK)`, `Rx(0x5A)`. -/
def reading : State :=
  { readyWith (fun c => { c with
      busstate := .owner, dir := true, ackpend := true, sb := true, data := 0x5A#8, hdr := 0x33#8 }) with
    env := .sim { target with addressed := true, reading := true, ptr := 1#8 } }

/-- A field of the next state, where there is one. -/
def get {α : Type} (x : Out State) (f : State → α) : Option α :=
  match x with
  | .next t => some (f t)
  | .fault _ => none
  | .refused _ => none

/-- The code of R312 of a fault or refusal. -/
def code (x : Out State) : Option Nat :=
  match x with
  | .next _ => none
  | .fault r => some (faultCode r)
  | .refused r => refusalCode r

/-- One step of an agent on a state. -/
def move (m : Move) (s : State) : Out State := step { s with turn := m }

/-- The last thing the host was given. -/
def given (s : State) : Option Value := s.results.getLast?

-- register accesses (vectors V1 to V29)

theorem test_rd_ctrla : get (exec .rdCtrla ready) given = some (some (.word 0x16#32)) := by decide
theorem test_rd_ctrlb : get (exec .rdCtrlb (readyWith fun c => { c with ackact := .nack, smen := true })) given
    = some (some (.word 0x40100#32)) := by decide
theorem test_rd_intflag : get (exec .rdIntflag (readyWith fun c => { c with sb := true })) given
    = some (some (.word 0x2#32)) := by decide
theorem test_rd_status : get (exec .rdStatus ready) given = some (some (.word 0x10#32)) := by decide
theorem test_rd_status_nack : get (exec .rdStatus (readyWith fun c => { c with busstate := .owner, rxnack := true })) given
    = some (some (.word 0x24#32)) := by decide
theorem test_rd_syncbusy : get (exec .rdSyncbusy (readyWith fun c => { c with sysop := true })) given
    = some (some (.word 0x4#32)) := by decide
theorem test_rd_addr : get (exec .rdAddr writing) given = some (some (.word 0x32#32)) := by decide
theorem test_rd_data : get (exec .rdData reading) given = some (some (.word 0x5A#32)) := by decide

/-- V3. -/
theorem test_wr_ctrla_swrst : get (exec (.wrCtrlaSwrst 0x1#32) ready) (fun t => (rdReg .syncbusy t.ctrl, rdReg .ctrla t.ctrl))
    = some (0x1#32, 0x17#32) := by decide
/-- V4. -/
theorem test_wr_ctrla_config : get (exec (.wrCtrlaConfig 0x4#32) ready) (fun t => (rdReg .syncbusy t.ctrl, rdReg .ctrla t.ctrl))
    = some (0x2#32, 0x14#32) := by decide
/-- V5, V6. -/
theorem test_wr_ctrlb_noop :
    get (exec (.wrCtrlbNoop 0x40000#32) ready) (fun t => (rdReg .ctrlb t.ctrl, t.ctrl.sysop)) = some (0x40000#32, false) ∧
    get (exec (.wrCtrlbNoop 0x100#32) ready) (fun t => rdReg .ctrlb t.ctrl) = some 0x0#32 := by decide
/-- V7. -/
theorem test_wr_ctrlb_repeat_start_not_owner : code (exec (.wrCtrlbRepeatStart 0x10000#32) ready) = some 9 := by decide
theorem test_wr_ctrlb_repeat_start : get (exec (.wrCtrlbRepeatStart 0x10000#32) writing) (fun t => (t.ctrl.pend, t.ctrl.mb))
    = some (some (.cmd .repeatStart), false) := by decide
/-- V8, V21. -/
theorem test_wr_ctrlb_read_continue_faults :
    code (exec (.wrCtrlbReadContinue 0x20000#32) ready) = some 10 ∧
    code (exec (.wrCtrlbReadContinue 0x60000#32) reading) = some 11 := by decide
theorem test_wr_ctrlb_read_continue : get (exec (.wrCtrlbReadContinue 0x20000#32) reading) (fun t => (t.ctrl.pend, t.ctrl.sb))
    = some (some (.cmd .readContinue), false) := by decide
/-- V9, V23. -/
theorem test_wr_ctrlb_stop : get (exec (.wrCtrlbStop 0x70000#32) reading)
    (fun t => (rdReg .syncbusy t.ctrl, rdReg .ctrlb t.ctrl)) = some (0x4#32, 0x40000#32) := by decide
/-- V10. -/
theorem test_wr_intflag : get (exec (.wrIntflag 0x1#8) (readyWith fun c => { c with mb := true, sb := true }))
    (fun t => rdReg .intflag t.ctrl) = some 0x2#32 := by decide
/-- V11. -/
theorem test_wr_status_clears_buserr : get (exec (.wrStatus 0x1#16) (readyWith fun c => { c with buserr := true }))
    (fun t => (t.ctrl.buserr, t.ctrl.sysop)) = some (false, false) := by decide
/-- V105. -/
theorem test_wr_status_forces_idle : get (exec (.wrStatus 0x10#16) ready) (fun t => (t.ctrl.pend, t.ctrl.sysop))
    = some (some .forceIdle, true) := by decide
/-- V12. -/
theorem test_wr_syncbusy : code (exec (.wrSyncbusy 0#32) ready) = some 3 := by decide
/-- V13. -/
theorem test_wr_addr : get (exec (.wrAddr 0x32#32) ready)
    (fun t => (rdReg .syncbusy t.ctrl, rdReg .intflag t.ctrl, rdReg .addr t.ctrl)) = some (0x4#32, 0x0#32, 0x32#32) := by decide
/-- V24, V25, V18. -/
theorem test_wr_addr_faults :
    code (exec (.wrAddr 0x32#32) State.reset) = some 6 ∧
    code (exec (.wrAddr 0x32#32) (readyWith fun c => { c with syncEnable := true })) = some 4 ∧
    code (exec (.wrAddr 0x32#32) (readyWith fun c => { c with sysop := true })) = some 5 := by decide
/-- V19. -/
theorem test_wr_data : get (exec (.wrData 0x0F#8) writing) (fun t => (rdReg .syncbusy t.ctrl, rdReg .data t.ctrl, t.ctrl.mb))
    = some (0x4#32, 0x0F#32, false) := by decide
/-- V17, V20, V102. -/
theorem test_wr_data_faults :
    code (exec (.wrData 0x12#8) ready) = some 12 ∧ code (exec (.wrData 0x00#8) reading) = some 12 ∧
    code (exec (.wrData 0x00#8) (readyWith fun c => { c with sysop := true, pend := some (.addr 0x32#8) })) = some 5 := by
  decide

-- controller and environment steps (vectors V13 to V41)

/-- V13, V14, V15, V16: the address phase in a write and a read frame, answered ACK and NACK. -/
theorem test_address_phase :
    get (move .bus (readyWith fun c => { c with busop := some (.addr 0x32#8) }))
      (fun t => (t.trace, rdReg .intflag t.ctrl, rdReg .status t.ctrl)) =
        some ([.start, .hdr 0x32#8 .ack], 0x01#32, 0x20#32) ∧
    get (move .bus (readyWith fun c => { c with busop := some (.addr 0x30#8) }))
      (fun t => (t.trace, rdReg .intflag t.ctrl, rdReg .status t.ctrl)) =
        some ([.start, .hdr 0x30#8 .nack], 0x01#32, 0x24#32) ∧
    get (move .bus (readyWith fun c => { c with busop := some (.addr 0x33#8) }))
      (fun t => (t.trace, rdReg .intflag t.ctrl, rdReg .status t.ctrl, t.ctrl.ackpend, t.ctrl.data)) =
        some ([.start, .hdr 0x33#8 .ack, .rx 0x5A#8], 0x02#32, 0x20#32, true, 0x5A#8) ∧
    get (move .bus (readyWith fun c => { c with busop := some (.addr 0x31#8) }))
      (fun t => (t.trace, rdReg .intflag t.ctrl, rdReg .status t.ctrl)) =
        some ([.start, .hdr 0x31#8 .nack], 0x02#32, 0x24#32) := by decide

/-- V19, and V30 with the target's refusal: a byte goes out. -/
theorem test_byte_transmission :
    get (move .bus { writing with ctrl := { writing.ctrl with busop := some (.tx 0x0F#8), mb := false } })
      (fun t => (t.trace, t.ctrl.mb, t.ctrl.rxnack)) = some ([.tx 0x0F#8 .ack], true, false) ∧
    get (move .bus { writing with
        ctrl := { writing.ctrl with busop := some (.tx 0x55#8) }, env := .sim { target with addressed := false } })
      (fun t => (t.trace, t.ctrl.mb, rdReg .status t.ctrl)) = some ([.tx 0x55#8 .nack], true, 0x24#32) := by decide

/-- V22. -/
theorem test_read_continue :
    get (move .bus { reading with ctrl := { reading.ctrl with busop := some (.cmd .readContinue), sysop := true, sb := false } })
      (fun t => (t.trace, t.ctrl.data, t.ctrl.sb, t.ctrl.sysop)) =
      some ([.mack .ack, .rx 0x6B#8], 0x6B#8, true, false) := by decide

/-- V34, V35: the acknowledge before a STOP is NACK in smart mode, ACKACT otherwise. -/
theorem test_stop :
    get (move .bus { reading with ctrl := { reading.ctrl with busop := some (.cmd .stop), sysop := true, smen := true } })
      (fun t => (t.trace, t.ctrl.busstate)) = some ([.mack .nack, .stop], .idle) ∧
    get (move .bus { reading with ctrl := { reading.ctrl with busop := some (.cmd .stop), sysop := true } })
      (fun t => (t.trace, t.ctrl.busstate)) = some ([.mack .ack, .stop], .idle) ∧
    get (move .bus (readyWith fun c => { c with busop := some (.cmd .stop), sysop := true })) (fun t => (t.trace, t.ctrl.sysop))
      = some ([], false) := by decide

/-- V37. -/
theorem test_repeat_start :
    get (move .bus { writing with ctrl := { writing.ctrl with busop := some (.cmd .repeatStart), sysop := true } })
      (fun t => (t.trace, t.ctrl.mb, t.ctrl.sysop)) = some ([.rstart, .hdr 0x32#8 .ack], true, false) := by decide

/-- V36: READ_CONTINUE acknowledges ACK in smart mode, whatever ACKACT is. -/
theorem test_read_continue_smart :
    get (move .bus { reading with
        ctrl := { reading.ctrl with busop := some (.cmd .readContinue), smen := true, ackact := .nack } })
      (fun t => t.trace) = some [.mack .ack, .rx 0x6B#8] := by decide

/-- V38. -/
theorem test_software_reset :
    get (move .swrstSync { writing with ctrl := { writing.ctrl with busop := some (.tx 0x01#8), syncSwrst := true } })
      (fun t => (t.trace, t.ctrl)) = some ([.abort], Ctrl.reset) := by decide

/-- V39. -/
theorem test_disable :
    get (move .enableSync { writing with ctrl := { writing.ctrl with enable := false, syncEnable := true } })
      (fun t => (t.trace, t.ctrl.en, rdReg .status t.ctrl)) = some ([.abort], false, 0x0#32) := by decide

/-- V40, V41: with the bus UNKNOWN an address phase waits for the bus-idle observation. -/
theorem test_bus_idle :
    get (move .bus (readyWith fun c => { c with busstate := .unknown, busop := some (.addr 0x32#8) })) (fun t => t.trace) =
      some [] ∧
    get (move .busIdle (readyWith fun c => { c with busstate := .unknown })) (fun t => (t.ctrl.busstate, t.trace)) =
      some (.idle, []) := by decide

/-- V42: no clock, no step. -/
theorem test_no_clock :
    get (move .swrstSync { readyWith (fun c => { c with syncSwrst := true }) with clk := false }) (fun t => t.ctrl.syncSwrst) =
      some true := by decide

/-- R162, R163: SYSOP stays 1 for a command, and a force-IDLE is done at once. -/
theorem test_sysop_sync :
    get (move .sysopSync (readyWith fun c => { c with sysop := true, pend := some (.cmd .stop) }))
      (fun t => (t.ctrl.busop, t.ctrl.sysop)) = some (some (.cmd .stop), true) ∧
    get (move .sysopSync (readyWith fun c => { c with sysop := true, pend := some .forceIdle, busstate := .unknown }))
      (fun t => (t.ctrl.busstate, t.ctrl.sysop, t.ctrl.pend)) = some (.idle, false, none) := by decide

-- procedures: the first host step of each

/-- The statements left after a procedure's first host step. -/
def left (x : Out State) : Option (Option (List Stmt)) := get x (fun t => t.running.map Running.todo)

/-- R200. -/
theorem test_bcc_reset : get (exec .bccReset ready) (fun t => (t.ctrl.syncSwrst, t.running.map Running.todo)) =
    some (true, some [.await .syncbusy 0x1#32 false]) := by decide
/-- R201: read, write, two waits and the force-IDLE. -/
theorem test_bcc_enable : left (exec .bccEnable ready) =
    some (some [.wr .ctrla 0x16#32, .await .syncbusy 0x2#32 false, .wr .status 0x10#32, .await .syncbusy 0x4#32 false]) := by
  decide
/-- V48. -/
theorem test_bcc_disable : left (exec .bccDisable ready) =
    some (some [.wr .ctrla 0x14#32, .await .syncbusy 0x2#32 false]) := by decide
/-- V49. -/
theorem test_bcc_wait_sync : left (exec (.bccWaitSync .any) ready) = some none := by decide
/-- V45. -/
theorem test_bcc_set_mode : left (exec (.bccSetMode .target) { ready with ctrl := Ctrl.reset }) =
    some (some [.wr .ctrla 0x10#32]) := by decide
/-- V44, V45. -/
theorem test_bcc_get_mode :
    get (exec .bccGetMode { ready with ctrl := Ctrl.reset }) given = some (some (.mode (.reserved 0b000#3))) ∧
    get (exec .bccGetMode ready) given = some (some (.mode .controller)) := by decide
/-- R206: the clock is attached first. -/
theorem test_bcc_init : get (exec .bccInit State.reset) (fun t => t.clk) = some true := by decide
theorem test_ext_clock_attach : get (exec .extClockAttach State.reset) (fun t => t.clk) = some true := by decide
theorem test_ext_clock_detach : get (exec .extClockDetach ready) (fun t => t.clk) = some false := by decide
theorem test_ext_pin_set_function :
    get (exec (.extPinSetFunction .scl .i2c) { ready with sclFn := .other 3 }) (fun t => t.pins) = some true ∧
    get (exec (.extPinSetFunction .sda (.other 3)) ready) (fun t => t.pins) = some false := by decide
theorem test_ext_get_frequency : get (exec .extGetFrequency ready) (fun t => t.results.length) = some 1 := by decide

/-- W1, V52. -/
theorem test_eng_make_header :
    get (exec (.engMakeHeader 0x52 true) ready) given = some (some (.header 0xA5#8)) ∧
    get (exec (.engMakeHeader 0x7F false) ready) given = some (some (.header 0xFE#8)) ∧
    code (exec (.engMakeHeader 0x80 false) ready) = some 13 := by decide
theorem test_eng_parse_header : get (exec (.engParseHeader 0x31#8) ready) given = some (some (.parsed 0x18#7 true)) := by decide
/-- R221: one flag of the mask is enough. -/
theorem test_eng_wait_flag :
    left (exec (.engWaitFlag 0x3#8) reading) = some none ∧
    left (exec (.engWaitFlag 0x1#8) reading) = some (some [.await .intflag 0x1#32 true]) := by decide
/-- V53. -/
theorem test_eng_set_addr_sync : get (exec (.engSetAddrSync 0x19 false) ready) (fun t => (t.ctrl.pend, t.ctrl.sysop)) =
    some (some (.addr 0x32#8), true) := by decide
/-- V56. -/
theorem test_eng_send_data_sync : get (exec (.engSendDataSync 0x0F#8) writing) (fun t => t.ctrl.pend) =
    some (some (.tx 0x0F#8)) := by decide
/-- P5: no flag, the host waits. -/
theorem test_eng_recv_data_sync : left (exec (.engRecvDataSync 3) ready) = some (some
    [.await .intflag 0x2#32 true, .recvCheck .status 0, .recvByte (.mem 3) 0, .retCount .status 0]) := by decide
/-- V61. -/
theorem test_eng_recv_burst_nothing : get (exec (.engRecvBurst 3 0) reading) (fun t => (given t, t.status)) =
    some (some (.burst .success 0), some .success) := by decide
/-- R225: before the second byte a READ_CONTINUE is sent, after the last of two the policy is NACK. -/
theorem test_eng_recv_burst_turn : burstTurn false (.mem 3) 1 2 .burst =
    [.rmw .ctrlb 0x30000#32 0x20000#32, .await .syncbusy 0x4#32 false, .await .intflag 0x2#32 true, .recvCheck .burst 1,
     .recvByte (.mem 3) 1, .ackPolicy true, .burstLoop (.mem 3) 2 2 .burst] := by decide
/-- V63. -/
theorem test_eng_send_cmd : left (exec (.engSendCmd .noop) ready) =
    some (some [.wr .ctrlb 0x0#32, .await .syncbusy 0x4#32 false]) := by decide
/-- V64, V65. -/
theorem test_eng_send_ack : left (exec .engSendAck (readyWith fun c => { c with ackact := .nack })) =
    some (some [.wr .ctrlb 0x0#32]) := by decide
theorem test_eng_send_nack :
    left (exec .engSendNack ready) = some (some [.wr .ctrlb 0x40000#32]) ∧
    left (exec .engSendNack { ready with cfg := { params with smart := true } }) = some none := by decide

/-- V67. -/
theorem test_sock_connect :
    get (exec (.sockConnect 0x7F) ready) (fun t => t.sockAddr) = some 0x7F#7 ∧
    code (exec (.sockConnect 0x80) ready) = some 13 := by decide
/-- V68, V69. -/
theorem test_sock_send :
    get (exec (.sockSend (some 3) 3) ready) (fun t => (given t, t.status, t.ctrl.sysop)) =
      some (some (.count 0), some .payloadTooLong, false) ∧
    get (exec (.sockSend none 5) ready) (fun t => t.ctrl.pend) = some (some (.addr 0x32#8)) := by decide
/-- V74, V75. -/
theorem test_sock_recv :
    get (exec (.sockRecv (some 9) 2) ready) (fun t => t.ctrl.pend) = some (some (.addr 0x33#8)) ∧
    code (exec (.sockRecv none 1) ready) = some 16 := by decide
/-- V77, P1. -/
theorem test_sock_probe :
    get (exec (.sockProbe []) ready) given = some (some .noneFound) ∧
    get (exec (.sockProbe [0x18, 0x19]) ready) (fun t => (t.sockAddr, t.ctrl.pend)) =
      some (0x18#7, some (.addr 0x30#8)) := by decide

/-- R271: EX_MAP passes (R290); V82, V83. -/
theorem test_rfa_layout_check :
    get (exec (.rfaLayoutCheck exMap) ready) given = some (some .ok) ∧
    code (exec (.rfaLayoutCheck [{ name := none, size := 0, subs := [] }]) ready) = some 17 ∧
    code (exec (.rfaLayoutCheck
      [{ name := none, size := 1, subs := [exSub none 0 4 .unsigned, exSub none 3 2 .unsigned] }]) ready) = some 17 := by decide
/-- V80, V81. -/
theorem test_rfa_offset :
    get (exec (.rfaOffset (.name "range")) ready) given = some (some (.nat 0x0F)) ∧
    get (exec (.rfaOffset (.idx 3)) ready) given = some (some (.nat 0x08)) ∧
    code (exec (.rfaOffset (.idx 5)) ready) = some 18 ∧ code (exec (.rfaOffset (.name "nope")) ready) = some 18 := by decide
theorem test_rfa_size : get (exec (.rfaSize (.name "accd")) ready) given = some (some (.nat 6)) := by decide
theorem test_rfa_total_size : get (exec (.rfaTotalSize exMap) ready) given = some (some (.nat 16)) := by decide
/-- V91, V92. -/
theorem test_rfa_write :
    get (exec (.rfaWrite 0x0F (some 1) 0) ready) given = some (some (.count 0)) ∧
    code (exec (.rfaWrite 0xFF (some 1) 2) ready) = some 20 := by decide
/-- V94, and P3's select frame. -/
theorem test_rfa_read :
    get (exec (.rfaRead 0x02 (some 1) 6) { ready with cfg := { params with maxFrame := 0 } }) (fun t => (given t, t.status)) =
      some (some (.count 0), some .payloadTooLong) ∧
    get (exec (.rfaRead 0x02 (some 1) 6) ready) (fun t => t.ctrl.pend) = some (some (.addr 0x32#8)) := by decide
/-- A mask with a bit beside MB and SB decodes and polls by MB and SB alone (R221, R29). -/
theorem test_eng_wait_flag_other_bits :
    decode (.proc 0x12#8 [.byte 0xFE#8]) = .ok (.engWaitFlag 0xFE#8) ∧
    left (exec (.engWaitFlag 0xFE#8) reading) = some none ∧
    left (exec (.engWaitFlag 0xFC#8) reading) = some (some [.await .intflag 0xFC#32 true]) := ⟨rfl, by decide, by decide⟩

/-- Bytes beyond the field's last (R281), and a list of none: it runs, and answers one value per sub-field. -/
theorem test_rfa_unpack_other_length :
    decode (.proc 0x36#8 [.field exRange, .bytes []]) = .ok (.rfaUnpack exRange []) ∧
    get (exec (.rfaUnpack exRange [0xF8#8, 0xFF#8]) ready) (fun t => t.results) = some (ready.results ++ [.values [8, 15]]) ∧
    get (exec (.rfaUnpack exRange []) ready) (fun t => t.results.length) = some (ready.results.length + 1) :=
  ⟨rfl, by decide, rfl⟩

/-- V85, V90. -/
theorem test_rfa_unpack :
    get (exec (.rfaUnpack exAccd [0x41#8, 0x00#8, 0x00#8, 0x80#8, 0xC0#8, 0x7F#8]) ready) given =
      some (some (.values [1, 0, 1, 0, 0, -512, 0, 0, 511])) ∧
    get (exec (.rfaUnpack exRange [0xF7#8]) ready) given = some (some (.values [7, 15])) := by decide
/-- V86, V87, V89. -/
theorem test_rfa_pack :
    get (exec (.rfaPack exAccd [some 1, none, some (-1), none, none, none, none, none, none]) ready) given =
      some (some (.bytes [0xC1#8, 0xFF#8, 0x00#8, 0x00#8, 0x00#8, 0x00#8])) ∧
    code (exec (.rfaPack exAccd [none, none, some 512, none, none, none, none, none, none]) ready) = some 19 ∧
    code (exec (.rfaPack exRange [some 4, none]) ready) = some 19 := by decide
/-- P3: the select frame comes first. -/
theorem test_rfa_read_field :
    get (exec (.rfaReadField (.name "accd")) ready) (fun t => (t.ctrl.pend, t.scratch)) =
      some (some (.addr 0x32#8), []) ∧
    code (exec (.rfaReadField (.idx 5)) ready) = some 18 := by decide
/-- V97. -/
theorem test_rfa_write_field :
    get (exec (.rfaWriteField (.name "range") [some 8, none]) ready) (fun t => t.ctrl.pend) = some (some (.addr 0x32#8)) ∧
    code (exec (.rfaWriteField (.name "range") [some 4, none]) ready) = some 19 := by decide

-- the host's own actions

/-- V99, R75, R74. -/
theorem test_host_actions :
    code (move .host { ready with prog := [.act .readStatus] }) = some 14 ∧
    code (move .host { ready with prog := [.act (.memRead 4 1)] }) = some 15 ∧
    code (move .host { ready with prog := [.act (.mmio false 0x42000018 32 0#32)] }) = some 2 ∧
    get (move .host { ready with prog := [.act (.mmio false 0x4200001A 16 0#32)] }) given = some (some (.word 0x10#32)) := by
  decide

/-- R7, R76: what the host wrote it reads back. -/
theorem test_host_memory :
    get (move .host { ready with prog := [.act (.memWrite 4 [7#8, 8#8])] }) (fun t => t.mem) = some [(4, 7#8), (5, 8#8)] ∧
    get (move .host { ready with prog := [.act (.memRead 4 2)], mem := [(4, 7#8), (5, 8#8)] }) given =
      some (some (.bytes [7#8, 8#8])) := by decide

/-- V100: a byte the host never wrote stops the frame. -/
theorem test_buffer_unwritten :
    code (move .host { writing with
      mem := [(4, 7#8)], running := some { origin := .instr (.sockSend (some 4) 2), todo := [.wrData (.mem 4) 1] } }) = some 15 := by
  decide

-- witnesses: for each premise of the statements, a state and operands that meet it

/-- A run that polls for ever: `bcc.reset` with no clock (V51). -/
def hung : State :=
  { readyWith (fun c => { c with syncSwrst := true }) with
    clk := false, running := some { origin := .instr .bccReset, todo := [.await .syncbusy 0x1#32 false] } }

theorem noSync_ready : NoSync ready.ctrl := ⟨rfl, rfl⟩
theorem canStart_ready : CanStart ready := ⟨noSync_ready, rfl, rfl, rfl, rfl, rfl, rfl⟩
theorem canStart_writing : CanStart writing := ⟨⟨rfl, rfl⟩, rfl, rfl, rfl, rfl, rfl, rfl⟩
theorem canStart_reading : CanStart reading := ⟨⟨rfl, rfl⟩, rfl, rfl, rfl, rfl, rfl, rfl⟩
theorem busFree_ready : BusFree ready := ⟨canStart_ready, rfl, .inl rfl⟩
theorem busFree_reading : BusFree reading := ⟨canStart_reading, rfl, .inr rfl⟩
theorem onBus_ready : OnBus ready target := ⟨busFree_ready, rfl, rfl⟩
theorem writePhase_writing : WritePhase writing := ⟨canStart_writing, rfl, rfl, rfl, rfl⟩
theorem readPhase_reading : ReadPhase reading { target with addressed := true, reading := true, ptr := 1#8 } :=
  ⟨canStart_reading, rfl, rfl, rfl, rfl, rfl, rfl, rfl, rfl, rfl, rfl, rfl⟩

/-- The invariant holds where a byte waits for its acknowledge. -/
theorem test_witness_inv : Inv reading := by
  constructor
  · constructor <;> simp [reading, readyWith, ready, Ctrl.reset, IsTx, IsCmd]
  · rfl

/-- The invariant holds with a command pending. -/
theorem test_witness_inv_pending :
    Inv { reading with ctrl := { reading.ctrl with pend := some (.cmd .readContinue), sysop := true } } := by
  constructor
  · constructor <;> simp [reading, readyWith, ready, Ctrl.reset, IsTx, IsCmd]
  · rfl

theorem test_witness_wf : (Instr.wrCtrlbStop 0x70000#32).wf = true ∧ (Instr.wrCtrlaConfig 0x14#32).wf = true ∧
    (Instr.engWaitFlag 0x03#8).wf = true ∧ (Instr.rfaUnpack zeroField [0#8]).wf = true ∧
    (Instr.rfaPack zeroField [none]).wf = true := by decide

theorem test_witness_accepted : decode (.hacc 0x0018FFFFFFFF#48) = .ok .rdIntflag ∧
    decode (.hacc 0x0128000000FF#48) = .ok (.wrData 0xFF#8) ∧
    decode (.proc 0x12#8 [.byte 3#8]) = .ok (.engWaitFlag 3#8) := ⟨rfl, rfl, rfl⟩

/-- One descriptor for each premise of the refusals, the width bound among them. -/
theorem test_witness_refusals :
    (0x020000000000#48).extractLsb' 41 7 ≠ 0#7 ∧
    ((0x012900000000#48).extractLsb' 41 7 = 0#7 ∧
      (0x012900000000#48).extractLsb' 32 8 ∉ [0x00#8, 0x04#8, 0x18#8, 0x1A#8, 0x1C#8, 0x24#8, 0x28#8]) ∧
    ((0x012800000100#48).getLsbD 40 = true ∧ (0x012800000100#48).extractLsb' 32 8 ∈ [0x18#8, 0x28#8] ∧
      (0x012800000100#48).extractLsb' 8 24 ≠ 0#24) ∧
    ((0x011A00010000#48).getLsbD 40 = true ∧ (0x011A00010000#48).extractLsb' 32 8 = 0x1A#8 ∧
      (0x011A00010000#48).extractLsb' 16 16 ≠ 0#16) ∧
    ((0x011A0000FFFF#48).extractLsb' 41 7 = 0#7 ∧ (0x011A0000FFFF#48).extractLsb' 16 16 = 0#16) := by decide

theorem test_witness_unknown_procedure : ¬((0x01#8 ≤ 0x1A#8 ∧ 0x1A#8 ≤ 0x0B#8) ∨ (0x10#8 ≤ 0x1A#8 ∧ 0x1A#8 ≤ 0x19#8) ∨
    (0x20#8 ≤ 0x1A#8 ∧ 0x1A#8 ≤ 0x23#8) ∨ (0x30#8 ≤ 0x1A#8 ∧ 0x1A#8 ≤ 0x39#8)) := by decide

theorem test_witness_refused_entry :
    (let s := { ready with prog := [.op (.hacc 0x800000000000#48)] };
      s.turn = .host ∧ s.running = none ∧ s.prog = .op (.hacc 0x800000000000#48) :: []) ∧
    decode (.hacc 0x800000000000#48) = .error .illFormed ∧ decode (.hacc 0x000800000000#48) = .error .unmapped :=
  ⟨⟨rfl, rfl, rfl⟩, rfl, rfl⟩

theorem test_witness_fetch :
    (let s := { ready with prog := [.op (encode .rdCtrla)] };
      s.turn = .host ∧ s.running = none ∧ s.prog = .op (encode .rdCtrla) :: []) ∧
    decode (encode .rdCtrla) = .ok .rdCtrla ∧ decodeTableWord 48 0x010000000001 = some (.wrCtrlaSwrst 0x1#32) ∧
    decodeTableWord 8 0x36 = some (.rfaUnpack zeroField [0#8]) := ⟨⟨rfl, rfl, rfl⟩, rfl, rfl, rfl⟩

/-- An access at a register's offset with another width, and one between registers, at the window's last byte. -/
theorem test_witness_unmapped_access :
    let regs := [(0x00, 32), (0x04, 32), (0x18, 8), (0x1A, 16), (0x1C, 32), (0x24, 32), (0x28, 8)]
    ready.turn = .host ∧ ready.running = none ∧ ready.cfg.base ≤ 0x4200003F ∧ 0x4200003F < ready.cfg.base + 0x40 ∧
    (0x4200003F - ready.cfg.base, 8) ∉ regs ∧ (0x42000018 - ready.cfg.base, 32) ∉ regs := by decide

theorem test_witness_step :
    get (step { ready with prog := [.op (encode (.wrAddr 0x32#32))] }) (fun t => (t.ctrl.sysop, t.trace)) = some (true, []) ∧
    get (move .bus (readyWith fun c => { c with busop := some (.addr 0x32#8) })) (fun t => t.trace.length) = some 2 := by
  decide

theorem test_witness_polling :
    let s := { readyWith (fun c => { c with sysop := true }) with
      running := some { origin := .instr .bccInit, todo := [.await .syncbusy 0x4#32 false] } }
    s.turn = .host ∧ s.running = some { origin := .instr .bccInit, todo := [.await .syncbusy 0x4#32 false] } ∧
    (rdReg .syncbusy s.ctrl &&& 0x4#32 ≠ 0#32 ↔ false = false) := by decide

theorem test_witness_agent_turn : ({ ready with turn := .bus } : State).turn ≠ .host := by decide

/-- No step of the controller is enabled in S0, whosever turn it is; and one with everything but the clock. -/
theorem test_witness_not_enabled (m : Move) :
    let s : State := { ready with turn := m }
    let u : State := { hung with turn := .swrstSync }
    (s.turn = m ∧ ¬(s.ctrl.syncSwrst = true ∧ s.clk = true) ∧
      ¬(s.ctrl.syncEnable = true ∧ s.ctrl.syncSwrst = false ∧ s.clk = true) ∧
      ¬(s.ctrl.sysop = true ∧ s.ctrl.pend ≠ none ∧ s.ctrl.en = true ∧ s.ctrl.syncSwrst = false ∧ s.clk = true) ∧
      ¬(s.ctrl.busstate = .unknown ∧ s.ctrl.en = true ∧ s.ctrl.syncSwrst = false ∧ s.clk = true ∧ s.pins = true) ∧
      ¬(s.ctrl.busop ≠ none)) ∧
    (u.turn = .swrstSync ∧ u.ctrl.syncSwrst = true ∧ ¬(u.ctrl.syncSwrst = true ∧ u.clk = true)) := by
  exact ⟨⟨rfl, by simp [ready, Ctrl.reset]⟩, rfl, rfl, by decide⟩

/-- The two steps that change the effective enable. -/
theorem test_witness_enable_changes :
    get (move .enableSync { ready with ctrl := { ready.ctrl with enable := false, syncEnable := true } }) (fun t => t.ctrl.en) =
      some false ∧
    get (move .swrstSync (readyWith fun c => { c with syncSwrst := true })) (fun t => t.ctrl.en) = some false ∧
    ready.ctrl.en = true := by decide

/-- What a procedure does with a value it has read is taken with its next access (R8): here `status <- st` after RD(STATUS), with
the RD of a poll. -/
theorem test_pure_with_next_access :
    let s := { ready with running := some { origin := .instr .bccInit, todo :=
      [.phase .addrNack, .await .intflag 0x1#32 true] } }
    get (move .host s) (fun t => t.status) = some none ∧
    get (andThen (move .host s) (move .host)) (fun t => t.status) = some (some .success) := by decide

/-- The steps that change the bound address. -/
theorem test_witness_bound_address :
    get (move .host { ready with prog := [.op (encode (.sockConnect 0x18))] }) (fun t => t.sockAddr) = some 0x18#7 ∧
    get (move .host { ready with prog := [.op (encode (.sockProbe [0x18]))] }) (fun t => t.sockAddr) = some 0x18#7 ∧
    get (move .host { ready with
      running := some { origin := .instr (.sockProbe [0x18]), todo := [.probeTry 0x18 []] } }) (fun t => t.sockAddr) =
      some 0x18#7 ∧
    get (move .host { ready with
      running := some { origin := .instr (.sockProbe [0x17, 0x18]), todo :=
        [.setStatus .addrNack, .retCount (.probe 0x17 [0x18]) 0] } }) (fun t => t.sockAddr) = some 0x18#7 ∧
    ready.sockAddr = 0x19#7 ∧ 127 ≤ 127 ∧ 127 < 128 := by decide

/-- Written values that differ in reserved bits alone, in states that take the write; and the states of the two protected
writes. -/
theorem test_witness_reserved_bits :
    0xFFFFFFE1#32 &&& 0x1F#32 = 0x1#32 &&& 0x1F#32 ∧ 0xFFF8FEFF#32 &&& 0x70100#32 = 0x0#32 &&& 0x70100#32 ∧
    0xFF#8 &&& 0x3#8 = 0x3#8 &&& 0x3#8 ∧ 0xFFDB#16 &&& 0x35#16 = 0x11#16 &&& 0x35#16 ∧
    0xFFFFFF32#32 &&& 0xFF#32 = 0x32#32 &&& 0xFF#32 ∧
    get (wrReg .ctrla 0x1#32 ready) (fun t => t.ctrl.syncSwrst) = some true ∧
    get (wrReg .ctrlb 0x0#32 ready) (fun t => t.ctrl.sysop) = some false ∧
    get (exec (.wrIntflag 0x3#8) writing) (fun t => t.ctrl.mb) = some false ∧
    get (exec (.wrStatus 0x11#16) ready) (fun t => t.ctrl.sysop) = some true ∧
    get (exec (.wrAddr 0x32#32) ready) (fun t => t.ctrl.hdr) = some 0x32#8 ∧
    ready.ctrl.en = true ∧ ready.ctrl.sysop = false ∧ ready.ctrl.busop = none := by decide

theorem test_witness_host_memory :
    let s := { ready with prog := [.act (.memWrite 4 [7#8]), .act (.memRead 4 [7#8].length)] }
    s.running = none ∧ s.prog = .act (.memWrite 4 [7#8]) :: .act (.memRead 4 [7#8].length) :: [] := ⟨rfl, rfl⟩

/-- The premises of the register writes beside NoSync and CanStart: an owner, a pending byte, a write phase. -/
theorem test_witness_writes :
    CanStart writing ∧ writing.ctrl.busstate = .owner ∧ writing.ctrl.dir = false ∧ writing.ctrl.ackpend = false ∧
    CanStart reading ∧ reading.ctrl.ackpend = true ∧ (0x20000#32).getLsbD 18 = false ∧
    (0x0#16).extractLsb' 4 2 ≠ 0b01#2 ∧ (0x10#16).extractLsb' 4 2 = 0b01#2 :=
  ⟨canStart_writing, rfl, rfl, rfl, canStart_reading, rfl, by decide, by decide, by decide⟩

/-- One state for each fault of the writes, in their order, and an operation-starting write. -/
theorem test_witness_faults :
    startsOp (.wrStatus 0x10#16) = true ∧ startsOp (.wrData 0#8) = true ∧
    (readyWith fun c => { c with syncSwrst := true }).ctrl.syncSwrst = true ∧
    NoSync (readyWith fun c => { c with sysop := true }).ctrl ∧
    (NoSync State.reset.ctrl ∧ State.reset.ctrl.sysop = false ∧ State.reset.ctrl.busop = none ∧ State.reset.ctrl.en = false) ∧
    ((readyWith fun c => { c with mode := 0b100#3 }).ctrl.en = true ∧ 0b100#3 ≠ 0b101#3) ∧
    ({ ready with sdaFn := .other 3 } : State).pins = false ∧
    (CanStart ready ∧ ready.ctrl.busstate ≠ .owner ∧ ready.ctrl.ackpend = false) ∧
    (CanStart reading ∧ reading.ctrl.ackpend = true ∧ reading.ctrl.smen = false ∧ (0x60000#32).getLsbD 18 = true) ∧
    reading.ctrl.dir = true :=
  ⟨by decide, by decide, rfl, ⟨rfl, rfl⟩, ⟨⟨rfl, rfl⟩, rfl, rfl, rfl⟩, by decide, by decide,
    ⟨canStart_ready, by decide, rfl⟩, ⟨canStart_reading, rfl, rfl, by decide⟩, rfl⟩

theorem test_witness_software_reset :
    let s := { writing with turn := .swrstSync, ctrl := { writing.ctrl with syncSwrst := true } }
    s.turn = .swrstSync ∧ s.ctrl.syncSwrst = true ∧ s.clk = true := ⟨rfl, rfl, rfl⟩

theorem test_witness_enable_step :
    let s := { writing with turn := .enableSync, ctrl := { writing.ctrl with enable := false, syncEnable := true } }
    s.turn = .enableSync ∧ s.ctrl.syncEnable = true ∧ s.ctrl.syncSwrst = false ∧ s.clk = true ∧
    s.ctrl.en = true ∧ s.ctrl.enable = false ∧ ¬(({ s.ctrl with en := false } : Ctrl).en = true ∧ s.ctrl.enable = false) := by decide

theorem test_witness_sysop_step (p : PendOp) :
    let s := { ready with turn := .sysopSync, ctrl := { ready.ctrl with sysop := true, pend := some p } }
    s.turn = .sysopSync ∧ s.ctrl.sysop = true ∧ s.ctrl.en = true ∧ s.ctrl.syncSwrst = false ∧ s.clk = true ∧
    s.ctrl.pend = some p := ⟨rfl, rfl, rfl, rfl, rfl, rfl⟩

/-- Any bus operation in progress, on an idle and on an owned bus. -/
theorem test_witness_bus_step (b : BusOp) :
    (let s := { ready with turn := .bus, ctrl := { ready.ctrl with busop := some b } };
      s.turn = .bus ∧ s.ctrl.busop = some b ∧ s.ctrl.busstate = .idle ∧ s.ctrl.en = true ∧ s.clk = true ∧
      s.ctrl.syncSwrst = false ∧ stalled s = false) ∧
    (let s := { reading with turn := .bus, ctrl := { reading.ctrl with busop := some b } };
      s.turn = .bus ∧ s.ctrl.busop = some b ∧ s.ctrl.busstate = .owner ∧ s.ctrl.en = true ∧ s.clk = true ∧
      s.ctrl.syncSwrst = false ∧ stalled s = false) :=
  ⟨⟨rfl, rfl, rfl, rfl, rfl, rfl, rfl⟩, ⟨rfl, rfl, rfl, rfl, rfl, rfl, rfl⟩⟩

theorem test_witness_bus_idle :
    let s := { ready with turn := .busIdle, ctrl := { ready.ctrl with busstate := .unknown } }
    s.turn = .busIdle ∧ s.ctrl.en = true ∧ s.ctrl.busstate = .unknown ∧ s.clk = true ∧ s.pins = true ∧
    s.ctrl.syncSwrst = false := ⟨rfl, rfl, rfl, rfl, rfl, rfl⟩

theorem test_witness_simulated_target :
    ready.env = .sim target ∧ target.addressed = false ∧
    ({ target with addressed := true } : SimTarget).reading = false ∧
    ({ target with addressed := true, reading := true } : SimTarget).addressed = true :=
  ⟨rfl, rfl, rfl, rfl⟩

theorem test_witness_enable_and_disable :
    NoSync ready.ctrl ∧ ready.clk = true ∧ ready.ctrl.en = ready.ctrl.enable ∧ ready.ctrl.mode = 0b101#3 ∧
    ready.sdaFn = .i2c ∧ ready.sclFn = .i2c ∧ ready.ctrl.sysop = false ∧ ready.ctrl.busop = none ∧ ready.ctrl.en = true ∧
    State.reset.ctrl.en = false ∧ State.reset.ctrl.en = State.reset.ctrl.enable :=
  ⟨noSync_ready, rfl, rfl, rfl, rfl, rfl, rfl, rfl, rfl, rfl, rfl⟩

/-- An address that the target has and one that it has not, at the end of the range. -/
theorem test_witness_address_phase :
    BusFree ready ∧ ready.env = .sim target ∧ 0x19 < 128 ∧ 0x19 = target.addr.toNat ∧ 127 < 128 ∧ 127 ≠ target.addr.toNat ∧
    ready.cfg.readNackFlag = .sb := ⟨busFree_ready, rfl, by decide, by decide, by decide, by decide, rfl⟩

theorem test_witness_send_data :
    WritePhase writing ∧ (∀ n, stalled { writing with tick := n } = false) ∧ writing.ctrl.buserr = false :=
  ⟨writePhase_writing, fun _ => rfl, rfl⟩

theorem test_witness_recv_data :
    reading.ctrl.sb = true ∧ reading.ctrl.buserr = false ∧
    (readyWith fun c => { c with sb := true, buserr := true }).ctrl.buserr = true := ⟨rfl, rfl, rfl⟩

theorem test_witness_recv_burst :
    ReadPhase reading { target with addressed := true, reading := true, ptr := 1#8 } ∧ reading.ctrl.ackact = .ack :=
  ⟨readPhase_reading, rfl⟩

theorem test_witness_send_cmd :
    CanStart writing ∧ writing.clk = true ∧ writing.env = .sim { target with addressed := true } ∧
    writing.ctrl.busstate = .owner := ⟨canStart_writing, rfl, rfl, rfl⟩

theorem test_witness_ack_policy :
    ({ ready with cfg := { params with smart := true } } : State).cfg.smart = true ∧ ready.cfg.smart = false ∧ NoSync ready.ctrl ∧
    ready.ctrl.sysop = false ∧ ready.ctrl.busop = none := ⟨rfl, rfl, noSync_ready, rfl, rfl⟩

theorem test_witness_phase :
    let s := { ready with running := some { origin := .instr .bccInit, todo := [.phase .addrNack, .retCount .status 0] } }
    s.turn = .host ∧ s.running = some { origin := .instr .bccInit, todo := [.phase .addrNack, .retCount .status 0] } :=
  ⟨rfl, rfl⟩

/-- Two bytes the host has written. -/
theorem holds_two : Holds [(4, 0x0F#8), (5, 0x03#8)] 4 [0x0F#8, 0x03#8] := by
  intro k hk
  have : k = 0 ∨ k = 1 := by simp at hk; omega
  rcases this with rfl | rfl <;> rfl

/-- Three bytes the host has written. -/
theorem holds_three : Holds [(4, 0x0F#8), (5, 0x03#8), (6, 0x01#8)] 4 [0x0F#8, 0x03#8, 0x01#8] := by
  intro k hk
  have : k = 0 ∨ k = 1 ∨ k = 2 := by simp at hk; omega
  rcases this with rfl | rfl | rfl <;> rfl

/-- One byte the host has written. -/
theorem holds_one : Holds [(4, 0x0F#8)] 4 [0x0F#8] := by
  intro k hk
  obtain rfl : k = 0 := by simpa using hk
  rfl

/-- The premises of the frames of each length, and the frame limit at its bound. -/
theorem test_witness_sock_send :
    BusFree ready ∧ ready.env = .sim target ∧ ready.sockAddr = target.addr ∧
    ({ ready with sockAddr := 0x18#7 } : State).sockAddr ≠ target.addr ∧ ready.cfg.maxFrame < 3 ∧ 2 ≤ ready.cfg.maxFrame ∧
    Holds [(4, 0x0F#8)] 4 [0x0F#8] ∧ Holds [(4, 0x0F#8), (5, 0x03#8)] 4 [0x0F#8, 0x03#8] ∧ target.j ∉ target.rej ∧
    target.j ∈ ({ target with rej := [0] } : SimTarget).rej ∧ 3 + 1 ≤ ({ params with maxFrame := 4 } : Params).maxFrame ∧
    Holds [(4, 0x0F#8), (5, 0x03#8), (6, 0x01#8)] 4 [0x0F#8, 0x03#8, 0x01#8] :=
  ⟨busFree_ready, rfl, rfl, by decide, by decide, by decide, holds_one, holds_two, by decide, by decide, by decide,
    holds_three⟩

theorem test_witness_sock_recv :
    OnBus ready target ∧ ready.sockAddr = target.addr ∧ ({ ready with sockAddr := 0x18#7 } : State).sockAddr ≠ target.addr ∧
    ready.cfg.readNackFlag = .sb := ⟨onBus_ready, rfl, by decide, rfl⟩

theorem test_witness_sock_probe :
    (∀ a ∈ [0x18, 0x7F], a < 128 ∧ a ≠ target.addr.toNat) ∧ (∀ a ∈ [0x18] ++ [0x7F], a < 128 ∧ a ≠ target.addr.toNat) := by
  decide

/-- Fields of EX_MAP by index and by name, an index and a name of no field. -/
theorem test_witness_field_reference :
    ready.cfg.map[4]? = some exRange ∧ exRange.name = some "range" ∧ (∀ g ∈ ready.cfg.map.take 4, g.name ≠ some "range") ∧
    ready.cfg.map.length ≤ 5 ∧ (∀ g ∈ ready.cfg.map, g.name ≠ some "nope") := by decide

/-- A sub-field of a field whose `dflt` is 0, by its kind. -/
theorem exSub_ok (n : Option Ident) (o w size : Nat) (k : Kind) (hw : 1 ≤ w) (hp : o + w ≤ 8 * size)
    (hf : k = .flag → w = 1) (hs : k = .signed → 2 ≤ w)
    (hc : ∀ cs, k = .enum cs → (cs.map Prod.fst).Nodup ∧ ∀ c ∈ cs, c.1 < 2 ^ w) : SubWellFormed size (exSub n o w k) where
  width := hw
  place := hp
  flag := hf
  signed := hs
  codes := hc
  dflt := by
    intro h
    cases k with
    | unsigned => exact ⟨Int.le_refl _, Int.pow_pos (by decide)⟩
    | flag => exact .inl rfl
    | signed =>
      have h : (0 : Int) < 2 ^ (w - 1) := Int.pow_pos (by decide)
      exact ⟨by simp only [exSub]; omega, h⟩
    | enum cs => exact absurd rfl (h cs)
  enumDflt := fun _ _ => ⟨Int.le_refl _, Int.pow_pos (by decide)⟩

/-- The field of three signed axes is well-formed. -/
theorem test_witness_field : FieldWellFormed exAccd where
  size := by decide
  names := by decide
  subs := by
    intro s hs
    simp only [Field.allSubs, exAccd, List.mem_cons, List.not_mem_nil, or_false] at hs
    rcases hs with rfl | rfl | rfl | rfl | rfl | rfl | rfl | rfl | rfl <;>
      exact exSub_ok _ _ _ _ _ (by decide) (by decide) (by simp) (by simp) (by simp)
  disjoint := by decide

/-- The field with an enumeration is well-formed. -/
theorem test_witness_enum_field : FieldWellFormed exRange where
  size := by decide
  names := by decide
  subs := by
    intro s hs
    simp only [Field.allSubs, exRange, List.mem_cons, List.not_mem_nil, or_false] at hs
    rcases hs with rfl | rfl <;> refine exSub_ok _ _ _ _ _ (by decide) (by decide) (by simp) (by simp) ?_
    · rintro cs ⟨⟩; decide
    · rintro cs ⟨⟩
  disjoint := by decide

/-- A raw field is well-formed. -/
theorem rawField_ok (n : Option Ident) (z : Nat) (h : 1 ≤ z) : FieldWellFormed { name := n, size := z, subs := [] } where
  size := h
  names := by cases n <;> simp [Field.allSubs]
  subs := by
    intro s hs
    simp only [Field.allSubs, List.mem_cons, List.not_mem_nil, or_false] at hs
    subst hs
    exact exSub_ok n 0 (8 * z) z .unsigned (by omega) (by omega) (by simp) (by simp) (by simp)
  disjoint := by simp [Field.allSubs]

/-- EX_MAP is well-formed (R290); a map with a field of no bytes is not. -/
theorem test_witness_map : MapWellFormed exMap ∧ ¬MapWellFormed [{ name := none, size := 0, subs := [] }] := by
  refine ⟨⟨by decide, by decide, ?_⟩, fun h => ?_⟩
  · intro f hf
    simp only [exMap, List.mem_cons, List.not_mem_nil, or_false] at hf
    rcases hf with rfl | rfl | rfl | rfl | rfl
    · exact rawField_ok _ _ (by decide)
    · exact rawField_ok _ _ (by decide)
    · exact test_witness_field
    · exact rawField_ok _ _ (by decide)
    · exact test_witness_enum_field
  · have := (h.fields _ (List.mem_singleton.2 rfl)).size
    simp at this

/-- Values at the ends of a range and beyond, an entry list of another length, bytes with an unlisted code. -/
theorem test_witness_pack :
    [some (3 : Int), some 15].length = exRange.allSubs.length ∧ [some (3 : Int)].length ≠ exRange.allSubs.length ∧
    (exRange.allSubs.zip [some (12 : Int), none]).all (fun p => inRange p.1 (p.2.getD p.1.dflt)) = true ∧
    (exRange.allSubs.zip [some (4 : Int), none]).all (fun p => inRange p.1 (p.2.getD p.1.dflt)) = false ∧
    inRange (exSub none 6 10 .signed) (-512) = true ∧ inRange (exSub none 6 10 .signed) 511 = true ∧
    inRange (exSub none 6 10 .signed) 512 = false ∧ [0xF8#8].length = exRange.size ∧
    exRange.size ≤ [0xF8#8].length ∧ ([] : List Byte).length < exRange.size := by decide

/-- Pack values that meet InRange, at a signed sub-field's bounds; and one that does not. -/
theorem test_witness_in_range :
    InRange (exSub none 6 10 .signed) (-512) ∧ InRange (exSub none 6 10 .signed) 511 ∧
    ¬InRange (exSub none 6 10 .signed) 512 ∧ InRange (exSub none 0 4 (.enum [(3, "G2")])) 3 := by
  simp [InRange, exSub]

/-- A write up to the last register, and the first rejected byte in second place. -/
theorem test_witness_rfa_write :
    256 ≤ 256 ∧ 2 ≤ ready.cfg.maxFrame ∧ 254 + [0x0F#8, 0x03#8].length ≤ 256 ∧
    Holds [(4, 0x0F#8), (5, 0x03#8)] 4 [0x0F#8, 0x03#8] ∧ [0x0F#8, 0x03#8].getLast? = some 0x03#8 ∧
    (∀ k, k < 2 → target.j + k ∉ target.rej) ∧ [0x0F#8, 0x03#8][1]? = some 0x03#8 ∧
    target.j + 1 ∈ ({ target with rej := [1] } : SimTarget).rej ∧ (∀ i, i < 1 → target.j + i ∉ ({ target with rej := [1] } : SimTarget).rej) :=
  ⟨by decide, by decide, by decide, holds_two, rfl, by decide, rfl, by decide, by decide⟩

theorem test_witness_rfa_read :
    OnBus ready target ∧ ready.sockAddr = target.addr ∧ 1 ≤ ready.cfg.maxFrame ∧ 253 + (2 + 1) ≤ 256 ∧ 256 ≤ 256 ∧
    ({ ready with sockAddr := 0x18#7 } : State).sockAddr ≠ target.addr ∧ 253 + 3 ≤ 256 ∧
    ({ ready with cfg := { params with maxFrame := 0 } } : State).cfg.maxFrame = 0 :=
  ⟨onBus_ready, rfl, by decide, by decide, by decide, by decide, by decide, rfl⟩

theorem test_witness_field_dispatcher :
    OnBus ready target ∧ ready.sockAddr = target.addr ∧ ready.cfg.map[4]? = some exRange ∧ 1 ≤ exRange.size ∧
    ((ready.cfg.map.take 4).map Field.size).sum + exRange.size ≤ 256 ∧ 2 ≤ ready.cfg.maxFrame ∧
    (∀ k, k < exRange.size → target.j + k ∉ target.rej) ∧ [some (8 : Int), none].length = exRange.allSubs.length ∧
    (∀ p ∈ exRange.allSubs.zip [some (8 : Int), none], InRange p.1 (p.2.getD p.1.dflt)) :=
  ⟨onBus_ready, rfl, rfl, by decide, by decide, by decide, by decide, rfl, by
    simp only [exRange, Field.allSubs, exSub, InRange, List.zip_cons_cons, List.zip_nil_left, List.mem_cons,
      List.not_mem_nil, or_false, forall_eq_or_imp, forall_eq, Option.getD]
    exact ⟨⟨_, .inr (.inr (.inl rfl)), rfl⟩, by decide, by decide⟩⟩

/-- One case for each operand fault, at the bound. -/
theorem test_witness_operand_faults :
    127 < 128 ∧ 0 < 1 ∧ 256 < 256 + 1 ∧ memRead ready.mem 0 = none ∧ 255 + 1 ≤ 256 ∧
    (∃ p ∈ exRange.allSubs.zip [some (4 : Int), none], ¬InRange p.1 (p.2.getD p.1.dflt)) ∧
    (let s := { ready with prog := [.act .readStatus] };
      s.turn = .host ∧ s.running = none ∧ s.prog = .act .readStatus :: [] ∧ s.status = none) := by
  refine ⟨by decide, by decide, by decide, rfl, by decide, ?_, rfl, rfl, rfl, rfl⟩
  exact ⟨(exSub (some "range") 0 4 (.enum [(3, "G2"), (5, "G4"), (8, "G8"), (12, "G16")]), some 4), by
    simp [exRange, Field.allSubs], by simp [InRange, exSub]⟩

theorem hung_run : IsRun (fun _ => .host) (fun n => ticked n hung) := by
  intro n
  have e : (rdReg .syncbusy hung.ctrl &&& 0x1#32 != 0#32) = true := by decide
  have h : (ticked n hung).ctrl = hung.ctrl := rfl
  rw [step_running (o := .instr .bccReset) (st := .await .syncbusy 0x1#32 false) (rest := []) rfl rfl rfl]
  simp only [access, h, e, Bool.true_eq_false, if_false]
  rfl

theorem test_witness_hang_no_clock :
    IsRun (fun _ => .host) (fun n => ticked n hung) ∧
    (ticked 0 hung).running = some { origin := .instr .bccReset, todo := [.await .syncbusy 0x1#32 false] } ∧
    (rdReg .syncbusy (ticked 0 hung).ctrl &&& 0x1#32 ≠ 0#32 ↔ false = false) ∧ (ticked 0 hung).clk = false :=
  ⟨hung_run, rfl, by decide, rfl⟩

/-- A run that polls for ever: `eng.recv_data_sync` with nothing under way (P5). -/
def waiting : State :=
  { ready with running := some { origin := .instr (.engRecvDataSync 3), todo := [.await .intflag 0x2#32 true] } }

theorem waiting_run : IsRun (fun _ => .host) (fun n => ticked n waiting) := by
  intro n
  have e : (rdReg .intflag waiting.ctrl &&& 0x2#32 != 0#32) = false := by decide
  have h : (ticked n waiting).ctrl = waiting.ctrl := rfl
  rw [step_running (o := .instr (.engRecvDataSync 3)) (st := .await .intflag 0x2#32 true) (rest := []) rfl rfl rfl]
  simp only [access, h, e, Bool.false_eq_true, if_false]
  rfl

theorem test_witness_hang_no_flag :
    IsRun (fun _ => .host) (fun n => ticked n waiting) ∧
    (ticked 0 waiting).running = some { origin := .instr (.engRecvDataSync 3), todo := [.await .intflag 0x2#32 true] } ∧
    (rdReg .intflag (ticked 0 waiting).ctrl &&& 0x2#32 ≠ 0#32 ↔ true = false) ∧ NoSync (ticked 0 waiting).ctrl ∧
    (ticked 0 waiting).ctrl.sysop = false ∧ (ticked 0 waiting).ctrl.busop = none :=
  ⟨waiting_run, rfl, by decide, ⟨rfl, rfl⟩, rfl, rfl⟩

/-- The machine of `hung` with its clock. -/
def resetting : State := { hung with clk := true }

/-- Its states: the SWRST step, the host's last poll, then nothing. -/
def resetStates : Nat → State
  | 0 => resetting
  | 1 => ticked 1 { resetting with ctrl := Ctrl.reset }
  | n + 2 => ticked (n + 2) { resetting with ctrl := Ctrl.reset, running := none }

/-- Its moves. -/
def resetMoves : Nat → Move
  | 0 => .swrstSync
  | _ + 1 => .host

theorem test_witness_reset_run :
    IsRun resetMoves resetStates ∧ SyncFair resetMoves resetStates ∧
    (resetStates 0).running = some { origin := .instr .bccReset, todo := [.await .syncbusy 0x00000001#32 false] } ∧
    (resetStates 0).clk = true := by
  have off : ∀ m, m = .swrstSync ∨ m = .enableSync ∨ m = .sysopSync → ∀ n, enabled m (resetStates (n + 1)) = false := by
    intro m hm n
    cases n <;> rcases hm with rfl | rfl | rfl <;> rfl
  refine ⟨?_, ⟨?_, ?_, ?_⟩, rfl, rfl⟩
  · intro n
    match n with
    | 0 => rfl
    | 1 => rfl
    | n + 2 => rfl
  · intro n h
    cases n with
    | zero => exact ⟨0, Nat.le_refl _, rfl, rfl⟩
    | succ n => simpa [off _ (.inl rfl)] using h (n + 1) (Nat.le_refl _)
  · intro n h; simpa [off _ (.inr (.inl rfl))] using h (n + 1) (Nat.le_succ n)
  · intro n h; simpa [off _ (.inr (.inr rfl))] using h (n + 1) (Nat.le_succ n)


end Sys2Proof.Tests
end

section
/-! The host's own program and memory (spec/00_scope.md): what a step makes of a program entry, of a poll, and of the
bytes the host writes and reads. -/

namespace Sys2Proof.Proofs

open Sys2Proof.Machine Sys2Proof.Safety

-- host memory: a run of bytes written, and read back (R76)

/-- A byte outside the addresses written is as it was. -/
theorem memRead_memPutBytes_outside (bs : List Byte) (m : Memory) (a x : Nat) (h : x < a ∨ a + bs.length ≤ x) :
    memRead (memPutBytes m a bs) x = memRead m x := by
  induction bs generalizing m a with
  | nil => rfl
  | cons b bs ih =>
    simp only [List.length_cons] at h
    calc memRead (memPutBytes m a (b :: bs)) x
        = memRead (memPut m a b) x := ih (memPut m a b) (a + 1) (by omega)
      _ = memRead m x := memRead_memPut_other m a x b (by omega)

theorem holds_cons {m : Memory} {a : Nat} {b : Byte} {bs : List Byte} :
    Holds m a (b :: bs) ↔ memRead m a = some b ∧ Holds m (a + 1) bs := by
  constructor
  · intro h
    refine ⟨by simpa using h 0 (by simp), fun k hk => ?_⟩
    simpa [Nat.add_assoc, Nat.add_comm 1 k] using h (k + 1) (by simpa using hk)
  · rintro ⟨hb, hbs⟩ k hk
    cases k with
    | zero => simpa using hb
    | succ k => simpa [Nat.add_assoc, Nat.add_comm 1 k] using hbs k (by simpa using hk)

/-- Memory holds the bytes written last: the first is not among the addresses that the rest are written to. -/
theorem holds_memPutBytes (m : Memory) (a : Nat) (bs : List Byte) : Holds (memPutBytes m a bs) a bs := by
  induction bs generalizing m a with
  | nil => intro k hk; simp at hk
  | cons b bs ih =>
    have first : memRead (memPutBytes (memPut m a b) (a + 1) bs) a = some b := by
      rw [memRead_memPutBytes_outside _ _ _ _ (.inl (Nat.lt_succ_self a)), memRead_memPut_same]
    exact holds_cons.2 ⟨first, ih (memPut m a b) (a + 1)⟩

theorem memReadBytes_of_holds {m : Memory} {a : Nat} {bs : List Byte} (h : Holds m a bs) :
    memReadBytes m a bs.length = some bs := by
  induction bs generalizing a with
  | nil => rfl
  | cons b bs ih =>
    obtain ⟨hb, hbs⟩ := holds_cons.1 h
    simp only [List.length_cons, memReadBytes, hb, ih hbs]

-- a host step on a program entry (R8, R346)

/-- A step is the move it is the turn of, and then the model's own count and free choice. -/
theorem step_eq_andThen (s : State) : step s = andThen (moveAs s.turn s) (fun t => .next (advance t)) := by
  simp only [step]
  cases moveAs s.turn s <;> rfl

/-- With no procedure in progress the host takes the entry at the head of its program and runs it. -/
theorem step_entry {s : State} {x : Item} {rest : List Item} (ht : s.turn = .host) (hr : s.running = none)
    (hp : s.prog = x :: rest) :
    step s = andThen (runEntry x { s with prog := rest }) (fun t => .next (advance t)) := by
  simp only [step_eq_andThen, ht, moveAs, hostMove, hr, hp]

/-- The run's next host move, where it is an entry that answers a next state. -/
theorem runAs_entry {s t : State} {x : Item} {rest : List Item} (ms : List Move) (hr : s.running = none)
    (hp : s.prog = x :: rest) (hx : runEntry x { s with turn := .host, prog := rest } = .next t) :
    runAs (.host :: ms) s = runAs ms (advance t) := by
  rw [runAs_cons, step_entry (s := { s with turn := .host }) rfl hr hp, hx]
  rfl

theorem runEntry_op {w : HostWord} {i : Instr} (h : decode w = .ok i) (s : State) : runEntry (.op w) s = exec i s := by
  simp only [runEntry, entryInstr, h]

theorem runEntry_memWrite (a : Nat) (bs : List Byte) (s : State) :
    runEntry (.act (.memWrite a bs)) s = .next { s with mem := memPutBytes s.mem a bs } := rfl

theorem runEntry_memRead {a : Nat} {bs : List Byte} {s : State} (h : Holds s.mem a bs) :
    runEntry (.act (.memRead a bs.length)) s = .next (giveValue (.bytes bs) s) := by
  simp only [runEntry, entryInstr, hostAct, memReadBytes_of_holds h]

/-- The host's move on a write of its memory. -/
theorem runAs_memWrite {s : State} {a : Nat} {bs : List Byte} {rest : List Item} (ms : List Move)
    (hr : s.running = none) (hp : s.prog = .act (.memWrite a bs) :: rest) :
    runAs (.host :: ms) s = runAs ms (ticked 1 { s with prog := rest, mem := memPutBytes s.mem a bs }) := by
  rw [runAs_entry ms hr hp (runEntry_memWrite ..)]
  rfl

/-- The host's move on a read of its memory, at an address that holds the bytes. -/
theorem runAs_memRead {s : State} {a : Nat} {bs : List Byte} {rest : List Item} (ms : List Move)
    (hr : s.running = none) (hp : s.prog = .act (.memRead a bs.length) :: rest) (h : Holds s.mem a bs) :
    runAs (.host :: ms) s = runAs ms (ticked 1 { s with prog := rest, results := s.results ++ [.bytes bs] }) := by
  rw [runAs_entry ms hr hp (runEntry_memRead h)]
  rfl

theorem decode_of_decodeTableWord {nbits w : Nat} {i : Instr} (h : decodeTableWord nbits w = some i) :
    decode (tableWord nbits w) = .ok i := by
  unfold decodeTableWord at h
  split at h
  · rename_i j hj
    cases h
    exact hj
  · cases h

-- a poll (R8)

/-- A poll whose condition does not hold reads its register and puts itself back. -/
theorem access_await_pending {r : Reg} {mask : Word} {set : Bool} {s : State} (o : Origin)
    (h : rdReg r s.ctrl &&& mask ≠ 0#32 ↔ set = false) :
    access o (.await r mask set) s = .next (s, [.await r mask set]) := by
  have hne : (rdReg r s.ctrl &&& mask != 0#32) ≠ set := by
    cases set <;> simpa using h
  simp only [access, if_neg hne]

theorem setTodo_self {s : State} {o : Origin} {l : List Stmt} (h : s.running = some { origin := o, todo := l }) :
    setTodo l s = s := by
  have e : s.running.map (fun r => { r with todo := l }) = s.running := by rw [h]; rfl
  rw [setTodo, e]

-- the obligations

/-- Settles O19: the bytes written are held (`holds_memPutBytes`), so the read that follows gives them, and the others are
as they were. -/
theorem hostMemoryReadsBackWhatWasWritten : Obligations.HostMemoryReadsBackWhatWasWritten := by
  intro s a bs rest hr hp
  refine ⟨memPutBytes s.mem a bs, ?_, fun x => memRead_memPutBytes_outside bs s.mem a x⟩
  calc runAs [.host, .host] s
      = runAs [.host] (ticked 1
          { s with prog := .act (.memRead a bs.length) :: rest, mem := memPutBytes s.mem a bs }) :=
        runAs_memWrite [.host] hr hp
    _ = runAs [] (ticked 1 _) := runAs_memRead [] hr rfl (holds_memPutBytes s.mem a bs)
    _ = _ := rfl

/-- Settles O6: the entry taken off is the word's instruction, placed by the program or by `State.withFetchWord`. -/
theorem stepRunsTheDecodedInstruction : Obligations.StepRunsTheDecodedInstruction := by
  constructor
  · intro s w rest i ht hr hp hw
    rw [step_entry ht hr hp, runEntry_op hw]
    rfl
  · intro s nbits w i hw
    rw [State.withFetchWord, step_entry (placeWord_turn _ _) (placeWord_running _ _) (placeWord_prog _ _),
      runEntry_op (decode_of_decodeTableWord hw)]
    rfl

/-- Settles O8: the access of a pending poll puts the poll back, and what is left begins with an access again. -/
theorem pollingKeepsItsPlace : Obligations.PollingKeepsItsPlace := by
  intro s o r mask set rest ht hr h
  rw [step_running ht hr rfl, access_await_pending o h, andThen_next_left, List.singleton_append, leave_access rfl,
    setTodo_self hr, advance_eq]

end Sys2Proof.Proofs
end

section
/-! A host step (spec/00_scope.md R8): what each register write needs and answers, and what a step can do to the controller,
host memory and the bound address. -/

namespace Sys2Proof.Proofs

open Sys2Proof.Machine Sys2Proof.Safety

-- what each register write needs and answers (R130 to R142)

theorem execWrCtrlaConfig_eq_next {v : Word} {s t : State} :
    execWrCtrlaConfig v s = .next t ↔ NoSync s.ctrl ∧ t = { s with ctrl := configCtrla v s.ctrl } := by
  rw [execWrCtrlaConfig, guarded_eq_next, guardSync_eq_none]

theorem execWrCtrlbNoop_eq_next {v : Word} {s t : State} :
    execWrCtrlbNoop v s = .next t ↔
      (NoSync s.ctrl ∧ s.ctrl.sysop = false ∧ s.ctrl.busop = none) ∧ t = { s with ctrl := writeAckPolicy v s.ctrl } := by
  simp only [execWrCtrlbNoop, guarded_eq_next, Option.or_eq_none_iff, guardSync_eq_none, ← opBusy_eq_false,
    ite_eq_right_iff, reduceCtorEq, imp_false, Bool.not_eq_true]

theorem execWrCtrlbRepeatStart_eq_next {v : Word} {s t : State} :
    execWrCtrlbRepeatStart v s = .next t ↔
      (CanStart s ∧ s.ctrl.busstate = .owner) ∧
        t = { s with ctrl := startOp (.cmd .repeatStart) (writeAckPolicy v s.ctrl) } := by
  simp only [execWrCtrlbRepeatStart, guarded_eq_next, Option.or_eq_none_iff, guardStart_eq_none, ite_eq_right_iff,
    reduceCtorEq, imp_false, ne_eq, Classical.not_not]

theorem execWrCtrlbReadContinue_eq_next {v : Word} {s t : State} :
    execWrCtrlbReadContinue v s = .next t ↔
      (CanStart s ∧ s.ctrl.ackpend = true ∧ ¬(s.ctrl.smen = false ∧ v.getLsbD 18 = true)) ∧
        t = { s with ctrl := startOp (.cmd .readContinue) { s.ctrl with ackact := ackOfBit (v.getLsbD 18) } } := by
  simp only [execWrCtrlbReadContinue, guarded_eq_next, Option.or_eq_none_iff, guardStart_eq_none, and_congr_left_iff,
    and_congr_right_iff]
  intro _ _
  cases s.ctrl.ackpend <;> simp

theorem execWrCtrlbStop_eq_next {v : Word} {s t : State} :
    execWrCtrlbStop v s = .next t ↔
      CanStart s ∧ t = { s with ctrl := startOp (.cmd .stop) { s.ctrl with ackact := ackOfBit (v.getLsbD 18) } } := by
  rw [execWrCtrlbStop, guarded_eq_next, guardStart_eq_none]

theorem execWrIntflag_eq_next {v : Byte} {s t : State} :
    execWrIntflag v s = .next t ↔ NoSync s.ctrl ∧
      t = { s with ctrl := { s.ctrl with mb := s.ctrl.mb && !v.getLsbD 0, sb := s.ctrl.sb && !v.getLsbD 1 } } := by
  rw [execWrIntflag, guarded_eq_next, guardSync_eq_none]

theorem execWrStatus_eq_next {v : BitVec 16} {s t : State} :
    execWrStatus v s = .next t ↔
      (if forcesIdle v then CanStart s else NoSync s.ctrl) ∧ t = { s with ctrl := statusWritten v s.ctrl } := by
  rw [execWrStatus, guarded_eq_next]
  split <;> simp only [guardStart_eq_none, guardSync_eq_none]

theorem execWrAddr_eq_next {v : Word} {s t : State} :
    execWrAddr v s = .next t ↔ CanStart s ∧
      t = { s with
        ctrl := startOp (.addr (v.extractLsb' 0 8)) { s.ctrl with hdr := v.extractLsb' 0 8, buserr := false } } := by
  rw [execWrAddr, guarded_eq_next, guardStart_eq_none]

theorem writePhase_eq_true {c : Ctrl} :
    writePhase c = true ↔ c.busstate = .owner ∧ c.dir = false ∧ c.ackpend = false := by
  simp [writePhase, and_assoc]

theorem execWrData_eq_next {v : Byte} {s t : State} :
    execWrData v s = .next t ↔
      (CanStart s ∧ s.ctrl.busstate = .owner ∧ s.ctrl.dir = false ∧ s.ctrl.ackpend = false) ∧
        t = { s with ctrl := startOp (.tx v) { s.ctrl with data := v } } := by
  simp only [execWrData, guarded_eq_next, Option.or_eq_none_iff, guardStart_eq_none, ite_eq_left_iff, reduceCtorEq,
    imp_false, Classical.not_not, writePhase_eq_true]

-- what a host step can do to the controller

/-- What an operation needs of the controller when the host asks for it (R133, R134, R142). -/
def Admits (c : Ctrl) : PendOp → Prop
  | .tx _ => c.busstate = .owner ∧ c.dir = false ∧ c.ackpend = false
  | .cmd .repeatStart => c.busstate = .owner
  | .cmd .readContinue => c.ackpend = true
  | _ => True

/-- What the host's register writes can do to the controller (R120, R130 to R142): ask for a software reset, write CTRLA's
configuration, write fields that nothing else depends on, or start an operation the controller admits. -/
inductive Written (c : Ctrl) : Ctrl → Prop where
  | swrst : Written c { c with syncSwrst := true }
  | config (v : Word) (sync : NoSync c) : Written c (configCtrla v c)
  | plain (smen : Bool) (ackact : Ack) (mb sb buserr : Bool) :
      Written c { c with smen := smen, ackact := ackact, mb := mb, sb := sb, buserr := buserr }
  | start (p : PendOp) (smen : Bool) (ackact : Ack) (mb sb buserr : Bool) (hdr data : Byte)
      (free : c.sysop = false ∧ c.busop = none) (en : c.en = true) (admits : Admits c p) :
      Written c { c with
        smen := smen, ackact := ackact, mb := mb, sb := sb, buserr := buserr, hdr := hdr, data := data
        pend := some p, sysop := true }

theorem Written.refl (c : Ctrl) : Written c c := .plain c.smen c.ackact c.mb c.sb c.buserr

/-- No write of the host's reaches the effective enable (R30). -/
theorem Written.en_eq {c c' : Ctrl} (h : Written c c') : c'.en = c.en := by
  cases h <;> rfl

theorem written_startOp {s : State} {p : PendOp} {c : Ctrl} (hs : CanStart s) (ha : Admits s.ctrl p)
    (hc : c = { s.ctrl with
      smen := c.smen, ackact := c.ackact, buserr := c.buserr, hdr := c.hdr, data := c.data }) :
    Written s.ctrl (startOp p c) := by
  rw [hc]
  exact .start p c.smen c.ackact false false c.buserr c.hdr c.data ⟨hs.sysop, hs.busop⟩ hs.en ha

theorem written_statusWritten {v : BitVec 16} {s : State} (h : if forcesIdle v then CanStart s else NoSync s.ctrl) :
    Written s.ctrl (statusWritten v s.ctrl) := by
  unfold statusWritten
  split at h
  · rename_i hv
    simp only [hv, if_true, Bool.or_true]
    exact .start .forceIdle _ _ _ _ _ _ _ ⟨h.sysop, h.busop⟩ h.en trivial
  · rename_i hv
    simp only [hv, Bool.or_false]
    exact .plain _ _ _ _ _

-- what a host step can do to the controller, host memory and the bound address

/-- What a step that reaches none of the controller, host memory's form and the bound address leaves as it was. -/
structure Untouched (s t : State) : Prop where
  ctrl : t.ctrl = s.ctrl
  sock : t.sockAddr = s.sockAddr
  mem : s.mem.wf = true → t.mem.wf = true

/-- What a host step can do: at most one register write, memory stays in canonical form, and the bound address changes only
where `binds` says it may. -/
structure HostEffect (binds : Prop) (s t : State) : Prop where
  ctrl : Written s.ctrl t.ctrl
  sock : t.sockAddr ≠ s.sockAddr → binds
  mem : s.mem.wf = true → t.mem.wf = true

theorem Untouched.refl (s : State) : Untouched s s := ⟨rfl, rfl, id⟩

theorem Untouched.effect {P : Prop} {s t : State} (h : Untouched s t) : HostEffect P s t :=
  ⟨h.ctrl ▸ .refl _, fun hne => absurd h.sock hne, h.mem⟩

theorem HostEffect.imp {P Q : Prop} {s t : State} (h : HostEffect P s t) (hPQ : P → Q) : HostEffect Q s t :=
  ⟨h.ctrl, hPQ ∘ h.sock, h.mem⟩

/-- What stands before and behind an effect without touching these fields does not show. -/
theorem HostEffect.between {P : Prop} {s u v t : State} (h : HostEffect P u v) (hu : Untouched s u)
    (ht : Untouched v t) : HostEffect P s t where
  ctrl := by rw [ht.ctrl, ← hu.ctrl]; exact h.ctrl
  sock := by rw [ht.sock, ← hu.sock]; exact h.sock
  mem := ht.mem ∘ h.mem ∘ hu.mem

theorem answer_effect {P : Prop} {s t u : State} (h : (Host.Outcome.next u : Out State) = .next t) (hu : Untouched s u) :
    HostEffect P s t := by
  cases h
  exact hu.effect

theorem written_effect {P : Prop} {s : State} {c : Ctrl} (h : Written s.ctrl c) : HostEffect P s { s with ctrl := c } :=
  ⟨h, fun hne => absurd rfl hne, id⟩

-- the register writes

theorem execWrCtrlaSwrst_effect {P : Prop} {v : Word} {s t : State} (h : execWrCtrlaSwrst v s = .next t) :
    HostEffect P s t := by
  cases h
  exact written_effect .swrst

theorem execWrCtrlaConfig_effect {P : Prop} {v : Word} {s t : State} (h : execWrCtrlaConfig v s = .next t) :
    HostEffect P s t := by
  obtain ⟨hs, rfl⟩ := execWrCtrlaConfig_eq_next.1 h
  exact written_effect (.config v hs)

theorem execWrCtrlbNoop_effect {P : Prop} {v : Word} {s t : State} (h : execWrCtrlbNoop v s = .next t) :
    HostEffect P s t := by
  obtain ⟨-, rfl⟩ := execWrCtrlbNoop_eq_next.1 h
  exact written_effect (.plain _ _ _ _ _)

theorem execWrCtrlbRepeatStart_effect {P : Prop} {v : Word} {s t : State} (h : execWrCtrlbRepeatStart v s = .next t) :
    HostEffect P s t := by
  obtain ⟨⟨hs, ho⟩, rfl⟩ := execWrCtrlbRepeatStart_eq_next.1 h
  exact written_effect (written_startOp hs ho rfl)

theorem execWrCtrlbReadContinue_effect {P : Prop} {v : Word} {s t : State}
    (h : execWrCtrlbReadContinue v s = .next t) : HostEffect P s t := by
  obtain ⟨⟨hs, ha, -⟩, rfl⟩ := execWrCtrlbReadContinue_eq_next.1 h
  exact written_effect (written_startOp hs ha rfl)

theorem execWrCtrlbStop_effect {P : Prop} {v : Word} {s t : State} (h : execWrCtrlbStop v s = .next t) :
    HostEffect P s t := by
  obtain ⟨hs, rfl⟩ := execWrCtrlbStop_eq_next.1 h
  exact written_effect (written_startOp hs trivial rfl)

theorem execWrIntflag_effect {P : Prop} {v : Byte} {s t : State} (h : execWrIntflag v s = .next t) :
    HostEffect P s t := by
  obtain ⟨-, rfl⟩ := execWrIntflag_eq_next.1 h
  exact written_effect (.plain _ _ _ _ _)

theorem execWrStatus_effect {P : Prop} {v : BitVec 16} {s t : State} (h : execWrStatus v s = .next t) :
    HostEffect P s t := by
  obtain ⟨hs, rfl⟩ := execWrStatus_eq_next.1 h
  exact written_effect (written_statusWritten hs)

theorem execWrAddr_effect {P : Prop} {v : Word} {s t : State} (h : execWrAddr v s = .next t) : HostEffect P s t := by
  obtain ⟨hs, rfl⟩ := execWrAddr_eq_next.1 h
  exact written_effect (written_startOp hs trivial rfl)

theorem execWrData_effect {P : Prop} {v : Byte} {s t : State} (h : execWrData v s = .next t) : HostEffect P s t := by
  obtain ⟨⟨hs, hp⟩, rfl⟩ := execWrData_eq_next.1 h
  exact written_effect (written_startOp hs hp rfl)

theorem wrReg_effect {P : Prop} {r : Reg} {v : Word} {s t : State} (h : wrReg r v s = .next t) : HostEffect P s t := by
  cases r with
  | ctrla =>
    simp only [wrReg] at h
    split at h
    · exact execWrCtrlaSwrst_effect h
    · exact execWrCtrlaConfig_effect h
  | ctrlb =>
    simp only [wrReg] at h
    split at h
    · exact execWrCtrlbNoop_effect h
    split at h
    · exact execWrCtrlbRepeatStart_effect h
    split at h
    · exact execWrCtrlbReadContinue_effect h
    · exact execWrCtrlbStop_effect h
  | intflag => exact execWrIntflag_effect h
  | status => exact execWrStatus_effect h
  | syncbusy => cases h
  | addr => exact execWrAddr_effect h
  | data => exact execWrData_effect h

-- procedures

theorem untouched_returnTo (r : Ret) (n : Nat) (s : State) : Untouched s (returnTo r n s) := by
  obtain ⟨p, v, h⟩ := returnTo_frame r n s
  rw [h]
  exact ⟨rfl, rfl, id⟩

/-- The pure statements keep host memory in canonical form. -/
theorem settle_mem_wf (l : List Stmt) (s : State) (h : s.mem.wf = true) : (settle l s).mem.wf = true := by
  induction l generalizing s with
  | nil => exact h
  | cons st rest ih =>
    cases st with
    | setStatus st => exact ih _ h
    | store dst k d => exact ih _ (dstWrite_wf dst k d s h)
    | orRet ret n =>
      simp only [settle]
      split
      · exact ih s h
      · exact (untouched_returnTo ret n s).mem h
    | retCount ret n => exact (untouched_returnTo ret n s).mem h
    | sendLoop src k len ret =>
      simp only [settle]
      split
      · exact h
      · exact ih s h
    | burstLoop dst k len ret =>
      simp only [settle]
      split
      · exact h
      · refine (untouched_returnTo ret len _).mem ?_
        split <;> exact h
    | _ => exact h

theorem untouched_of_pureFrame {s t : State} (h : PureFrame s t) (hm : s.mem.wf = true → t.mem.wf = true) :
    Untouched s t := ⟨by rw [h], by rw [h], hm⟩

theorem untouched_settle (l : List Stmt) (s : State) : Untouched s (settle l s) :=
  untouched_of_pureFrame (settle_frame l s) (settle_mem_wf l s)

theorem untouched_leave (l : List Stmt) (s : State) : Untouched s (leave l s) := by
  refine untouched_of_pureFrame (leave_frame l s) fun h => ?_
  simp only [leave]
  split
  · exact settle_mem_wf l s h
  · exact h

/-- A procedure's place after some of its statements: it is still the same procedure (R31). -/
def SameProcedure (s : State) (q : Running) : Prop := ∃ p, s.running = some p ∧ q.origin = p.origin

theorem setTodo_sameProcedure {l : List Stmt} {s : State} {q : Running} (h : (setTodo l s).running = some q) :
    SameProcedure s q := by
  obtain ⟨p, hp, rfl⟩ := Option.map_eq_some_iff.1 h
  exact ⟨p, hp, rfl⟩

theorem returnTo_sameProcedure {r : Ret} {n : Nat} {s : State} {q : Running} (h : (returnTo r n s).running = some q) :
    SameProcedure s q := by
  induction r generalizing n with
  | top => cases h
  | status => cases h
  | burst => cases h
  | recv next ih =>
    simp only [returnTo] at h
    split at h
    · exact setTodo_sameProcedure h
    · exact ih h
  | frame off src total len =>
    simp only [returnTo] at h
    split at h
    · split at h
      · exact setTodo_sameProcedure h
      · cases h
    · cases h
  | select dst len next ih =>
    simp only [returnTo] at h
    split at h
    · exact ih h
    · exact setTodo_sameProcedure h
  | probe a rest =>
    simp only [returnTo] at h
    split at h
    · cases h
    · split at h
      · cases h
      · exact setTodo_sameProcedure h
  | field i sz =>
    simp only [returnTo] at h
    split at h <;> cases h

theorem settle_sameProcedure {l : List Stmt} {s : State} {q : Running} (h : (settle l s).running = some q) :
    SameProcedure s q := by
  induction l generalizing s with
  | nil => cases h
  | cons st rest ih =>
    cases st with
    | setStatus st => exact ih (s := { s with status := some st }) h
    | store dst k d =>
      have hd := ih (s := dstWrite dst k d s) h
      cases dst <;> exact hd
    | orRet ret n =>
      simp only [settle] at h
      split at h
      · exact ih h
      · exact returnTo_sameProcedure h
    | retCount ret n => exact returnTo_sameProcedure h
    | retVal v => cases h
    | sendLoop src k len ret =>
      simp only [settle] at h
      split at h
      · exact setTodo_sameProcedure h
      · exact ih h
    | burstLoop dst k len ret =>
      simp only [settle] at h
      split at h
      · exact setTodo_sameProcedure h
      · split at h
        · exact returnTo_sameProcedure (s := { s with status := some .success }) h
        · exact returnTo_sameProcedure h
    | _ => exact setTodo_sameProcedure h

theorem accessWrite_effect {P : Prop} {r : Reg} {v : Word} {l l' : List Stmt} {s t : State}
    (h : accessWrite r v l s = .next (t, l')) : HostEffect P s t :=
  wrReg_effect (accessWrite_eq_next h).1

/-- An access binds the socket only where it is a probe's (R253). -/
theorem access_effect {o : Origin} {st : Stmt} {s t : State} {l : List Stmt} (h : access o st s = .next (t, l)) :
    HostEffect (∃ a more, st = .probeTry a more) s t := by
  cases st with
  | wr r v => exact accessWrite_effect h
  | wrData src k =>
    simp only [access] at h
    split at h
    · cases h
    · exact accessWrite_effect h
  | frame off src total len =>
    simp only [access, accessFrame] at h
    split at h
    · cases h
    · split at h
      · cases h
        exact Untouched.effect ⟨rfl, rfl, id⟩
      · exact accessWrite_effect h
  | probeTry a more =>
    simp only [access, accessProbe] at h
    split at h
    · cases h
    · have hw : HostEffect True _ t := accessWrite_effect h
      exact ⟨hw.ctrl, fun _ => ⟨a, more, rfl⟩, hw.mem⟩
  | service x =>
    cases h
    cases x with
    | pin p k => cases p <;> exact Untouched.effect ⟨rfl, rfl, id⟩
    | _ => exact Untouched.effect ⟨rfl, rfl, id⟩
  | _ =>
    simp only [access, Host.Outcome.next.injEq, Prod.mk.injEq] at h
    exact h.1 ▸ (Untouched.refl s).effect

/-- The host's next access is a probe of a candidate's (R253). -/
def ProbesNext (s : State) : Prop :=
  ∃ r a more rest, s.running = some r ∧ (settle r.todo s).running = some { r with todo := .probeTry a more :: rest }

theorem resume_effect {s t : State} (h : resume s = .next t) : HostEffect (ProbesNext s) s t := by
  rcases resume_cases h with ⟨-, rfl⟩ | ⟨r, -, rfl | rfl⟩ | ⟨r, o, st, rest, u, l, hr, hq, ha, rfl⟩
  · exact (Untouched.refl _).effect
  · exact (untouched_settle r.todo s).effect
  · exact (untouched_settle r.todo s).effect.between (.refl s) ⟨rfl, rfl, id⟩
  · refine ((access_effect ha).imp ?_).between (untouched_settle r.todo s) (untouched_leave _ u)
    rintro ⟨a, more, rfl⟩
    obtain ⟨p, hp, ho⟩ := settle_sameProcedure hq
    obtain rfl : p = r := Option.some.inj (hp.symm.trans hr)
    exact ⟨p, a, more, rest, hp, hq.trans (by rw [← ho])⟩

/-- Statements whose next access, wherever they are run, is no probe's. -/
def Unbinding (l : List Stmt) : Prop :=
  ∀ (s : State) (q : Running) (a : Nat) (more : List Nat) (rest : List Stmt),
    (settle l s).running = some q → q.todo ≠ .probeTry a more :: rest

/-- The access that calls `sock.connect` (R253). -/
def isProbe : Stmt → Bool
  | .probeTry _ _ => true
  | _ => false

/-- Statements that begin with an access, and it is no probe's. -/
def opensOther : List Stmt → Bool
  | [] => false
  | st :: _ => !isPure st && !isProbe st

theorem unbinding_of_opensOther {l : List Stmt} (h : opensOther l = true) : Unbinding l := by
  intro s q a more rest hq ht
  cases l with
  | nil => cases h
  | cons st l =>
    simp only [opensOther, Bool.and_eq_true, Bool.not_eq_true'] at h
    obtain ⟨hp, hn⟩ := h
    rw [settle_access hp] at hq
    obtain ⟨p, -, rfl⟩ := Option.map_eq_some_iff.1 hq
    cases ht
    cases hn

/-- `eng.recv_burst` reads bytes or returns (R225). -/
theorem unbinding_burst (dst : Dst) (len : Nat) : Unbinding [.burstLoop dst 0 len .burst] := by
  intro s q a more rest hq ht
  simp only [settle] at hq
  split at hq
  · obtain ⟨p, -, rfl⟩ := Option.map_eq_some_iff.1 hq
    cases ht
  · split at hq <;> cases hq

/-- A call of a procedure binds the socket only where its first access is a probe's. -/
theorem call_effect {P : Prop} {o : Origin} {l : List Stmt} {s t u : State} (h : call o l u = .next t)
    (hl : Unbinding l ∨ P) (hu : Untouched s u) : HostEffect P s t := by
  refine ((resume_effect h).imp ?_).between (u := { u with running := some ⟨o, l⟩ }) ⟨hu.ctrl, hu.sock, hu.mem⟩ (.refl t)
  rintro ⟨r, a, more, rest, hr, hq⟩
  cases hr
  exact hl.resolve_left fun hub => hub _ _ a more rest hq rfl

theorem call_access_effect {P : Prop} {o : Origin} {l : List Stmt} {s t u : State} (h : call o l u = .next t)
    (hl : opensOther l = true) (hu : Untouched s u) : HostEffect P s t :=
  call_effect h (.inl (unbinding_of_opensOther hl)) hu

-- the meanings of the instructions

/-- The instructions that bind the socket (R250, R253). -/
def BindsSocket (i : Instr) : Prop := (∃ a, i = .sockConnect a) ∨ ∃ cs, i = .sockProbe cs

theorem untouched_giveValue (v : Value) (s : State) : Untouched s (giveValue v s) := ⟨rfl, rfl, id⟩

theorem hostRead_effect {P : Prop} {r : Reg} {s t : State} (h : hostRead r s = .next t) : HostEffect P s t :=
  answer_effect h (untouched_giveValue _ s)

theorem writeRegs_effect {P : Prop} {o : Origin} {offset len : Nat} {src : Buf} {s t : State}
    (h : writeRegs o offset src len s = .next t) : HostEffect P s t := by
  unfold writeRegs at h
  split at h
  · exact answer_effect h (untouched_giveValue _ s)
  · exact call_access_effect h rfl (.refl s)

/-- The frame that selects a register, or, where there is no room for it, a return (R285). -/
theorem readRegs_effect {P : Prop} {o : Origin} {offset len : Nat} {dst : Dst} {ret : Ret} {s t u : State}
    (h : readRegs o offset dst len ret u = .next t) (hret : ∀ s, (returnTo ret 0 s).running = none)
    (hu : Untouched s u) : HostEffect P s t := by
  unfold readRegs at h
  split at h
  · refine call_effect h (.inl ?_) ⟨hu.ctrl, hu.sock, hu.mem⟩
    intro s' q a more rest hq
    rw [show (settle [.retCount (.select dst len ret) 0] s').running = none from hret s'] at hq
    cases hq
  · exact call_access_effect h rfl hu

theorem execEngMakeHeader_effect {P : Prop} {a : Nat} {r : Bool} {s t : State}
    (h : execEngMakeHeader a r s = .next t) : HostEffect P s t := by
  unfold execEngMakeHeader at h
  split at h
  · exact answer_effect h (untouched_giveValue _ s)
  · cases h

theorem execEngSetAddrSync_effect {P : Prop} {a : Nat} {r : Bool} {s t : State}
    (h : execEngSetAddrSync a r s = .next t) : HostEffect P s t := by
  unfold execEngSetAddrSync at h
  split at h
  · exact call_access_effect h rfl (.refl s)
  · cases h

theorem execSockConnect_effect {a : Nat} {s t : State} (h : execSockConnect a s = .next t) :
    HostEffect (BindsSocket (.sockConnect a)) s t := by
  unfold execSockConnect at h
  split at h
  · cases h
  · cases h
    exact ⟨.refl _, fun _ => .inl ⟨a, rfl⟩, id⟩

theorem execSockSend_effect {P : Prop} {d : Option Nat} {len : Nat} {s t : State}
    (h : execSockSend d len s = .next t) : HostEffect P s t := by
  unfold execSockSend at h
  split at h
  · exact answer_effect h ⟨rfl, rfl, id⟩
  · exact call_access_effect h rfl (.refl s)

theorem execSockRecv_effect {P : Prop} {d : Option Nat} {len : Nat} {s t : State}
    (h : execSockRecv d len s = .next t) : HostEffect P s t := by
  unfold execSockRecv at h
  split at h
  · cases h
  · exact call_access_effect h rfl (.refl s)

theorem execSockProbe_effect {cs : List Nat} {s t : State} (h : execSockProbe cs s = .next t) :
    HostEffect (BindsSocket (.sockProbe cs)) s t := by
  unfold execSockProbe at h
  split at h
  · exact answer_effect h (untouched_giveValue _ s)
  · exact call_effect h (.inr (.inr ⟨_, rfl⟩)) (.refl s)

theorem execRfaLayoutCheck_effect {P : Prop} {m : RMap} {s t : State} (h : execRfaLayoutCheck m s = .next t) :
    HostEffect P s t := by
  unfold execRfaLayoutCheck at h
  split at h
  · exact answer_effect h (untouched_giveValue _ s)
  · cases h

theorem execRfaOffset_effect {P : Prop} {r : FieldRef} {s t : State} (h : execRfaOffset r s = .next t) :
    HostEffect P s t := by
  unfold execRfaOffset at h
  split at h
  · exact answer_effect h (untouched_giveValue _ s)
  · cases h

theorem execRfaSize_effect {P : Prop} {r : FieldRef} {s t : State} (h : execRfaSize r s = .next t) :
    HostEffect P s t := by
  unfold execRfaSize at h
  split at h
  · exact answer_effect h (untouched_giveValue _ s)
  · cases h

theorem execRfaWrite_effect {P : Prop} {o : Nat} {d : Option Nat} {len : Nat} {s t : State}
    (h : execRfaWrite o d len s = .next t) : HostEffect P s t := by
  simp only [execRfaWrite] at h
  split at h
  · cases h
  split at h
  · cases h
  · exact writeRegs_effect h

theorem execRfaRead_effect {P : Prop} {o : Nat} {d : Option Nat} {len : Nat} {s t : State}
    (h : execRfaRead o d len s = .next t) : HostEffect P s t := by
  simp only [execRfaRead] at h
  split at h
  · cases h
  split at h
  · cases h
  · exact readRegs_effect h (fun _ => rfl) (.refl s)

theorem execRfaPack_effect {P : Prop} {f : Field} {vals : List (Option Int)} {s t : State}
    (h : execRfaPack f vals s = .next t) : HostEffect P s t := by
  unfold execRfaPack at h
  split at h
  · split at h
    · exact answer_effect h (untouched_giveValue _ s)
    · cases h
  · cases h

theorem execRfaReadField_effect {P : Prop} {r : FieldRef} {s t : State} (h : execRfaReadField r s = .next t) :
    HostEffect P s t := by
  simp only [execRfaReadField] at h
  split at h
  · cases h
  split at h
  · cases h
  · refine readRegs_effect h (fun s => ?_) ⟨rfl, rfl, id⟩
    simp only [returnTo]
    split <;> rfl

theorem execRfaWriteField_effect {P : Prop} {r : FieldRef} {vals : List (Option Int)} {s t : State}
    (h : execRfaWriteField r vals s = .next t) : HostEffect P s t := by
  simp only [execRfaWriteField] at h
  split at h
  · cases h
  split at h
  · split at h
    · cases h
    split at h
    · cases h
    · exact writeRegs_effect h
  · cases h

/-- The meaning of an instruction makes at most one register write, keeps memory in canonical form, and binds the socket
only as `sock.connect` or `sock.probe`. -/
theorem exec_effect : ∀ {i : Instr} {s t : State}, exec i s = .next t → HostEffect (BindsSocket i) s t
  | .rdCtrla, _, _, h | .rdCtrlb, _, _, h | .rdIntflag, _, _, h | .rdStatus, _, _, h | .rdSyncbusy, _, _, h
  | .rdAddr, _, _, h | .rdData, _, _, h => hostRead_effect h
  | .wrCtrlaSwrst v, _, _, h => execWrCtrlaSwrst_effect (v := v) h
  | .wrCtrlaConfig _, _, _, h => execWrCtrlaConfig_effect h
  | .wrCtrlbNoop _, _, _, h => execWrCtrlbNoop_effect h
  | .wrCtrlbRepeatStart _, _, _, h => execWrCtrlbRepeatStart_effect h
  | .wrCtrlbReadContinue _, _, _, h => execWrCtrlbReadContinue_effect h
  | .wrCtrlbStop _, _, _, h => execWrCtrlbStop_effect h
  | .wrIntflag _, _, _, h => execWrIntflag_effect h
  | .wrStatus _, _, _, h => execWrStatus_effect h
  | .wrSyncbusy _, _, _, h => by cases h
  | .wrAddr _, _, _, h => execWrAddr_effect h
  | .wrData _, _, _, h => execWrData_effect h
  | .bccReset, s, _, h | .bccEnable, s, _, h | .bccDisable, s, _, h | .bccWaitSync _, s, _, h
  | .bccSetMode _, s, _, h | .bccGetMode, s, _, h | .bccInit, s, _, h
  | .engWaitFlag _, s, _, h | .engSendDataSync _, s, _, h | .engRecvDataSync _, s, _, h
  | .engSendCmd _, s, _, h | .engSendAck, s, _, h | .engSendNack, s, _, h => by
    simp only [exec] at h
    exact call_access_effect h rfl (.refl s)
  | .extClockAttach, _, _, h | .extClockDetach, _, _, h | .extPinSetFunction .sda _, _, _, h
  | .extPinSetFunction .scl _, _, _, h | .extGetFrequency, _, _, h => answer_effect h ⟨rfl, rfl, id⟩
  | .engMakeHeader _ _, _, _, h => execEngMakeHeader_effect h
  | .engParseHeader _, s, _, h | .rfaTotalSize _, s, _, h | .rfaUnpack _ _, s, _, h =>
    answer_effect h (untouched_giveValue _ s)
  | .engSetAddrSync _ _, _, _, h => execEngSetAddrSync_effect h
  | .engRecvBurst buf len, s, _, h => call_effect h (.inl (unbinding_burst (.mem buf) len)) (.refl s)
  | .sockConnect _, _, _, h => execSockConnect_effect h
  | .sockSend _ _, _, _, h => execSockSend_effect h
  | .sockRecv _ _, _, _, h => execSockRecv_effect h
  | .sockProbe _, _, _, h => execSockProbe_effect h
  | .rfaLayoutCheck _, _, _, h => execRfaLayoutCheck_effect h
  | .rfaOffset _, _, _, h => execRfaOffset_effect h
  | .rfaSize _, _, _, h => execRfaSize_effect h
  | .rfaWrite _ _ _, _, _, h => execRfaWrite_effect h
  | .rfaRead _ _ _, _, _, h => execRfaRead_effect h
  | .rfaPack _ _, _, _, h => execRfaPack_effect h
  | .rfaReadField _, _, _, h => execRfaReadField_effect h
  | .rfaWriteField _ _, _, _, h => execRfaWriteField_effect h

-- the host's step

theorem hostAct_effect {P : Prop} {a : HostAct} {s t : State} (h : hostAct a s = .next t) : HostEffect P s t := by
  cases a with
  | memWrite addr bs => exact answer_effect h ⟨rfl, rfl, memPutBytes_wf bs s.mem addr⟩
  | memRead addr n =>
    simp only [hostAct] at h
    split at h
    · exact answer_effect h (untouched_giveValue _ s)
    · cases h
  | readStatus =>
    simp only [hostAct] at h
    split at h
    · exact answer_effect h (untouched_giveValue _ s)
    · cases h
  | mmio => exact answer_effect h (.refl s)
  | _ => exact call_access_effect h rfl (.refl s)

theorem not_bindsSocket_readInstr (r : Reg) : ¬BindsSocket (readInstr r) := by
  cases r <;> simp [BindsSocket, readInstr]

theorem not_bindsSocket_writeInstr (r : Reg) (v : Word) : ¬BindsSocket (writeInstr r v) := by
  cases r with
  | ctrla => simp only [writeInstr]; split <;> simp [BindsSocket]
  | ctrlb => simp only [writeInstr]; (repeat' split) <;> simp [BindsSocket]
  | _ => simp [BindsSocket, writeInstr]

/-- An access by address is a register access, which binds nothing (R70). -/
theorem not_bindsSocket_of_mmio {base addr width : Nat} {w : Bool} {v : Word} {i : Instr}
    (h : mmioInstr base w addr width v = some (.ok i)) : ¬BindsSocket i := by
  unfold mmioInstr at h
  split at h
  · cases h
  · cases h
  · split at h
    · split at h
      · cases h; exact not_bindsSocket_writeInstr _ v
      · cases h
    · cases h; exact not_bindsSocket_readInstr _

/-- A program entry that binds the socket: the word of a `sock.connect` or a `sock.probe`. -/
def BindsEntry (x : Item) : Prop := ∃ w i, x = .op w ∧ decode w = .ok i ∧ BindsSocket i

/-- The instruction a program entry is: its word's, or one that binds nothing. -/
theorem entryInstr_eq_some {base : Nat} {x : Item} {i : Instr} (h : entryInstr base x = .ok (some i)) :
    (∃ w, x = .op w ∧ decode w = .ok i) ∨ ¬BindsSocket i := by
  unfold entryInstr at h
  split at h
  · split at h
    · rename_i w _ j hw
      cases h
      exact .inl ⟨w, rfl, hw⟩
    · cases h
  · split at h
    · cases h
    · cases h
    · rename_i j hj
      cases h
      exact .inr (not_bindsSocket_of_mmio hj)
  · cases h

theorem runEntry_effect {x : Item} {s t : State} (h : runEntry x s = .next t) : HostEffect (BindsEntry x) s t := by
  unfold runEntry at h
  split at h
  · cases h
  · rename_i i hi
    refine (exec_effect h).imp fun hb => ?_
    obtain ⟨w, hx, hw⟩ := (entryInstr_eq_some hi).resolve_right (not_not_intro hb)
    exact ⟨w, i, hx, hw, hb⟩
  · split at h
    · exact hostAct_effect h
    · exact answer_effect h (.refl s)

/-- Where a host step may bind the socket: a probe goes on to its next candidate, or the program's next entry does it. -/
def MayBind (s : State) : Prop :=
  ProbesNext s ∨ (s.running = none ∧ ∃ x rest, s.prog = x :: rest ∧ BindsEntry x)

theorem hostMove_effect {s t : State} (h : hostMove s = .next t) : HostEffect (MayBind s) s t := by
  rcases hostMove_cases h with ⟨-, h⟩ | ⟨-, -, rfl⟩ | ⟨hr, x, rest, hp, h⟩
  · exact (resume_effect h).imp .inl
  · exact (Untouched.refl _).effect
  · have he := runEntry_effect h
    exact ⟨he.ctrl, fun hne => .inr ⟨hr, x, rest, hp, he.sock hne⟩, he.mem⟩

end Sys2Proof.Proofs
end

section
/-! The controller's invariant and the rest of the state (spec/10_state.md): what the controller's and the environment's
moves do to it, and the statements that every step keeps. -/

namespace Sys2Proof.Proofs

open Sys2Proof.Machine Sys2Proof.Safety

-- what the wire can do to the controller

/-- What a bus step leaves of the controller, whatever the environment answers: SYSOP can only be cleared. -/
structure WireFrame (c c' : Ctrl) : Prop where
  pend : c'.pend = c.pend
  en : c'.en = c.en
  enable : c'.enable = c.enable
  syncEnable : c'.syncEnable = c.syncEnable
  sysop : c.sysop = false → c'.sysop = false

/-- A byte waits for its acknowledge only on a bus owned in read direction, and BUSSTATE is not BUSY (R34, R41). -/
structure BusSound (c : Ctrl) : Prop where
  ack_owner : c.ackpend = true → c.busstate = .owner ∧ c.dir = true
  not_busy : c.busstate ≠ .busy

theorem byteIn_wire (s : State) : WireFrame s.ctrl (byteIn s).ctrl := by
  obtain ⟨a, e, hd⟩ := drawByte_frame s
  simp only [byteIn, hd]
  cases a with
  | byte d => exact ⟨rfl, rfl, rfl, rfl, id⟩
  | busErr => exact ⟨rfl, rfl, rfl, rfl, fun _ => rfl⟩

theorem busSound_busErrorCtrl (f : ReadyFlag) (c : Ctrl) : BusSound (busErrorCtrl f c) := ⟨nofun, nofun⟩

theorem byteIn_sound {s : State} (ho : s.ctrl.busstate = .owner) (hd : s.ctrl.dir = true) :
    BusSound (byteIn s).ctrl := by
  obtain ⟨a, e, h⟩ := drawByte_frame s
  simp only [byteIn, h]
  cases a with
  | byte d => exact ⟨fun _ => ⟨ho, hd⟩, by rw [ho]; nofun⟩
  | busErr => exact busSound_busErrorCtrl _ _

theorem headerOut_wire (h : Byte) (s : State) : WireFrame s.ctrl (headerOut h s).ctrl := by
  obtain ⟨a, e, hd⟩ := drawHeader_frame h s
  simp only [headerOut, hd]
  cases a with
  | busErr => exact ⟨rfl, rfl, rfl, rfl, fun _ => rfl⟩
  | nack =>
    simp only
    split <;> exact ⟨rfl, rfl, rfl, rfl, id⟩
  | ack =>
    simp only
    split
    · have w := byteIn_wire { s with
        env := e, trace := s.trace ++ [.hdr h .ack]
        ctrl := { s.ctrl with rxnack := false, busstate := .owner, dir := h.getLsbD 0 } }
      exact ⟨w.pend, w.en, w.enable, w.syncEnable, w.sysop⟩
    · exact ⟨rfl, rfl, rfl, rfl, id⟩

theorem headerOut_sound {h : Byte} {s : State} (hk : s.ctrl.ackpend = false) : BusSound (headerOut h s).ctrl := by
  obtain ⟨a, e, hd⟩ := drawHeader_frame h s
  have quiet : ∀ c : Ctrl, c.ackpend = false → c.busstate = .owner → BusSound c :=
    fun c hk ho => ⟨fun ht => absurd ht (by simp [hk]), by rw [ho]; nofun⟩
  simp only [headerOut, hd]
  cases a with
  | busErr => exact busSound_busErrorCtrl _ _
  | nack =>
    simp only
    split <;> exact quiet _ hk rfl
  | ack =>
    simp only
    split
    · rename_i hr
      exact byteIn_sound rfl hr
    · exact quiet _ hk rfl

/-- A byte's transmission, up to the end of the operation. -/
theorem fireTx_wire (b : Byte) (s : State) : ∃ u, fireTx b s = endOp u ∧ WireFrame s.ctrl u.ctrl ∧
    (s.ctrl.ackpend = false → s.ctrl.busstate = .owner → BusSound u.ctrl) := by
  obtain ⟨a, e, hd⟩ := drawData_frame b s
  have kept : ∀ k, WireFrame s.ctrl { setReady .mb s.ctrl with rxnack := k } ∧
      (s.ctrl.ackpend = false → s.ctrl.busstate = .owner → BusSound { setReady .mb s.ctrl with rxnack := k }) :=
    fun k => ⟨⟨rfl, rfl, rfl, rfl, id⟩, fun hk ho => ⟨fun ht => absurd ht (by simp [hk]), by simp [ho]⟩⟩
  simp only [fireTx, hd]
  cases a with
  | ack => exact ⟨_, rfl, kept false⟩
  | nack => exact ⟨_, rfl, kept true⟩
  | busErr =>
    refine ⟨_, rfl, ?_, fun _ _ => ?_⟩
    · exact ⟨rfl, rfl, rfl, rfl, fun _ => rfl⟩
    · exact ⟨nofun, nofun⟩

theorem WireFrame.refl (c : Ctrl) : WireFrame c c := ⟨rfl, rfl, rfl, rfl, id⟩

/-- The end of an operation changes no more. -/
theorem WireFrame.endOp {c : Ctrl} {u : State} (w : WireFrame c u.ctrl) : WireFrame c (Machine.endOp u).ctrl :=
  ⟨w.pend, w.en, w.enable, w.syncEnable, w.sysop⟩

theorem WireFrame.endCmd {c : Ctrl} {u : State} (w : WireFrame c u.ctrl) : WireFrame c (Machine.endCmd u).ctrl :=
  ⟨w.pend, w.en, w.enable, w.syncEnable, fun _ => rfl⟩

theorem WireFrame.trans {c d e : Ctrl} (w : WireFrame c d) (x : WireFrame d e) : WireFrame c e :=
  ⟨x.pend.trans w.pend, x.en.trans w.en, x.enable.trans w.enable, x.syncEnable.trans w.syncEnable,
    x.sysop ∘ w.sysop⟩

/-- A state whose pending acknowledge has been driven (R171), with the trace that has come of it. -/
def driven (tr : List BusEvent) (s : State) : State := { s with ctrl := { s.ctrl with ackpend := false }, trace := tr }

theorem driven_wire (tr : List BusEvent) (s : State) : WireFrame s.ctrl (driven tr s).ctrl :=
  ⟨rfl, rfl, rfl, rfl, id⟩

theorem fireAddr_driven (h : Byte) (s : State) : ∃ tr, fireAddr h s = endOp (headerOut h (driven tr s)) :=
  ⟨_, fireAddr_eq h s⟩

theorem fireReadContinue_driven (s : State) : ∃ tr, fireReadContinue s = endCmd (byteIn (driven tr s)) :=
  ⟨_, fireReadContinue_eq s⟩

theorem fireRepeatStart_driven (s : State) :
    ∃ tr, fireRepeatStart s = endCmd (headerOut s.ctrl.hdr (driven tr s)) :=
  ⟨_, fireRepeatStart_eq s⟩

theorem fireBus_wire (s : State) : WireFrame s.ctrl (fireBus s).ctrl := by
  unfold fireBus
  split
  next => exact .refl _
  next h _ =>
    obtain ⟨tr, e⟩ := fireAddr_driven h s
    exact e ▸ ((driven_wire tr s).trans (headerOut_wire h _)).endOp
  next b _ =>
    obtain ⟨u, e, w, -⟩ := fireTx_wire b s
    exact e ▸ w.endOp
  next =>
    obtain ⟨tr, e⟩ := fireReadContinue_driven s
    exact e ▸ ((driven_wire tr s).trans (byteIn_wire _)).endCmd
  next =>
    obtain ⟨tr, e⟩ := fireRepeatStart_driven s
    exact e ▸ ((driven_wire tr s).trans (headerOut_wire _ _)).endCmd
  next =>
    rw [fireStop_eq]
    exact ⟨rfl, rfl, rfl, rfl, fun _ => rfl⟩

/-- The bus step of the operation in progress ends it, and SYSOP with it. -/
theorem fireBus_ends {s : State} {op : BusOp} (h : CtrlInv s.ctrl) (hop : s.ctrl.busop = some op) :
    (fireBus s).ctrl.busop = none ∧ (fireBus s).ctrl.sysop = false := by
  have w := fireBus_wire s
  unfold fireBus at w ⊢
  rw [hop] at w ⊢
  cases op with
  | addr a => exact ⟨rfl, w.sysop (h.addr_sysop a hop)⟩
  | tx b =>
    obtain ⟨u, e, -, -⟩ := fireTx_wire b s
    exact ⟨by simp only [e, endOp], w.sysop (h.tx_sysop b hop)⟩
  | cmd k => cases k <;> exact ⟨rfl, rfl⟩

theorem BusSound.endOp {u : State} (h : BusSound u.ctrl) : BusSound (Machine.endOp u).ctrl := ⟨h.ack_owner, h.not_busy⟩

theorem BusSound.endCmd {u : State} (h : BusSound u.ctrl) : BusSound (Machine.endCmd u).ctrl := ⟨h.ack_owner, h.not_busy⟩

theorem fireBus_sound {s : State} {op : BusOp} (h : CtrlInv s.ctrl) (hop : s.ctrl.busop = some op) :
    BusSound (fireBus s).ctrl := by
  unfold fireBus
  rw [hop]
  cases op with
  | addr a =>
    obtain ⟨tr, e⟩ := fireAddr_driven a s
    simp only [e]
    exact (headerOut_sound (s := driven tr s) rfl).endOp
  | tx b =>
    obtain ⟨ho, -, hk⟩ := h.tx_owner (.inr ⟨b, hop⟩)
    obtain ⟨u, e, -, hs⟩ := fireTx_wire b s
    simp only [e]
    exact (hs hk ho).endOp
  | cmd k =>
    cases k with
    | readContinue =>
      obtain ⟨ho, hd⟩ := h.ack_owner (h.continue_ack (.inr hop))
      obtain ⟨tr, e⟩ := fireReadContinue_driven s
      simp only [e]
      exact (byteIn_sound (s := driven tr s) ho hd).endCmd
    | repeatStart =>
      obtain ⟨tr, e⟩ := fireRepeatStart_driven s
      simp only [e]
      exact (headerOut_sound (s := driven tr s) rfl).endCmd
    | stop =>
      simp only [fireStop_eq]
      refine ⟨nofun, ?_⟩
      simp only
      split
      · nofun
      · exact h.not_busy

-- the invariant of the controller

theorem ctrlInv_sync_iff {c : Ctrl} (h : CtrlInv c) : c.syncEnable = true ↔ c.en ≠ c.enable :=
  ⟨h.en_pending, fun hne => by
    cases hs : c.syncEnable with
    | true => rfl
    | false => exact absurd (h.en_synced hs) hne⟩

/-- With nothing pending and nothing in progress, little is left of the invariant. -/
theorem ctrlInv_of_quiet {c : Ctrl} (hp : c.pend = none) (hb : c.busop = none) (hs : c.sysop = false)
    (hd : c.en = false → c.ackpend = false) (hy : c.syncEnable = true ↔ c.en ≠ c.enable) (sound : BusSound c) :
    CtrlInv c where
  pend_iff := by simp [hp, hs]
  addr_sysop _ _ := hs
  tx_sysop _ _ := hs
  cmd_sysop k h := by simp [hb] at h
  disabled he := ⟨hp, hb, hd he⟩
  en_synced h := Decidable.byContradiction fun hne => Bool.false_ne_true (h.symm.trans (hy.2 hne))
  en_pending := hy.1
  ack_owner := sound.ack_owner
  tx_owner h := by simp [IsTx, hp, hb] at h
  repeat_owner h := by simp [IsCmd, hp, hb] at h
  continue_ack h := by simp [IsCmd, hp, hb] at h
  not_busy := sound.not_busy

theorem ctrlInv_reset : CtrlInv Ctrl.reset :=
  ctrlInv_of_quiet rfl rfl rfl (fun _ => rfl) (by decide) ⟨nofun, nofun⟩

/-- The ENABLE step where it disables nothing (R161). -/
theorem fireEnable_of_keeps {s : State} (h : ¬(s.ctrl.en = true ∧ s.ctrl.enable = false)) :
    fireEnable s =
      { s with ctrl := { s.ctrl with en := s.ctrl.enable, syncEnable := false, busstate := .unknown } } := by
  have hc : (s.ctrl.en && !s.ctrl.enable) = false := by
    cases he : s.ctrl.en <;> cases hn : s.ctrl.enable <;> simp_all
  simp only [fireEnable, hc, Bool.false_eq_true, if_false]

/-- The ENABLE step where it disables: whatever was pending, in progress or owned is abandoned (R161). -/
theorem fireEnable_of_disables {s : State} (he : s.ctrl.en = true) (hn : s.ctrl.enable = false) :
    fireEnable s = { s with
      ctrl :=
        { s.ctrl with
          en := false, syncEnable := false, busstate := .unknown
          pend := none, busop := none, ackpend := false, sysop := false }
      trace := s.trace ++
        (if s.ctrl.busop ≠ none ∨ s.ctrl.pend ≠ none ∨ s.ctrl.ackpend = true ∨ s.ctrl.busstate = .owner
         then [.abort] else []) } := by
  have ha : (s.ctrl.busop.isSome || s.ctrl.pend.isSome || s.ctrl.ackpend || s.ctrl.busstate == .owner) =
      decide (s.ctrl.busop ≠ none ∨ s.ctrl.pend ≠ none ∨ s.ctrl.ackpend = true ∨ s.ctrl.busstate = .owner) := by
    rw [Bool.eq_iff_iff]
    simp [Option.isSome_iff_ne_none, or_assoc]
  simp only [fireEnable, he, hn, ha, decide_eq_true_eq, Bool.not_false, Bool.and_true, if_true]
  split <;> simp [emit]

/-- The ENABLE step leaves nothing under way: where it disables it abandons it, where it enables there was none (R30). -/
theorem fireEnable_inv {s : State} (h : CtrlInv s.ctrl) (hs : s.ctrl.syncEnable = true) :
    CtrlInv (fireEnable s).ctrl := by
  by_cases hc : s.ctrl.en = true ∧ s.ctrl.enable = false
  · rw [fireEnable_of_disables hc.1 hc.2]
    exact ctrlInv_of_quiet rfl rfl rfl (fun _ => rfl) (by simp [hc.2]) ⟨nofun, nofun⟩
  · have he : s.ctrl.en = false := by
      have hne := h.en_pending hs
      cases hn : s.ctrl.enable <;> simp_all
    obtain ⟨hp, hb, hk⟩ := h.disabled he
    have hq : s.ctrl.sysop = false := by
      cases ht : s.ctrl.sysop with
      | false => rfl
      | true => exact absurd hp (h.pend_iff.2 ⟨ht, hb⟩)
    rw [fireEnable_of_keeps hc]
    exact ctrlInv_of_quiet hp hb hq (fun _ => hk) (by simp) ⟨fun ht => absurd ht (by simp [hk]), nofun⟩

/-- An operation on its way to the wire has what it needs; a command keeps SYSOP, nothing else does (R33). -/
theorem ctrlInv_of_started {c : Ctrl} {op : BusOp} {b : Bool} (h : CtrlInv c) (he : c.en = true)
    (hb : b = true ↔ ∃ k, op = .cmd k)
    (htx : ∀ x, op = .tx x → c.busstate = .owner ∧ c.dir = false ∧ c.ackpend = false)
    (hrs : op = .cmd .repeatStart → c.busstate = .owner) (hrc : op = .cmd .readContinue → c.ackpend = true) :
    CtrlInv { c with busop := some op, sysop := b, pend := none } where
  pend_iff := by simp
  addr_sysop a ha := by cases ha; simpa using hb
  tx_sysop x hx := by cases hx; simpa using hb
  cmd_sysop k hk := by cases hk; simpa using hb
  disabled hf := by simp [he] at hf
  en_synced := h.en_synced
  en_pending := h.en_pending
  ack_owner := h.ack_owner
  tx_owner := by
    rintro (⟨x, hx⟩ | ⟨x, hx⟩) <;> cases hx
    exact htx x rfl
  repeat_owner := by
    rintro (hx | hx) <;> cases hx
    exact hrs rfl
  continue_ack := by
    rintro (hx | hx) <;> cases hx
    exact hrc rfl
  not_busy := h.not_busy

theorem fireSysop_inv {s : State} (h : CtrlInv s.ctrl) (he : s.ctrl.en = true) : CtrlInv (fireSysop s).ctrl := by
  cases hp : s.ctrl.pend with
  | none =>
    simp only [fireSysop, hp]
    exact h
  | some p =>
    obtain ⟨hs, hb⟩ := h.pend_iff.1 (by simp [hp])
    cases p with
    | addr a =>
      simp only [fireSysop, hp]
      exact ctrlInv_of_started h he (by simp) nofun nofun nofun
    | tx x =>
      simp only [fireSysop, hp]
      exact ctrlInv_of_started h he (by simp) (fun _ _ => h.tx_owner (.inl ⟨x, hp⟩)) nofun nofun
    | cmd k =>
      simp only [fireSysop, hp]
      refine ctrlInv_of_started h he (by simp [hs]) nofun (fun hk => ?_) (fun hk => ?_)
      · cases hk
        exact h.repeat_owner (.inl hp)
      · cases hk
        exact h.continue_ack (.inl hp)
    | forceIdle =>
      simp only [fireSysop, hp]
      exact ctrlInv_of_quiet rfl hb rfl (fun _ => rfl) (ctrlInv_sync_iff (c := s.ctrl) h) ⟨nofun, nofun⟩

theorem fireBusIdle_inv {s : State} (h : CtrlInv s.ctrl) (hu : s.ctrl.busstate = .unknown) :
    CtrlInv (fireBusIdle s).ctrl :=
  { h with
    ack_owner := fun hk => absurd (h.ack_owner hk).1 (by simp [hu])
    tx_owner := fun ht => absurd (h.tx_owner ht).1 (by simp [hu])
    repeat_owner := fun hr => absurd (h.repeat_owner hr) (by simp [hu])
    not_busy := nofun }

theorem fireBus_inv {s : State} {op : BusOp} (h : CtrlInv s.ctrl) (hop : s.ctrl.busop = some op)
    (he : s.ctrl.en = true) : CtrlInv (fireBus s).ctrl := by
  have w := fireBus_wire s
  obtain ⟨hb, hs⟩ := fireBus_ends h hop
  have hp : s.ctrl.pend = none := Decidable.byContradiction fun hn => by
    obtain ⟨-, hb⟩ := h.pend_iff.1 hn
    cases hb.symm.trans hop
  refine ctrlInv_of_quiet (w.pend.trans hp) hb hs (fun hf => ?_) ?_ (fireBus_sound h hop)
  · simp [w.en, he] at hf
  · rw [w.syncEnable, w.en, w.enable]
    exact ctrlInv_sync_iff h

/-- A register write keeps the invariant: an operation starts only where the controller admits it. -/
theorem Written.ctrlInv {c c' : Ctrl} (h : CtrlInv c) (w : Written c c') : CtrlInv c' := by
  cases w with
  | swrst => exact { h with }
  | plain smen ackact mb sb buserr => exact { h with }
  | config v sync =>
    have hy : (configCtrla v c).syncEnable = (v.getLsbD 1 != c.en) := by
      simp [configCtrla, sync.enable, h.en_synced sync.enable]
    exact
      { h with
        en_synced := fun hf => (bne_eq_false_iff_eq.1 (hy ▸ hf)).symm
        en_pending := fun ht => (bne_iff_ne.1 (hy ▸ ht)).symm }
  | start p smen ackact mb sb buserr hdr data free en admits =>
    obtain ⟨-, hb⟩ := free
    exact
      { pend_iff := by simp [hb]
        addr_sysop := by simp [hb]
        tx_sysop := by simp [hb]
        cmd_sysop := by simp
        disabled := by simp [en]
        en_synced := h.en_synced
        en_pending := h.en_pending
        ack_owner := h.ack_owner
        tx_owner := by
          rintro (⟨b, hp⟩ | ⟨b, ho⟩)
          · cases hp; exact admits
          · simp [hb] at ho
        repeat_owner := by
          rintro (hp | ho)
          · cases hp; exact admits
          · simp [hb] at ho
        continue_ack := by
          rintro (hp | ho)
          · cases hp; exact admits
          · simp [hb] at ho
        not_busy := h.not_busy }

theorem fire_inv {m : Move} {s : State} (h : CtrlInv s.ctrl) (he : enabled m s = true) : CtrlInv (fire m s).ctrl := by
  cases m with
  | host => exact h
  | swrstSync => exact ctrlInv_reset
  | enableSync =>
    simp only [enabled, Bool.and_eq_true] at he
    obtain ⟨⟨hs, -⟩, -⟩ := he
    exact fireEnable_inv h hs
  | sysopSync =>
    simp only [enabled, Bool.and_eq_true] at he
    obtain ⟨⟨⟨-, hen⟩, -⟩, -⟩ := he
    exact fireSysop_inv h hen
  | bus =>
    obtain ⟨⟨hb, hen, -, -⟩, -⟩ := (enabled_bus_iff s).1 he
    cases hop : s.ctrl.busop with
    | none => simp [busReady, hop] at hb
    | some op => exact fireBus_inv h hop hen
  | busIdle =>
    simp only [enabled, Bool.and_eq_true, beq_iff_eq] at he
    obtain ⟨⟨⟨⟨-, hu⟩, -⟩, -⟩, -⟩ := he
    exact fireBusIdle_inv h hu

theorem agentMove_inv {m : Move} {s : State} (h : CtrlInv s.ctrl) : CtrlInv (agentMove m s).ctrl := by
  unfold agentMove
  split
  · rename_i he
    exact fire_inv h he
  · exact h

-- the effective enable (R30)

/-- A move of the controller or the environment changes the effective enable at the two synchronisations alone. -/
theorem fire_en (m : Move) (s : State) :
    (fire m s).ctrl.en = s.ctrl.en ∨ (m = .enableSync ∧ (fire m s).ctrl.en = s.ctrl.enable) ∨
      (m = .swrstSync ∧ (fire m s).ctrl.en = false) := by
  cases m with
  | host => exact .inl rfl
  | swrstSync => exact .inr (.inr ⟨rfl, rfl⟩)
  | enableSync =>
    refine .inr (.inl ⟨rfl, ?_⟩)
    simp only [fire, fireEnable]
    split <;> rfl
  | sysopSync =>
    refine .inl ?_
    simp only [fire, fireSysop]
    split <;> rfl
  | bus => exact .inl (fireBus_wire s).en
  | busIdle => exact .inl rfl

-- the obligations

/-- Settles O11: a host step makes at most one register write (`hostMove_effect`), and each write and each move of the
controller keeps the invariant (`Written.ctrlInv`, `fire_inv`). -/
theorem invariantKeptByEveryStep : Obligations.InvariantKeptByEveryStep := by
  intro s t h hst
  rcases step_cases hst with ⟨-, u, hu, rfl⟩ | ⟨-, rfl⟩
  · have he := hostMove_effect hu
    exact ⟨he.ctrl.ctrlInv h.ctrl, he.mem h.mem⟩
  · refine ⟨agentMove_inv h.ctrl, ?_⟩
    obtain ⟨c, e, es, ha⟩ := agentMove_frame s.turn s
    rw [advance_mem, ha]
    exact h.mem

/-- Settles O12: neither a host step nor a move of the controller or the environment writes the parameters. -/
theorem parametersNeverChange : Obligations.ParametersNeverChange := by
  intro s t hst
  rcases step_cases hst with ⟨-, u, hu, rfl⟩ | ⟨-, rfl⟩
  · rw [advance_cfg, hostMove_frame hu]
  · obtain ⟨c, e, es, ha⟩ := agentMove_frame s.turn s
    rw [advance_cfg, ha]

/-- Settles O13: the moves of the controller and the environment add to the trace, a host step does not. -/
theorem traceOnlyGrows : Obligations.TraceOnlyGrows := by
  intro s t hst
  rcases step_cases hst with ⟨-, u, hu, rfl⟩ | ⟨hne, rfl⟩
  · have ht : u.trace = s.trace := by rw [hostMove_frame hu]
    exact ⟨⟨[], by simp [ht]⟩, fun _ => ht⟩
  · obtain ⟨c, e, es, ha⟩ := agentMove_frame s.turn s
    exact ⟨⟨es, by rw [advance_trace, ha]⟩, fun hh => absurd hh hne⟩

/-- Settles O16: the host's writes leave the effective enable alone, and of the other moves two change it. -/
theorem enableTakesEffectOnlyAtItsSynchronisation : Obligations.EnableTakesEffectOnlyAtItsSynchronisation := by
  intro s t hst hne
  rcases step_cases hst with ⟨-, u, hu, rfl⟩ | ⟨-, rfl⟩
  · exact absurd (hostMove_effect hu).ctrl.en_eq hne
  · rw [advance_ctrl, agentMove] at hne ⊢
    by_cases hen : enabled s.turn s = true
    · rw [if_pos hen] at hne ⊢
      exact (fire_en s.turn s).resolve_left hne
    · rw [if_neg hen] at hne
      exact absurd rfl hne

/-- Settles O17: the effect of a host step on the bound address (`hostMove_effect`), and no other move has one. -/
theorem onlyConnectBindsTheSocket : Obligations.OnlyConnectBindsTheSocket := by
  refine ⟨rfl, fun s a ha => if_neg (Nat.not_lt.2 ha), fun s a ha => if_pos ha, fun s t hst hne => ?_⟩
  rcases step_cases hst with ⟨hh, u, hu, rfl⟩ | ⟨-, rfl⟩
  · refine ⟨hh, ?_⟩
    rcases (hostMove_effect hu).sock hne with hp | ⟨hr, x, rest, hx, w, i, rfl, hw, hb⟩
    · exact .inl hp
    · exact .inr ⟨hr, w, rest, i, hx, hw, hb⟩
  · obtain ⟨c, e, es, ha⟩ := agentMove_frame s.turn s
    rw [advance_sockAddr, ha] at hne
    exact absurd rfl hne

/-- Settles O28: the two cases of the ENABLE step, where its rule enables it. -/
theorem enableStep : Obligations.EnableStep := by
  intro s ht hs hr hc
  have hm : agentMove s.turn s = fireEnable s := by
    rw [ht, agentMove, if_pos (by simp [enabled, hs, hr, hc])]
    rfl
  have e : step s = .next (ticked 1 (fireEnable s)) := by
    rw [step_agent (by rw [ht]; nofun), hm, advance_eq]
  rw [e]
  exact ⟨fun h => by rw [fireEnable_of_keeps h], fun he hn => by rw [fireEnable_of_disables he hn]⟩

/-- Settles O10: at power-on nothing is under way, and the host has written no byte. -/
theorem invariantHoldsAtReset : Obligations.InvariantHoldsAtReset := ⟨ctrlInv_reset, rfl⟩

/-- Settles O40: each service is the update of its own input. -/
theorem externalServices : Obligations.ExternalServices := by
  intro s
  exact ⟨rfl, rfl, fun _ => rfl, fun _ => rfl, pins_eq_true, Config.frequency s.draws, rfl⟩

end Sys2Proof.Proofs
end

section
/-! The register fields the host writes (spec/40_register_interface.md R29) and the mode procedures (spec/42_controller_common.md
R204, R205). -/

namespace Sys2Proof.Proofs

open Sys2Proof.Machine Sys2Proof.Safety

-- values that agree on a mask

theorem getLsbD_eq_of_agree {n i : Nat} {v w m : BitVec n} (h : v &&& m = w &&& m) (hm : m.getLsbD i = true) :
    v.getLsbD i = w.getLsbD i := by
  have hi := congrArg (·.getLsbD i) h
  simpa [hm] using hi

theorem extractLsb'_eq_of_agree {n start len : Nat} {v w m : BitVec n} (h : v &&& m = w &&& m)
    (hm : ∀ i, i < len → m.getLsbD (start + i) = true) : v.extractLsb' start len = w.extractLsb' start len := by
  ext i hi
  simpa [hi] using getLsbD_eq_of_agree h (hm i hi)

-- a write looks at its register's fields alone (R29)

theorem configCtrla_congr {v w : Word} (h : v &&& 0x1F#32 = w &&& 0x1F#32) (c : Ctrl) :
    configCtrla v c = configCtrla w c := by
  have hmode : v.extractLsb' 2 3 = w.extractLsb' 2 3 := extractLsb'_eq_of_agree h (by decide)
  have henable : v.getLsbD 1 = w.getLsbD 1 := getLsbD_eq_of_agree h rfl
  simp only [configCtrla, hmode, henable]

theorem wrReg_ctrla_congr {v w : Word} (h : v &&& 0x1F#32 = w &&& 0x1F#32) (s t : State) :
    wrReg .ctrla v s = .next t ↔ wrReg .ctrla w s = .next t := by
  have hswrst : v.getLsbD 0 = w.getLsbD 0 := getLsbD_eq_of_agree h rfl
  simp only [wrReg, hswrst]
  split
  · exact Iff.rfl
  · rw [execWrCtrlaConfig_eq_next, execWrCtrlaConfig_eq_next, configCtrla_congr h]

theorem wrReg_ctrlb_congr {v w : Word} (h : v &&& 0x70100#32 = w &&& 0x70100#32) (s t : State) :
    wrReg .ctrlb v s = .next t ↔ wrReg .ctrlb w s = .next t := by
  have hcmd : ctrlbCmdBits v = ctrlbCmdBits w := extractLsb'_eq_of_agree h (by decide)
  have hack : v.getLsbD 18 = w.getLsbD 18 := getLsbD_eq_of_agree h rfl
  have hpolicy : writeAckPolicy v s.ctrl = writeAckPolicy w s.ctrl := by
    have hsmen : v.getLsbD 8 = w.getLsbD 8 := getLsbD_eq_of_agree h rfl
    simp only [writeAckPolicy, hsmen, hack]
  simp only [wrReg, hcmd]
  split
  · rw [execWrCtrlbNoop_eq_next, execWrCtrlbNoop_eq_next, hpolicy]
  split
  · rw [execWrCtrlbRepeatStart_eq_next, execWrCtrlbRepeatStart_eq_next, hpolicy]
  split
  · rw [execWrCtrlbReadContinue_eq_next, execWrCtrlbReadContinue_eq_next, hack]
  · rw [execWrCtrlbStop_eq_next, execWrCtrlbStop_eq_next, hack]

theorem execWrIntflag_congr {v w : Byte} (h : v &&& 0x3#8 = w &&& 0x3#8) (s t : State) :
    execWrIntflag v s = .next t ↔ execWrIntflag w s = .next t := by
  have hmb : v.getLsbD 0 = w.getLsbD 0 := getLsbD_eq_of_agree h rfl
  have hsb : v.getLsbD 1 = w.getLsbD 1 := getLsbD_eq_of_agree h rfl
  rw [execWrIntflag_eq_next, execWrIntflag_eq_next, hmb, hsb]

theorem execWrStatus_congr {v w : BitVec 16} (h : v &&& 0x35#16 = w &&& 0x35#16) (s t : State) :
    execWrStatus v s = .next t ↔ execWrStatus w s = .next t := by
  have hbuserr : v.getLsbD 0 = w.getLsbD 0 := getLsbD_eq_of_agree h rfl
  have hidle : forcesIdle v = forcesIdle w := by
    rw [forcesIdle, forcesIdle, extractLsb'_eq_of_agree h (by decide)]
  rw [execWrStatus_eq_next, execWrStatus_eq_next, statusWritten, statusWritten, hbuserr, hidle]

theorem execWrAddr_congr {v w : Word} (h : v &&& 0xFF#32 = w &&& 0xFF#32) (s t : State) :
    execWrAddr v s = .next t ↔ execWrAddr w s = .next t := by
  have hhdr : v.extractLsb' 0 8 = w.extractLsb' 0 8 := extractLsb'_eq_of_agree h (by decide)
  rw [execWrAddr_eq_next, execWrAddr_eq_next, hhdr]

-- reserved bits read 0 (R29)

theorem reserved_ctrla (c : Ctrl) : rdReg .ctrla c &&& ~~~0x1F#32 = 0#32 := by
  have key : ∀ (m : BitVec 3) (a b : Bool),
      (0#27 ++ m ++ BitVec.ofBool a ++ BitVec.ofBool b) &&& ~~~0x1F#32 = 0#32 := by decide
  exact key c.mode c.enable c.syncSwrst

theorem reserved_ctrlb (c : Ctrl) : rdReg .ctrlb c &&& ~~~0x70100#32 = 0#32 := by
  have key : ∀ a b : Bool,
      (0#13 ++ BitVec.ofBool a ++ 0#9 ++ BitVec.ofBool b ++ 0#8) &&& ~~~0x70100#32 = 0#32 := by decide
  exact key (ackBit c.ackact) c.smen

theorem reserved_intflag (c : Ctrl) : rdReg .intflag c &&& ~~~0x3#32 = 0#32 := by
  have key : ∀ a b : Bool, (0#30 ++ BitVec.ofBool a ++ BitVec.ofBool b) &&& ~~~0x3#32 = 0#32 := by decide
  exact key c.sb c.mb

theorem reserved_status (c : Ctrl) : rdReg .status c &&& ~~~0x35#32 = 0#32 := by
  have key : ∀ (k : BitVec 2) (a b : Bool),
      (0#26 ++ k ++ 0#1 ++ BitVec.ofBool a ++ 0#1 ++ BitVec.ofBool b) &&& ~~~0x35#32 = 0#32 := by decide
  exact key (busStateCode c.busstate) c.rxnack c.buserr

theorem reserved_syncbusy (c : Ctrl) : rdReg .syncbusy c &&& ~~~0x7#32 = 0#32 := by
  have key : ∀ a b d : Bool,
      (0#29 ++ BitVec.ofBool a ++ BitVec.ofBool b ++ BitVec.ofBool d) &&& ~~~0x7#32 = 0#32 := by decide
  exact key c.sysop c.syncEnable c.syncSwrst

theorem reserved_addr (c : Ctrl) : rdReg .addr c &&& ~~~0xFF#32 = 0#32 := by
  have mask : ∀ i, i < 32 → (~~~0xFF#32).getLsbD i = decide (8 ≤ i) := by decide
  refine BitVec.eq_of_getLsbD_eq fun i hi => ?_
  rw [rdReg, BitVec.getLsbD_and, mask i hi, BitVec.getLsbD_setWidth, BitVec.getLsbD_zero]
  by_cases h : 8 ≤ i
  · simp [BitVec.getLsbD_of_ge _ _ h]
  · simp [h]

-- the enable-protected fields (R29, R131, R132)

theorem wrReg_ctrla_mode {v : Word} {s t : State} (he : s.ctrl.en = true) (h : wrReg .ctrla v s = .next t) :
    t.ctrl.mode = s.ctrl.mode := by
  simp only [wrReg] at h
  split at h
  · cases h
    rfl
  · obtain ⟨-, rfl⟩ := execWrCtrlaConfig_eq_next.1 h
    simp only [configCtrla, he, if_true]

theorem wrReg_ctrlb_smen {v : Word} {s t : State} (he : s.ctrl.en = true) (h : wrReg .ctrlb v s = .next t) :
    t.ctrl.smen = s.ctrl.smen := by
  have policy : (writeAckPolicy v s.ctrl).smen = s.ctrl.smen := by simp only [writeAckPolicy, he, if_true]
  simp only [wrReg] at h
  split at h
  · obtain ⟨-, rfl⟩ := execWrCtrlbNoop_eq_next.1 h
    exact policy
  split at h
  · obtain ⟨-, rfl⟩ := execWrCtrlbRepeatStart_eq_next.1 h
    exact policy
  split at h
  · obtain ⟨-, rfl⟩ := execWrCtrlbReadContinue_eq_next.1 h
    rfl
  · obtain ⟨-, rfl⟩ := execWrCtrlbStop_eq_next.1 h
    rfl

-- the first host step of a procedure that begins with an access (R8)

theorem call_access {st : Stmt} (hp : isPure st = false) (o : Origin) (rest : List Stmt) (s : State) :
    call o (st :: rest) s =
      andThen (access o st { s with running := some { origin := o, todo := st :: rest } })
        (fun p => .next (leave (p.2 ++ rest) p.1)) := by
  simp only [call, resume, settle_access hp]
  rfl

/-- A read-modify-write's first host step reads and keeps the write for the next one (R93). -/
theorem call_rmw (o : Origin) (r : Reg) (clr set : Word) (rest : List Stmt) (s : State) :
    call o (.rmw r clr set :: rest) s =
      .next { s with running := some { origin := o, todo := .wr r (rmwValue (rdReg r s.ctrl) clr set) :: rest } } := by
  rw [call_access rfl]
  simp only [access, andThen_next_left, List.singleton_append, leave_access (st := .wr _ _) rfl]
  rfl

/-- A host step that makes a procedure's last write ends the procedure. -/
theorem step_last_write {s u : State} {o : Origin} {r : Reg} {v : Word} (ht : s.turn = .host)
    (hr : s.running = some { origin := o, todo := [.wr r v] }) (hw : wrReg r v s = .next u) :
    step s = .next (advance (finish none u)) := by
  rw [step_running ht hr rfl]
  simp only [access, accessWrite, hw, andThen_next_left]
  rfl

/-- The write that `bcc.set_mode` makes (R204). -/
theorem wrReg_setMode {s : State} (m : Role) (hs : NoSync s.ctrl) :
    wrReg .ctrla (rmwValue (rdReg .ctrla s.ctrl) 0x1D#32 ((roleCode m).setWidth 32 <<< 2)) s =
      .next { s with ctrl := { s.ctrl with mode := if s.ctrl.en then s.ctrl.mode else roleCode m } } := by
  have hswrst := rmw_ctrla_swrst s.ctrl 0x1D#32 ((roleCode m).setWidth 32 <<< 2) rfl (by cases m <;> rfl)
  rw [rdReg, wrReg_config _ s hswrst, execWrCtrlaConfig_eq_next, configCtrla_setMode]
  exact ⟨hs, rfl⟩

theorem exec_bccGetMode (s : State) :
    exec .bccGetMode s = .next (finish (some (.mode (modeVal s.ctrl.mode))) s) := by
  rw [exec, execBccGetMode, call_access rfl]
  simp only [access, rdReg_ctrla_mode]
  rfl

-- the obligations

/-- Settles O18: a write sees its register's fields alone, and the two protected ones keep their value. -/
theorem reservedBitsAndEnableProtection : Obligations.ReservedBitsAndEnableProtection := by
  refine ⟨fun c => ⟨reserved_ctrla c, reserved_ctrlb c, reserved_intflag c, reserved_status c, reserved_syncbusy c,
      reserved_addr c⟩,
    fun s t v w h => (wrReg_ctrla_congr h s t).1, fun s t v w h => (wrReg_ctrlb_congr h s t).1,
    fun s t v w h => (execWrIntflag_congr h s t).1, fun s t v w h => (execWrStatus_congr h s t).1,
    fun s t v w h => (execWrAddr_congr h s t).1,
    fun s t v he => ⟨wrReg_ctrla_mode he, wrReg_ctrlb_smen he⟩, fun s v hs he => ?_, fun s v hs hop hb he => ?_⟩
  · refine ⟨_, execWrCtrlaConfig_eq_next.2 ⟨hs, rfl⟩, ?_, rfl⟩
    simp only [configCtrla, he, if_true]
  · refine ⟨_, execWrCtrlbNoop_eq_next.2 ⟨⟨hs, hop, hb⟩, rfl⟩, ?_, rfl⟩
    simp only [writeAckPolicy, he, if_true]

/-- Settles O38: `bcc.set_mode` is a read of CTRLA and its write, `bcc.get_mode` one read. -/
theorem modeProceduresComplete : Obligations.ModeProceduresComplete := by
  refine ⟨fun s m hs => completes_of_run (call_rmw ..) ?_, fun s => ?_⟩
  · have hw := wrReg_setMode (s := { s with
      turn := .host
      running := some { origin := .instr (.bccSetMode m), todo :=
        [.wr .ctrla (rmwValue (rdReg .ctrla s.ctrl) 0x1D#32 ((roleCode m).setWidth 32 <<< 2))] } }) m hs
    rw [runAs_cons, step_last_write rfl rfl hw]
    cases m <;> rfl
  · rw [exec_bccGetMode]
    rfl

end Sys2Proof.Proofs
end

section
/-! The host's register window (spec/40_register_interface.md): what each register reads as, which accesses by address reach
one, and that the controller and the environment leave the host's side of it alone. -/

namespace Sys2Proof.Proofs

open Sys2Proof.Machine Sys2Proof.Safety

-- what each register reads as (R121 to R127)

theorem rdReg_ctrla (c : Ctrl) :
    rdReg .ctrla c = (c.mode.setWidth 32 <<< 2) ||| (bit c.enable <<< 1) ||| bit c.syncSwrst := by
  have key : ∀ (m : BitVec 3) (a b : Bool),
      0#27 ++ m ++ BitVec.ofBool a ++ BitVec.ofBool b = (m.setWidth 32 <<< 2) ||| (bit a <<< 1) ||| bit b := by decide
  exact key c.mode c.enable c.syncSwrst

theorem rdReg_ctrlb (c : Ctrl) : rdReg .ctrlb c = (bit (c.ackact == .nack) <<< 18) ||| (bit c.smen <<< 8) := by
  have key : ∀ (k : Ack) (a : Bool),
      0#13 ++ BitVec.ofBool (ackBit k) ++ 0#9 ++ BitVec.ofBool a ++ 0#8 = (bit (k == .nack) <<< 18) ||| (bit a <<< 8) := by
    intro k
    cases k <;> decide
  exact key c.ackact c.smen

theorem rdReg_intflag (c : Ctrl) : rdReg .intflag c = (bit c.sb <<< 1) ||| bit c.mb := by
  have key : ∀ a b : Bool, 0#30 ++ BitVec.ofBool a ++ BitVec.ofBool b = (bit a <<< 1) ||| bit b := by decide
  exact key c.sb c.mb

theorem rdReg_status (c : Ctrl) :
    rdReg .status c =
      ((busStateCode c.busstate).setWidth 32 <<< 4) ||| (bit c.rxnack <<< 2) ||| bit c.buserr := by
  have key : ∀ (k : BitVec 2) (a b : Bool),
      0#26 ++ k ++ 0#1 ++ BitVec.ofBool a ++ 0#1 ++ BitVec.ofBool b =
        (k.setWidth 32 <<< 4) ||| (bit a <<< 2) ||| bit b := by decide
  exact key (busStateCode c.busstate) c.rxnack c.buserr

theorem rdReg_syncbusy (c : Ctrl) :
    rdReg .syncbusy c = (bit c.sysop <<< 2) ||| (bit c.syncEnable <<< 1) ||| bit c.syncSwrst := by
  have key : ∀ a b d : Bool,
      0#29 ++ BitVec.ofBool a ++ BitVec.ofBool b ++ BitVec.ofBool d = (bit a <<< 2) ||| (bit b <<< 1) ||| bit d := by decide
  exact key c.sysop c.syncEnable c.syncSwrst

/-- A host read gives the host the register's value and changes nothing else (R78). -/
theorem hostRead_eq {r : Reg} {v : Word} {s : State} (h : rdReg r s.ctrl = v) :
    hostRead r s = .next { s with results := s.results ++ [.word v] } := by
  rw [hostRead, h, giveValue]

-- which accesses by address reach a register (R70, R75)

theorem offset_of_regAt {off : Byte} {r : Reg} (h : regAt off = some r) : r.offset = off := by
  simpa using List.find?_some h

/-- An access in the window that is no register's at its declared width is rejected. -/
theorem mmioReg_unmapped {base addr width : Nat} (hlo : base ≤ addr) (hhi : addr < base + 64)
    (h : ∀ r : Reg, (addr - base, width) ≠ (r.offset.toNat, r.width)) :
    mmioReg base addr width = some (.error .unmapped) := by
  rw [mmioReg, if_pos ⟨hlo, hhi⟩]
  cases hr : regAt (BitVec.ofNat 8 (addr - base)) with
  | none => rfl
  | some r =>
    have hoff : r.offset.toNat = addr - base := by
      rw [offset_of_regAt hr, BitVec.toNat_ofNat, Nat.mod_eq_of_lt (by omega)]
    have hwidth : width ≠ r.width := fun hw => h r (by rw [hoff, hw])
    exact if_neg hwidth

/-- Its entry of the host's program is refused by name, whether it reads or writes, and before the value is looked at. -/
theorem runEntry_mmio_unmapped {w : Bool} {addr width : Nat} {v : Word} {s : State}
    (h : mmioReg s.cfg.base addr width = some (.error .unmapped)) :
    runEntry (.act (.mmio w addr width v)) s = .refused (.unmapped (.act (.mmio w addr width v))) := by
  simp only [runEntry, entryInstr, mmioInstr, h, rejected]

-- the obligations

/-- Settles O7: every register's offset and width is on the list, so the access reaches none (`mmioReg_unmapped`). -/
theorem unlistedOrMisSizedAccessIsUnmapped : Obligations.UnlistedOrMisSizedAccessIsUnmapped := by
  intro s w addr width v rest ht hr hp hlo hhi hmem
  have listed : ∀ r : Reg, (r.offset.toNat, r.width) ∈
      [(0x00, 32), (0x04, 32), (0x18, 8), (0x1A, 16), (0x1C, 32), (0x24, 32), (0x28, 8)] := by
    intro r
    cases r <;> decide
  have reaches : mmioReg s.cfg.base addr width = some (.error .unmapped) :=
    mmioReg_unmapped hlo hhi fun r e => hmem (e ▸ listed r)
  rw [step_entry ht hr hp, runEntry_mmio_unmapped (s := { s with prog := rest }) reaches, andThen_refused_left]

/-- Settles O14: the move answers (`step_agent`), and within the frame of the controller and the environment. -/
theorem agentStepsLeaveTheHostAlone : Obligations.AgentStepsLeaveTheHostAlone := by
  intro s hturn
  obtain ⟨c, e, es, hframe⟩ := agentMove_frame s.turn s
  exact ⟨c, e, s.trace ++ es, by rw [step_agent hturn, hframe, advance_eq]⟩

/-- Settles O20: each row is a host read (`hostRead_eq`) of its register's value. -/
theorem readsReturnTheRegisterAndChangeNothing : Obligations.ReadsReturnTheRegisterAndChangeNothing := by
  intro s
  refine ⟨hostRead_eq (rdReg_ctrla _), hostRead_eq (rdReg_ctrlb _), hostRead_eq (rdReg_intflag _), hostRead_eq ?_,
    hostRead_eq (rdReg_syncbusy _), hostRead_eq rfl, hostRead_eq rfl⟩
  rw [rdReg_status]
  cases s.ctrl.busstate <;> rfl

end Sys2Proof.Proofs
end

section
/-! The encodings (spec/30_encoding.md R91, R100 to R103): a descriptor is its four fields, a procedure word is the one its
instruction is encoded as, and what the decoder makes of each, refusals among it. -/

namespace Sys2Proof.Proofs

open Sys2Proof.Machine Sys2Proof.Safety

-- DATA at a register's width (R91)

theorem fitsWidth_iff {r : Reg} {v : Word} : fitsWidth r v = true ↔ v.toNat < 2 ^ r.width := by
  rw [fitsWidth, beq_iff_eq, BitVec.toNat_eq, BitVec.toNat_ushiftRight, BitVec.toNat_zero, Nat.shiftRight_eq_div_pow,
    Nat.div_eq_zero_iff_lt (Nat.two_pow_pos _)]

theorem fitsWidth_setWidth {r : Reg} (v : BitVec r.width) : fitsWidth r (v.setWidth 32) = true := by
  rw [fitsWidth_iff, BitVec.toNat_setWidth]
  exact Nat.lt_of_le_of_lt (Nat.mod_le ..) v.isLt

/-- DATA fits the register exactly when its bits above the width are 0. -/
theorem fitsWidth_data_iff {r : Reg} {d : BitVec 48} :
    fitsWidth r (d.extractLsb' 0 32) = true ↔ d.extractLsb' r.width (32 - r.width) = 0#(32 - r.width) := by
  rw [fitsWidth_iff, BitVec.toNat_eq, BitVec.extractLsb'_toNat, BitVec.extractLsb'_toNat, BitVec.toNat_zero,
    Nat.shiftRight_eq_div_pow, Nat.shiftRight_eq_div_pow]
  cases r <;> simp only [Reg.width] <;> omega

theorem setWidth_extractLsb'_of_lt {n : Nat} {v : Word} (h : v.toNat < 2 ^ n) : (v.extractLsb' 0 n).setWidth 32 = v := by
  apply BitVec.eq_of_toNat_eq
  rw [BitVec.toNat_setWidth, BitVec.extractLsb'_toNat, Nat.shiftRight_zero, Nat.mod_eq_of_lt h, Nat.mod_eq_of_lt v.isLt]

-- the rows of a register (R91, R101)

theorem encode_readInstr (r : Reg) : encode (readInstr r) = haccWord false r 0#32 := by
  cases r <;> rfl

theorem readInstr_wf (r : Reg) : (readInstr r).wf = true := by
  cases r <;> rfl

theorem writeInstr_wf (r : Reg) (v : Word) : (writeInstr r v).wf = true := by
  cases r with
  | ctrla =>
    simp only [writeInstr]
    split
    next swrst => exact swrst
    next swrst => rw [Instr.wf, eq_false_of_ne_true swrst, Bool.not_false]
  | ctrlb =>
    have stop : ∀ k : BitVec 2, k ≠ 0#2 → k ≠ 1#2 → k ≠ 2#2 → k = 3#2 := by decide
    simp only [writeInstr]
    split
    next noop => exact beq_iff_eq.2 noop
    next noop =>
      split
      next repeatStart => exact beq_iff_eq.2 repeatStart
      next repeatStart =>
        split
        next readContinue => exact beq_iff_eq.2 readContinue
        next readContinue => exact beq_iff_eq.2 (stop _ noop repeatStart readContinue)
  | _ => rfl

theorem writeInstr_ctrlb {v : Word} {c : Cmd} (h : ctrlbCmdBits v = c.code) : writeInstr .ctrlb v =
    (match c with
      | .noop => .wrCtrlbNoop v
      | .repeatStart => .wrCtrlbRepeatStart v
      | .readContinue => .wrCtrlbReadContinue v
      | .stop => .wrCtrlbStop v) := by
  simp only [writeInstr, h]
  cases c <;> rfl

theorem encode_writeInstr {r : Reg} {v : Word} (h : fitsWidth r v = true) :
    encode (writeInstr r v) = haccWord true r v := by
  rw [fitsWidth_iff] at h
  cases r with
  | ctrla => simp only [writeInstr]; split <;> rfl
  | ctrlb =>
    simp only [writeInstr]
    repeat' split
    all_goals rfl
  | intflag => exact congrArg (haccWord true .intflag) (setWidth_extractLsb'_of_lt h)
  | status => exact congrArg (haccWord true .status) (setWidth_extractLsb'_of_lt h)
  | data => exact congrArg (haccWord true .data) (setWidth_extractLsb'_of_lt h)
  | _ => rfl

/-- A well-formed instruction that is encoded as a descriptor is a register's read row, or its write row for a value that
fits. -/
theorem readInstr_or_writeInstr {i : Instr} {d : BitVec 48} (hwf : i.wf = true) (h : encode i = .hacc d) :
    (∃ r, i = readInstr r) ∨ ∃ r v, fitsWidth r v = true ∧ i = writeInstr r v := by
  cases i
  case rdCtrla => exact .inl ⟨.ctrla, rfl⟩
  case rdCtrlb => exact .inl ⟨.ctrlb, rfl⟩
  case rdIntflag => exact .inl ⟨.intflag, rfl⟩
  case rdStatus => exact .inl ⟨.status, rfl⟩
  case rdSyncbusy => exact .inl ⟨.syncbusy, rfl⟩
  case rdAddr => exact .inl ⟨.addr, rfl⟩
  case rdData => exact .inl ⟨.data, rfl⟩
  case wrCtrlaSwrst v => exact .inr ⟨.ctrla, v, fitsWidth_iff.2 v.isLt, (if_pos hwf).symm⟩
  case wrCtrlaConfig v =>
    have hswrst : v.getLsbD 0 = false := by simpa only [Instr.wf, Bool.not_eq_true'] using hwf
    exact .inr ⟨.ctrla, v, fitsWidth_iff.2 v.isLt, by simp only [writeInstr, hswrst, if_false, Bool.false_eq_true]⟩
  case wrCtrlbNoop v =>
    exact .inr ⟨.ctrlb, v, fitsWidth_iff.2 v.isLt, (writeInstr_ctrlb (c := .noop) (beq_iff_eq.1 hwf)).symm⟩
  case wrCtrlbRepeatStart v =>
    exact .inr ⟨.ctrlb, v, fitsWidth_iff.2 v.isLt, (writeInstr_ctrlb (c := .repeatStart) (beq_iff_eq.1 hwf)).symm⟩
  case wrCtrlbReadContinue v =>
    exact .inr ⟨.ctrlb, v, fitsWidth_iff.2 v.isLt, (writeInstr_ctrlb (c := .readContinue) (beq_iff_eq.1 hwf)).symm⟩
  case wrCtrlbStop v =>
    exact .inr ⟨.ctrlb, v, fitsWidth_iff.2 v.isLt, (writeInstr_ctrlb (c := .stop) (beq_iff_eq.1 hwf)).symm⟩
  case wrIntflag v =>
    refine .inr ⟨.intflag, v.setWidth 32, fitsWidth_setWidth (r := .intflag) v, ?_⟩
    simp only [writeInstr, byte_setWidth_extract]
  case wrStatus v =>
    refine .inr ⟨.status, v.setWidth 32, fitsWidth_setWidth (r := .status) v, ?_⟩
    simp only [writeInstr, BitVec.extractLsb'_setWidth_of_le, BitVec.extractLsb'_eq_self, Nat.reduceAdd, Nat.reduceLeDiff]
  case wrSyncbusy v => exact .inr ⟨.syncbusy, v, fitsWidth_iff.2 v.isLt, rfl⟩
  case wrAddr v => exact .inr ⟨.addr, v, fitsWidth_iff.2 v.isLt, rfl⟩
  case wrData v =>
    refine .inr ⟨.data, v.setWidth 32, fitsWidth_setWidth (r := .data) v, ?_⟩
    simp only [writeInstr, byte_setWidth_extract]
  all_goals cases h

-- the fields of a descriptor (R91)

/-- The offsets of R21. -/
theorem exists_offset_iff {off : Byte} :
    (∃ r : Reg, r.offset = off) ↔ off ∈ [0x00#8, 0x04#8, 0x18#8, 0x1A#8, 0x1C#8, 0x24#8, 0x28#8] := by
  constructor
  · rintro ⟨r, rfl⟩
    cases r <;> decide
  · simp only [List.mem_cons, List.not_mem_nil, or_false]
    rintro (rfl | rfl | rfl | rfl | rfl | rfl | rfl)
    · exact ⟨.ctrla, rfl⟩
    · exact ⟨.ctrlb, rfl⟩
    · exact ⟨.intflag, rfl⟩
    · exact ⟨.status, rfl⟩
    · exact ⟨.syncbusy, rfl⟩
    · exact ⟨.addr, rfl⟩
    · exact ⟨.data, rfl⟩

theorem regAt_offset (r : Reg) : regAt r.offset = some r := by
  cases r <;> rfl

/-- A descriptor with Z = 0 is the one of its W, its register and its DATA. -/
theorem hacc_eq_haccWord {d : BitVec 48} {r : Reg} (hz : d.extractLsb' 41 7 = 0#7) (hr : r.offset = d.extractLsb' 32 8) :
    HostWord.hacc d = haccWord (d.getLsbD 40) r (d.extractLsb' 0 32) := by
  have hw : BitVec.ofBool (d.getLsbD 40) = d.extractLsb' 40 1 := by
    have bit : ∀ x : BitVec 1, BitVec.ofBool (x == 1#1) = x := by decide
    rw [BitVec.getLsbD_eq_extractLsb', bit]
  have join : d.extractLsb' 41 7 ++ d.extractLsb' 40 1 ++ d.extractLsb' 32 8 ++ d.extractLsb' 0 32 = d := by
    rw [BitVec.extractLsb'_append_extractLsb'_eq_extractLsb' (by decide),
      BitVec.extractLsb'_append_extractLsb'_eq_extractLsb' (by decide),
      BitVec.extractLsb'_append_extractLsb'_eq_extractLsb' (by decide)]
    exact BitVec.extractLsb'_eq_self
  rw [haccWord, ← hz, hw, hr, join]

theorem hacc_clearData {d : BitVec 48} {w : Bool} {r : Reg} {v : Word} (h : HostWord.hacc d = haccWord w r v) :
    HostWord.hacc (d &&& 0xFFFF00000000#48) = haccWord w r 0#32 := by
  have hd : d = 0#7 ++ BitVec.ofBool w ++ r.offset ++ v := HostWord.hacc.inj h
  rw [hd, show 0xFFFF00000000#48 = 0xFFFF#16 ++ 0#32 from rfl, Laws.Row.mask_split, BitVec.and_zero, haccWord]

-- what the decoder makes of a descriptor (R91, R102)

theorem decode_haccWord (w : Bool) (r : Reg) (v : Word) :
    decode (haccWord w r v) =
      if w then if fitsWidth r v then .ok (writeInstr r v) else .error .illFormed else .ok (readInstr r) := by
  have hz : (0#7 ++ BitVec.ofBool w ++ r.offset ++ v).extractLsb' 41 7 = 0#7 := by
    rw [BitVec.extractLsb'_append_eq_of_le (by decide), BitVec.extractLsb'_append_eq_of_le (by decide)]
    exact BitVec.extractLsb'_append_eq_left
  have hw : (0#7 ++ BitVec.ofBool w ++ r.offset ++ v).getLsbD 40 = w := by
    simp only [BitVec.getLsbD_append, BitVec.getLsbD_ofBool]
    exact Bool.true_and w
  have ho : (0#7 ++ BitVec.ofBool w ++ r.offset ++ v).extractLsb' 32 8 = r.offset := by
    rw [BitVec.extractLsb'_append_eq_of_le (by decide)]
    exact BitVec.extractLsb'_append_eq_right
  have hv : (0#7 ++ BitVec.ofBool w ++ r.offset ++ v).extractLsb' 0 32 = v := BitVec.extractLsb'_append_eq_right
  simp only [haccWord, decode, decodeHacc, hz, hw, ho, hv, regAt_offset, ne_eq, not_true_eq_false, if_false]

theorem decode_hacc_reserved {d : BitVec 48} (h : d.extractLsb' 41 7 ≠ 0#7) : decode (.hacc d) = .error .illFormed :=
  if_pos h

theorem decode_hacc_unmapped {d : BitVec 48} (hz : d.extractLsb' 41 7 = 0#7)
    (h : ∀ r : Reg, r.offset ≠ d.extractLsb' 32 8) : decode (.hacc d) = .error .unmapped := by
  have hnone : regAt (d.extractLsb' 32 8) = none :=
    Option.eq_none_iff_forall_ne_some.2 fun r hr => h r (offset_of_regAt hr)
  simp only [decode, decodeHacc, hz, hnone, ne_eq, not_true_eq_false, if_false]

theorem decode_hacc_of_offset {d : BitVec 48} {r : Reg} (hz : d.extractLsb' 41 7 = 0#7)
    (hr : r.offset = d.extractLsb' 32 8) :
    decode (.hacc d) =
      if d.getLsbD 40 then
        if fitsWidth r (d.extractLsb' 0 32) then .ok (writeInstr r (d.extractLsb' 0 32)) else .error .illFormed
      else .ok (readInstr r) := by
  rw [hacc_eq_haccWord hz hr, decode_haccWord]

theorem decode_hacc_tooWide {d : BitVec 48} {r : Reg} (hz : d.extractLsb' 41 7 = 0#7)
    (hr : r.offset = d.extractLsb' 32 8) (hw : d.getLsbD 40 = true)
    (hv : d.extractLsb' r.width (32 - r.width) ≠ 0#(32 - r.width)) : decode (.hacc d) = .error .illFormed := by
  rw [decode_hacc_of_offset hz hr, if_pos hw, if_neg fun hfits => hv (fitsWidth_data_iff.1 hfits)]

/-- A descriptor that is accepted has Z = 0 and a register at its offset. -/
theorem offset_of_decode_hacc {d : BitVec 48} {i : Instr} (h : decode (.hacc d) = .ok i) :
    d.extractLsb' 41 7 = 0#7 ∧ ∃ r : Reg, r.offset = d.extractLsb' 32 8 := by
  have hz : d.extractLsb' 41 7 = 0#7 := Classical.byContradiction fun hz => by
    rw [decode_hacc_reserved hz] at h
    cases h
  refine ⟨hz, Classical.byContradiction fun hr => ?_⟩
  rw [decode_hacc_unmapped hz (not_exists.1 hr)] at h
  cases h

-- procedure words (R100)

/-- Each procedure row's id leads to its own arm, and its operands have that arm's shape. -/
theorem procInstr_of_encode {i : Instr} {id : Byte} {ops : List Operand} (h : encode i = .proc id ops) :
    procInstr id ops = some i := by
  cases i <;> cases h <;> rfl

theorem encode_of_procBcc {n : Nat} {ops : List Operand} {i : Instr} (h : procBcc n ops = some i) :
    encode i = .proc (BitVec.ofNat 8 n) ops := by
  unfold procBcc at h
  split at h
  case h_12 => cases h
  all_goals
    simp only [args0, argsEvent, argsRole, argsPin] at h
    split at h
    · cases h; rfl
    · cases h

theorem encode_of_procEng {n : Nat} {ops : List Operand} {i : Instr} (h : procEng n ops = some i) :
    encode i = .proc (BitVec.ofNat 8 n) ops := by
  unfold procEng at h
  split at h
  case h_11 => cases h
  all_goals
    simp only [args0, argsNumBool, argsByte, argsNum, argsNumNum, argsCmd] at h
    split at h
    · cases h; rfl
    · cases h

theorem encode_of_procSock {n : Nat} {ops : List Operand} {i : Instr} (h : procSock n ops = some i) :
    encode i = .proc (BitVec.ofNat 8 n) ops := by
  unfold procSock at h
  split at h
  case h_5 => cases h
  all_goals
    simp only [argsNum, argsBufNum, argsNums] at h
    split at h
    · cases h; rfl
    · cases h

theorem encode_of_procRfa {n : Nat} {ops : List Operand} {i : Instr} (h : procRfa n ops = some i) :
    encode i = .proc (BitVec.ofNat 8 n) ops := by
  unfold procRfa at h
  split at h
  case h_11 => cases h
  all_goals
    simp only [argsMap, argsRef, argsOffset, argsFieldBytes, argsFieldVals, argsRefVals] at h
    split at h
    · cases h; rfl
    · cases h

/-- An id and its operands name the instruction that is encoded as them, and no other. -/
theorem procInstr_eq_some {id : Byte} {ops : List Operand} {i : Instr} :
    procInstr id ops = some i ↔ encode i = .proc id ops := by
  refine ⟨fun h => ?_, procInstr_of_encode⟩
  have hid : BitVec.ofNat 8 id.toNat = id := by rw [BitVec.ofNat_toNat, BitVec.setWidth_eq]
  unfold procInstr at h
  split at h
  · exact hid ▸ encode_of_procBcc h
  split at h
  · exact hid ▸ encode_of_procEng h
  split at h
  · exact hid ▸ encode_of_procSock h
  · exact hid ▸ encode_of_procRfa h

theorem decode_proc_eq_ok {id : Byte} {ops : List Operand} {i : Instr} :
    decode (.proc id ops) = .ok i ↔ i.wf = true ∧ encode i = .proc id ops := by
  rw [← procInstr_eq_some, decode, decodeProc]
  constructor
  · intro h
    split at h
    next j hj =>
      split at h
      next hwf =>
        cases h
        exact ⟨hwf, hj⟩
      next => cases h
    next => cases h
  · rintro ⟨hwf, hi⟩
    simp only [hi, hwf, if_true]

/-- No row has an id outside the ranges of R100. -/
theorem listed_of_encode {i : Instr} {id : Byte} {ops : List Operand} (h : encode i = .proc id ops) :
    (0x01#8 ≤ id ∧ id ≤ 0x0B#8) ∨ (0x10#8 ≤ id ∧ id ≤ 0x19#8) ∨ (0x20#8 ≤ id ∧ id ≤ 0x23#8) ∨
      (0x30#8 ≤ id ∧ id ≤ 0x39#8) := by
  cases i <;> cases h <;> decide

theorem decode_proc_of_none {id : Byte} {ops : List Operand} (h : ∀ i, encode i ≠ .proc id ops) :
    decode (.proc id ops) = .error .illFormed := by
  have hnone : procInstr id ops = none :=
    Option.eq_none_iff_forall_ne_some.2 fun i hi => h i (procInstr_eq_some.1 hi)
  simp only [decode, decodeProc, hnone]

-- a refused entry of the host's program (R312)

theorem step_entry_rejected {s : State} {w : HostWord} {e : Reject} {rest : List Item} (ht : s.turn = .host)
    (hr : s.running = none) (hp : s.prog = .op w :: rest) (h : decode w = .error e) :
    step s = .refused (rejected (.op w) e) := by
  rw [step_entry ht hr hp]
  simp only [runEntry, entryInstr, h, andThen_refused_left]

-- the obligations

/-- Settles O1: a descriptor's instruction is a row of its register (`readInstr_or_writeInstr`), a procedure word's is the
one that is encoded as it. -/
theorem decodeOfEncode : Obligations.DecodeOfEncode := by
  intro i hwf
  cases h : encode i with
  | hacc d =>
    rw [← h]
    rcases readInstr_or_writeInstr hwf h with ⟨r, rfl⟩ | ⟨r, v, hv, rfl⟩
    · rw [encode_readInstr, decode_haccWord]
      rfl
    · rw [encode_writeInstr hv, decode_haccWord, if_pos rfl, if_pos hv]
  | proc id ops => exact decode_proc_eq_ok.2 ⟨hwf, h⟩

/-- Settles O2: an accepted descriptor is its register's row, which is encoded as its fields with a read's DATA cleared; an
accepted procedure word is what its instruction is encoded as. -/
theorem acceptedWordIsTheInstructionsOwn : Obligations.AcceptedWordIsTheInstructionsOwn := by
  refine ⟨fun d i h => ?_, fun id ops i => decode_proc_eq_ok.1⟩
  obtain ⟨hz, r, hr⟩ := offset_of_decode_hacc h
  have fields := hacc_eq_haccWord hz hr
  rw [decode_hacc_of_offset hz hr] at h
  split at h
  next hw =>
    split at h
    next hv =>
      cases h
      rw [if_pos hw, fields, hw]
      exact ⟨writeInstr_wf r _, encode_writeInstr hv⟩
    next => cases h
  next hw =>
    cases h
    rw [if_neg hw, hacc_clearData fields, eq_false_of_ne_true hw]
    exact ⟨readInstr_wf r, encode_readInstr r⟩

/-- Settles O4: a descriptor is refused for its Z, its offset or the DATA bits above its register's width, a procedure word
for an id that no instruction is encoded with. -/
theorem decoderRefusesByName : Obligations.DecoderRefusesByName := by
  refine ⟨fun d => decode_hacc_reserved, fun d hz ho => ?_, fun d hz hw ho hv => ?_, fun d hz hw ho hv => ?_,
    fun d hz ho hbyte hhalf => ?_, fun id ops h => ?_, fun s w rest ht hr hp => ⟨?_, ?_⟩⟩
  · exact decode_hacc_unmapped hz fun r hr => ho (exists_offset_iff.1 ⟨r, hr⟩)
  · simp only [List.mem_cons, List.not_mem_nil, or_false] at ho
    rcases ho with ho | ho
    · exact decode_hacc_tooWide (r := .intflag) hz ho.symm hw hv
    · exact decode_hacc_tooWide (r := .data) hz ho.symm hw hv
  · exact decode_hacc_tooWide (r := .status) hz ho.symm hw hv
  · obtain ⟨r, hr⟩ := exists_offset_iff.2 ho
    have fits : d.getLsbD 40 = true → fitsWidth r (d.extractLsb' 0 32) = true := by
      intro hw
      rw [fitsWidth_data_iff]
      cases r with
      | intflag => exact hbyte hw (hr ▸ by decide)
      | data => exact hbyte hw (hr ▸ by decide)
      | status => exact hhalf hw hr.symm
      | _ => exact BitVec.extractLsb'_eq_zero
    rw [decode_hacc_of_offset hz hr]
    split
    next hw => exact ⟨_, if_pos (fits hw)⟩
    next => exact ⟨_, rfl⟩
  · exact decode_proc_of_none fun i hi => h (listed_of_encode hi)
  · exact step_entry_rejected ht hr hp
  · exact step_entry_rejected ht hr hp

/-- Settles O3: the words are those of the encodings. -/
theorem specWordsDecode : Obligations.SpecWordsDecode :=
  ⟨rfl, rfl, rfl, rfl, rfl, rfl, rfl, rfl, rfl, rfl, rfl, rfl, rfl, rfl, rfl, rfl, rfl, rfl, rfl⟩

end Sys2Proof.Proofs
end

section
/-! The header byte (spec/43_primary_engine.md R220, R228) and the two waits (R203, R221). -/

namespace Sys2Proof.Proofs

open Sys2Proof.Machine Sys2Proof.Safety

-- the header byte (R92)

theorem header_toNat {a : Nat} (h : a < 128) (r : Bool) :
    (header (BitVec.ofNat 7 a) r).toNat = 2 * a + (if r then 1 else 0) := by
  rw [header, BitVec.append_ofBool, BitVec.toNat_concat, BitVec.toNat_ofNat, Nat.mod_eq_of_lt h]
  cases r <;> simp only [Bool.toNat_true, Bool.toNat_false, if_true, if_false, Bool.false_eq_true] <;> omega

theorem headerAddr_header (a : BitVec 7) (r : Bool) : headerAddr (header a r) = a :=
  BitVec.extractLsb'_append_eq_left

theorem headerRead_header (a : BitVec 7) (r : Bool) : headerRead (header a r) = r := by
  rw [headerRead, header, BitVec.append_ofBool, BitVec.getLsbD_concat_zero]

theorem exec_engMakeHeader {a : Nat} (h : a < 128) (r : Bool) (s : State) :
    exec (.engMakeHeader a r) s = .next (giveValue (.header (header (BitVec.ofNat 7 a) r)) s) := by
  simp only [exec, execEngMakeHeader, makeHeader, if_pos h]

theorem exec_engMakeHeader_bad {a : Nat} (h : 128 ≤ a) (r : Bool) (s : State) :
    exec (.engMakeHeader a r) s = .fault (.badAddress (.instr (.engMakeHeader a r))) := by
  simp only [exec, execEngMakeHeader, makeHeader, if_neg (Nat.not_lt.2 h)]

theorem exec_engParseHeader (h : Byte) (s : State) :
    exec (.engParseHeader h) s = .next (giveValue (.parsed (headerAddr h) (headerRead h)) s) := rfl

-- a procedure that is one poll (R8)

theorem call_await (o : Origin) (r : Reg) (mask : Word) (set : Bool) (s : State) :
    call o [.await r mask set] s = .next { s with
      running := if (rdReg r s.ctrl &&& mask != 0#32) = set then none else
        some { origin := o, todo := [.await r mask set] } } := by
  rw [call_access rfl]
  simp only [access, andThen_next_left]
  split
  · rfl
  · exact congrArg Host.Outcome.next ((leave_access rfl [] _).trans (setTodo_self rfl))

theorem getLsbD_rdReg_intflag (c : Ctrl) (i : Nat) :
    (rdReg .intflag c).getLsbD i = (decide (i = 0) && c.mb || decide (i = 1) && c.sb) := by
  simp only [rdReg, readIntflag, BitVec.getLsbD_append, BitVec.getLsbD_ofBool, BitVec.getLsbD_zero]
  rcases i with _ | _ | i <;> simp

theorem rdReg_intflag_ne_zero (c : Ctrl) : (rdReg .intflag c != 0#32) = (c.mb || c.sb) := by
  have key : ∀ a b : Bool, (0#30 ++ BitVec.ofBool a ++ BitVec.ofBool b != 0#32) = (b || a) := by decide
  exact key c.sb c.mb

/-- INTFLAG reads 0 above MB and SB, so the mask's other bits never match (R29, log entry 22). -/
theorem poll_intflag_mask (c : Ctrl) (m : Byte) :
    (rdReg .intflag c &&& m.setWidth 32 != 0#32) = (m.getLsbD 0 && c.mb || m.getLsbD 1 && c.sb) := by
  have masked : rdReg .intflag c &&& m.setWidth 32 =
      rdReg .intflag { c with mb := m.getLsbD 0 && c.mb, sb := m.getLsbD 1 && c.sb } := by
    refine BitVec.eq_of_getLsbD_eq fun i hi => ?_
    rw [BitVec.getLsbD_and, BitVec.getLsbD_setWidth, getLsbD_rdReg_intflag, getLsbD_rdReg_intflag]
    rcases i with _ | _ | i <;> simp [Bool.and_comm]
  rw [masked]
  exact rdReg_intflag_ne_zero _

-- the obligations

/-- Settles O5: a header is its address beside its direction bit. -/
theorem headerRoundTrip : Obligations.HeaderRoundTrip := by
  refine ⟨fun s a r h => ⟨_, header_toNat h r, exec_engMakeHeader h r s, ?_⟩,
    fun s a r h => exec_engMakeHeader_bad h r s, fun s h => exec_engParseHeader h s⟩
  rw [exec_engParseHeader, headerAddr_header, headerRead_header, giveValue]

/-- Settles O37: each wait is one poll (`call_await`), of the bits its mask names. -/
theorem waitsPollTheirBits : Obligations.WaitsPollTheirBits := by
  constructor
  · intro s e
    have h := call_await (.instr (.bccWaitSync e)) .syncbusy (eventMask e) false s
    rw [poll_syncbusy] at h
    cases e <;> exact h
  · intro s m
    have h := call_await (.instr (.engWaitFlag m)) .intflag (m.setWidth 32) true s
    rwa [poll_intflag_mask] at h

end Sys2Proof.Proofs
end

section
/-! The register writes (spec/40_register_interface.md R120 to R142): what each leaves of the controller once it is
admitted, and the faults of those that are not, in their order. -/

namespace Sys2Proof.Proofs

open Sys2Proof.Machine Sys2Proof.Safety

-- the controller after an admitted write

theorem and_not_eq_ite (flag written : Bool) : (flag && !written) = if written then false else flag := by
  cases written <;> simp

/-- With no synchronisation pending, SYNCBUSY.ENABLE says just that ENABLE changed (R131). -/
theorem configCtrla_of_noSync {c : Ctrl} (h : NoSync c) (v : Word) :
    configCtrla v c = { c with
      mode := if c.en then c.mode else v.extractLsb' 2 3
      enable := v.getLsbD 1
      syncEnable := decide (v.getLsbD 1 ≠ c.enable) } := by
  have changed : (v.getLsbD 1 != c.enable) = decide (v.getLsbD 1 ≠ c.enable) := by
    rw [Bool.eq_iff_iff, bne_iff_ne, decide_eq_true_iff]
  rw [configCtrla, h.enable, Bool.false_or, changed]

/-- While enabled a CTRLB write reaches ACKACT alone (R29, R132). -/
theorem writeAckPolicy_of_en {c : Ctrl} (h : c.en = true) (v : Word) :
    writeAckPolicy v c = { c with ackact := if v.getLsbD 18 then .nack else .ack } := by
  rw [writeAckPolicy, if_pos h]
  rfl

theorem forcesIdle_eq_true {v : BitVec 16} : forcesIdle v = true ↔ v.extractLsb' 4 2 = 0b01#2 := beq_iff_eq

/-- Without force-IDLE a STATUS write reaches BUSERR alone (R137). -/
theorem statusWritten_of_not_forcesIdle {v : BitVec 16} (h : forcesIdle v = false) (c : Ctrl) :
    statusWritten v c = { c with buserr := if v.getLsbD 0 then false else c.buserr } := by
  rw [statusWritten, h, Bool.or_false, and_not_eq_ite]
  rfl

theorem statusWritten_of_forcesIdle {v : BitVec 16} (h : forcesIdle v = true) (c : Ctrl) :
    statusWritten v c = { c with
      buserr := if v.getLsbD 0 then false else c.buserr
      pend := some .forceIdle, sysop := true } := by
  rw [statusWritten, h, Bool.or_true, and_not_eq_ite]
  rfl

-- the guards' faults, in the order of R120 and R303

theorem guarded_eq_fault {g : Option Fault} {t : State} {f : Fault} : guarded g t = .fault f ↔ g = some f := by
  cases g <;> simp [guarded]

theorem guardSync_pending {s : State} (h : s.ctrl.syncSwrst = true ∨ s.ctrl.syncEnable = true) (o : Origin) :
    guardSync o s = some (.writeDuringSync o) := by
  rw [guardSync, if_pos (Bool.or_eq_true_iff.2 h)]

theorem guardStart_pending {s : State} (h : s.ctrl.syncSwrst = true ∨ s.ctrl.syncEnable = true) (o : Origin) :
    guardStart o s = some (.writeDuringSync o) := by
  rw [guardStart, guardSync_pending h, Option.some_or]

theorem opBusy_eq_true {c : Ctrl} : opBusy c = true ↔ c.sysop = true ∨ c.busop ≠ none := by
  rw [opBusy, Bool.or_eq_true, Option.isSome_iff_ne_none]

theorem guardStart_busy {s : State} (hs : NoSync s.ctrl) (hb : opBusy s.ctrl = true) (o : Origin) :
    guardStart o s = some (.busy o) := by
  rw [guardStart, guardSync_eq_none.2 hs, Option.none_or, if_pos hb]

/-- With no synchronisation and no operation under way the controller's enable, its role and the pins are looked at. -/
theorem guardStart_of_not_busy {s : State} (hs : NoSync s.ctrl) (hb : opBusy s.ctrl = false) (o : Origin) :
    guardStart o s =
      if s.ctrl.en = false then some (.notEnabled o)
      else if s.ctrl.mode ≠ 0b101#3 then some (.notController o)
      else if s.pins = false then some (.pinsNotRouted o)
      else none := by
  rw [guardStart, guardSync_eq_none.2 hs, Option.none_or, if_neg (ne_true_of_eq_false hb), modeController]

-- the faults of the writes

/-- An operation-starting write is guarded by `guard_start` first, and then by its own check, if it has one (R120). -/
theorem exec_eq_guarded_guardStart {i : Instr} (h : startsOp i = true) (s : State) :
    ∃ own t, exec i s = guarded ((guardStart (.instr i) s).or own) t := by
  have noCheck : ∀ (o : Origin) (t : State), guarded (guardStart o s) t = guarded ((guardStart o s).or none) t :=
    fun o t => by rw [Option.or_none]
  cases i with
  | wrAddr v => exact ⟨none, _, noCheck ..⟩
  | wrCtrlbStop v => exact ⟨none, _, noCheck ..⟩
  | wrStatus v =>
    have idle : forcesIdle v = true := h
    exact ⟨none, _, by rw [exec, execWrStatus, if_pos idle, noCheck]⟩
  | wrData v => exact ⟨_, _, rfl⟩
  | wrCtrlbRepeatStart v => exact ⟨_, _, rfl⟩
  | wrCtrlbReadContinue v => exact ⟨_, _, rfl⟩
  | _ => cases h

/-- A fault of a write's first guard is raised, whatever its own check says. -/
theorem guarded_or_left {g own : Option Fault} {t : State} {f : Fault} (h : g = some f) :
    guarded (g.or own) t = .fault f := by
  rw [h, Option.some_or, guarded]

/-- What `guard_start` raises, an operation-starting write raises. -/
theorem exec_fault_of_guardStart {i : Instr} {s : State} {f : Fault} (h : startsOp i = true)
    (hg : guardStart (.instr i) s = some f) : exec i s = .fault f := by
  obtain ⟨own, t, hexec⟩ := exec_eq_guarded_guardStart h s
  rw [hexec, guarded_or_left hg]

/-- Once `guard_start` admits a write, its own check is the guard. -/
theorem guarded_own_check {o : Origin} {s t : State} {own : Option Fault} {f : Fault} (hs : CanStart s)
    (h : own = some f) : guarded ((guardStart o s).or own) t = .fault f := by
  rw [guardStart_eq_none.2 hs, Option.none_or, h, guarded]

theorem writePhase_eq_false {c : Ctrl} :
    writePhase c = false ↔ c.busstate ≠ .owner ∨ c.dir = true ∨ c.ackpend = true := by
  rw [← Bool.not_eq_true, writePhase_eq_true]
  simp only [ne_eq, Decidable.not_and_iff_not_or_not, Bool.not_eq_false]

-- the obligations

/-- Settles O26: `guard_sync`, what else `guard_start` looks at, and the writes' own checks, one after another. -/
theorem faultsInOrder : Obligations.FaultsInOrder := by
  refine ⟨fun s i => ⟨fun hsync hi => ?_, fun hs hbusy hi => ?_, fun hs hop hb hi => ?_⟩, fun s hs => ?_⟩
  · obtain hi | ⟨v, rfl⟩ | ⟨v, rfl⟩ | ⟨v, rfl⟩ | ⟨v, rfl⟩ := hi
    · exact exec_fault_of_guardStart hi (guardStart_pending hsync _)
    · exact guarded_eq_fault.2 (guardSync_pending hsync _)
    · exact guarded_or_left (guardSync_pending hsync _)
    · exact guarded_eq_fault.2 (guardSync_pending hsync _)
    · refine guarded_eq_fault.2 ?_
      rw [guardStart_pending hsync, guardSync_pending hsync, ite_self]
  · obtain hi | ⟨v, rfl⟩ := hi
    · exact exec_fault_of_guardStart hi (guardStart_busy hs (opBusy_eq_true.2 hbusy) _)
    · refine guarded_eq_fault.2 ?_
      rw [guardSync_eq_none.2 hs, Option.none_or, if_pos (opBusy_eq_true.2 hbusy)]
  · have guard := guardStart_of_not_busy hs (opBusy_eq_false.2 ⟨hop, hb⟩) (.instr i)
    refine ⟨fun he => ?_, fun he hm => ?_, fun he hm hp => ?_⟩ <;> refine exec_fault_of_guardStart hi (guard.trans ?_)
    · rw [if_pos he]
    · rw [if_neg (ne_false_of_eq_true he), if_pos hm]
    · rw [if_neg (ne_false_of_eq_true he), if_neg (not_not_intro hm), if_pos hp]
  · exact ⟨fun v howner => guarded_own_check hs (if_pos howner),
      fun v hack => guarded_own_check hs (if_pos hack),
      fun v hack hsmen hnack =>
        guarded_own_check hs ((if_neg (ne_false_of_eq_true hack)).trans (if_pos ⟨hsmen, hnack⟩)),
      fun v hphase => guarded_own_check hs (if_neg (ne_true_of_eq_false (writePhase_eq_false.2 hphase)))⟩

/-- Settles O21: the SWRST write has no guard, the other one `guard_sync`. -/
theorem ctrlaWrites : Obligations.CtrlaWrites := by
  refine fun s v => ⟨rfl, fun hs => execWrCtrlaConfig_eq_next.2 ⟨hs, ?_⟩⟩
  rw [configCtrla_of_noSync hs]

/-- Settles O22: what each of the four writes needs is what the statement grants it. -/
theorem ctrlbWrites : Obligations.CtrlbWrites := by
  refine fun s v => ⟨fun hs hop hb => execWrCtrlbNoop_eq_next.2 ⟨⟨hs, hop, hb⟩, rfl⟩,
    fun hs howner => execWrCtrlbRepeatStart_eq_next.2 ⟨⟨hs, howner⟩, ?_⟩,
    fun hs hack hnack => execWrCtrlbReadContinue_eq_next.2 ⟨⟨hs, hack, ?_⟩, rfl⟩,
    fun hs => execWrCtrlbStop_eq_next.2 ⟨hs, rfl⟩⟩
  · rw [writeAckPolicy_of_en hs.en]
    rfl
  · rintro ⟨hsmen, hbit⟩
    exact hnack.elim (ne_true_of_eq_false hsmen) (ne_false_of_eq_true hbit)

/-- Settles O23: a flag written 1 is cleared, and BUSSTATE written 0b01 decides which guard a STATUS write has. -/
theorem intflagAndStatusWrites : Obligations.IntflagAndStatusWrites := by
  refine ⟨fun s v hs => execWrIntflag_eq_next.2 ⟨hs, ?_⟩, fun s v => ⟨fun hv hs => ?_, fun hv hs => ?_⟩⟩
  · rw [and_not_eq_ite, and_not_eq_ite]
  · have noIdle : forcesIdle v = false := eq_false_of_ne_true (mt forcesIdle_eq_true.1 hv)
    rw [exec, execWrStatus_eq_next, statusWritten_of_not_forcesIdle noIdle, noIdle]
    exact ⟨hs, rfl⟩
  · have idle : forcesIdle v = true := forcesIdle_eq_true.2 hv
    rw [exec, execWrStatus_eq_next, statusWritten_of_forcesIdle idle, idle]
    exact ⟨hs, rfl⟩

/-- Settles O24: each write's next state is `startOp`, after what it writes of its register. -/
theorem addrAndDataWrites : Obligations.AddrAndDataWrites :=
  ⟨fun _ _ hs => execWrAddr_eq_next.2 ⟨hs, rfl⟩,
    fun _ _ hs howner hdir hack => execWrData_eq_next.2 ⟨⟨hs, howner, hdir, hack⟩, rfl⟩⟩

/-- Settles O25: the write is refused before anything is looked at. -/
theorem syncbusyWriteIsRefused : Obligations.SyncbusyWriteIsRefused := fun _ _ => rfl

end Sys2Proof.Proofs
end

section
/-! Waits that never end (spec/60_exceptions.md R315): with no clock, or with nothing under way, no move of the controller
or the environment sets a ready flag, so the host's poll stays where it is. -/

namespace Sys2Proof.Proofs

open Sys2Proof.Machine Sys2Proof.Safety

-- what no move changes

/-- Every step of the controller and the environment needs the clock (R170, R172). -/
theorem agentMove_of_no_clock {s : State} (h : s.clk = false) (m : Move) : agentMove m s = s := by
  cases m with
  | host => rfl
  | _ => simp [agentMove, enabled, h]

/-- Nothing is pending, in progress or being synchronised. -/
structure Quiet (c : Ctrl) : Prop where
  sync : NoSync c
  sysop : c.sysop = false
  busop : c.busop = none

/-- Of a quiet controller only the bus-idle observation is left, and it reaches BUSSTATE alone (R172). -/
theorem agentMove_of_quiet {s : State} (h : Quiet s.ctrl) (m : Move) :
    ∃ b, agentMove m s = { s with ctrl := { s.ctrl with busstate := b } } := by
  have unchanged : ∀ m, enabled m s = false → ∃ b, agentMove m s = { s with ctrl := { s.ctrl with busstate := b } } :=
    fun m hm => ⟨s.ctrl.busstate, by rw [agentMove, if_neg (ne_true_of_eq_false hm)]⟩
  cases m with
  | host => exact ⟨s.ctrl.busstate, rfl⟩
  | swrstSync => exact unchanged _ (by simp [enabled, h.sync.swrst])
  | enableSync => exact unchanged _ (by simp [enabled, h.sync.enable])
  | sysopSync => exact unchanged _ (by simp [enabled, h.sysop])
  | bus => exact unchanged _ (by simp [enabled, busReady, h.busop])
  | busIdle =>
    cases he : enabled .busIdle s with
    | false => exact unchanged _ he
    | true => exact ⟨.idle, by rw [agentMove, if_pos he]; rfl⟩

-- a poll that waits for ever

section Poll

variable {o : Origin} {r : Reg} {mask : Word} {set : Bool} {rest : List Stmt}

/-- The host is on a poll whose condition does not hold, and one of the two causes keeps it from ever holding (R315). -/
structure PollsForEver (o : Origin) (r : Reg) (mask : Word) (set : Bool) (rest : List Stmt) (s : State) : Prop where
  running : s.running = some { origin := o, todo := .await r mask set :: rest }
  pending : rdReg r s.ctrl &&& mask ≠ 0#32 ↔ set = false
  cause : s.clk = false ∨ (r = .intflag ∧ Quiet s.ctrl)

theorem agentMove_pollsForEver {s : State} (h : PollsForEver o r mask set rest s) (m : Move) :
    PollsForEver o r mask set rest (agentMove m s) := by
  rcases h.cause with hclk | ⟨rfl, hquiet⟩
  · rwa [agentMove_of_no_clock hclk]
  · obtain ⟨b, hb⟩ := agentMove_of_quiet hquiet m
    rw [hb]
    exact ⟨h.running, h.pending, .inr ⟨rfl, ⟨hquiet.sync.swrst, hquiet.sync.enable⟩, hquiet.sysop, hquiet.busop⟩⟩

/-- Neither the count of steps nor the choice of the next move matters to the wait. -/
theorem PollsForEver.onTurn {s : State} (h : PollsForEver o r mask set rest s) (m : Move) (n : Nat) :
    PollsForEver o r mask set rest { s with turn := m, tick := n } := ⟨h.running, h.pending, h.cause⟩

/-- A host step polls again, and no other move ends the wait. -/
theorem step_pollsForEver {s t : State} (h : PollsForEver o r mask set rest s) (hst : step s = .next t) :
    PollsForEver o r mask set rest t := by
  rcases step_cases hst with ⟨hturn, -⟩ | ⟨-, rfl⟩
  · cases hst.symm.trans (pollingKeepsItsPlace s o r mask set rest hturn h.running h.pending)
    exact h.onTurn _ _
  · exact (agentMove_pollsForEver h s.turn).onTurn _ _

end Poll

-- the obligations

/-- Settles O59: the poll and the cause of its wait are kept by every step (`step_pollsForEver`). -/
theorem waitsThatNeverEnd : Obligations.WaitsThatNeverEnd := by
  intro μ σ n o r mask set rest hrun hn hpend hcause
  have start : PollsForEver o r mask set rest (σ n) :=
    ⟨hn, hpend, hcause.imp_right fun ⟨hr, hsync, hsysop, hbusop⟩ => ⟨hr, hsync, hsysop, hbusop⟩⟩
  refine ⟨o, r, mask, set, rest, fun k hk => ?_⟩
  have always : PollsForEver o r mask set rest (σ k) := by
    induction hk with
    | refl => exact start
    | @step k _ ih => exact step_pollsForEver (ih.onTurn (μ k) _) (hrun k)
  exact ⟨always.running, always.pending⟩

end Sys2Proof.Proofs
end

section
/-! `bcc.init` (spec/42_controller_common.md R206): runs of moves that compose, what each statement of a procedure does as
one host step, and the parts of `bcc.init` as such runs. -/

namespace Sys2Proof.Proofs

open Sys2Proof.Machine Sys2Proof.Safety

-- runs that compose

/-- The moves lead from one state to the other, whatever the step count they begin at. -/
def Leads (moves : List Move) (s u : State) : Prop := ∀ n, runAs moves (ticked n s) = .next (ticked (n + moves.length) u)

theorem Leads.append {ms ns : List Move} {s t u : State} (h : Leads ms s t) (g : Leads ns t u) : Leads (ms ++ ns) s u := by
  intro n
  rw [runAs_append, h n, andThen_next_left, g, List.length_append, Nat.add_assoc]

/-- An operation completes where the moves after its first host step lead. -/
theorem Leads.completes {i : Instr} {ms : List Move} {s t u : State} (g : Leads ms t u) (h : exec i s = .next t) :
    Completes i ms s u := completes_of_run h (by simpa using g 0)

/-- The state at the move that comes `n` steps later. -/
def onTurn (m : Move) (n : Nat) (s : State) : State := { s with turn := m, tick := s.tick + n }

theorem advance_onTurn (m : Move) (n : Nat) (s : State) : advance (onTurn m n s) = ticked (n + 1) s := rfl

theorem leads_move {m : Move} {s u : State} (h : ∀ n, moveAs m (onTurn m n s) = .next (onTurn m n u)) :
    Leads [m] s u := by
  intro n
  have moved : step (onTurn m n s) = .next (ticked (n + 1) u) := by
    rw [step_eq_andThen, ← advance_onTurn m]
    exact congrArg (andThen · _) (h n)
  exact congrArg (andThen · (runAs [])) moved

-- a procedure at one of its accesses (R8, R31)

/-- The host's position with these statements still to run: none once they are done. -/
def place (o : Origin) : List Stmt → Option Running
  | [] => none
  | st :: rest => some { origin := o, todo := st :: rest }

/-- The state with a procedure in progress that has these statements still to run. -/
def inside (o : Origin) (l : List Stmt) (s : State) : State := { s with running := place o l }

/-- The statements begin with an access, or there are none. -/
def atAccess : List Stmt → Bool
  | [] => true
  | st :: _ => !isPure st

theorem leave_inside {l : List Stmt} (h : atAccess l = true) (o : Origin) (st : Stmt) (rest : List Stmt) (s : State) :
    leave l (inside o (st :: rest) s) = inside o l s := by
  cases l with
  | nil => rfl
  | cons st' l => exact leave_access (by simpa [atAccess] using h) l _

/-- A call's first host step makes the first access and leaves the rest. -/
theorem call_inside {o : Origin} {st : Stmt} {l : List Stmt} {s t : State} (hl : atAccess l = true)
    (hp : isPure st = false) (h : access o st (inside o (st :: l) s) = .next (inside o (st :: l) t, [])) :
    call o (st :: l) s = .next (inside o l t) :=
  calc call o (st :: l) s
      = andThen (access o st (inside o (st :: l) s)) (fun p => .next (leave (p.2 ++ l) p.1)) := call_access hp o l s
    _ = .next (leave l (inside o (st :: l) t)) := by rw [h]; rfl
    _ = .next (inside o l t) := by rw [leave_inside hl]

/-- A host move inside a procedure is the first host step of a call of what it has still to run. -/
theorem leads_host {o : Origin} {st : Stmt} {l : List Stmt} {s u : State}
    (h : ∀ n, call o (st :: l) (onTurn .host n s) = .next (onTurn .host n u)) :
    Leads [.host] (inside o (st :: l) s) u := leads_move h

-- one statement, one move

/-- A guarded write does the same wherever the host stands, if its guard and its write do. -/
theorem inside_of_guarded {o : Origin} {l : List Stmt} {n : Nat} {x y : Out State} {g : Option Fault} {t : State}
    (hy : y = guarded g t) (hx : x = guarded g (inside o l (onTurn .host n t))) :
    x = andThen y (fun t => .next (inside o l (onTurn .host n t))) := by
  subst hx hy
  cases g <;> rfl

/-- A register write looks at the controller and the pins alone, wherever the host stands in its procedure (R120). -/
theorem wrReg_inside (r : Reg) (v : Word) (o : Origin) (l : List Stmt) (n : Nat) (s : State) :
    wrReg r v (inside o l (onTurn .host n s)) =
      andThen (wrReg r v s) (fun t => .next (inside o l (onTurn .host n t))) := by
  cases r with
  | ctrla =>
    simp only [wrReg]
    split
    · rfl
    · exact inside_of_guarded rfl rfl
  | ctrlb =>
    simp only [wrReg]
    split
    · exact inside_of_guarded rfl rfl
    split
    · exact inside_of_guarded rfl rfl
    split <;> exact inside_of_guarded rfl rfl
  | syncbusy => rfl
  | _ => exact inside_of_guarded rfl rfl

theorem callService_inside (x : Service) (o : Origin) (l : List Stmt) (s : State) :
    callService x (inside o l s) = inside o l (callService x s) := by
  cases x with
  | pin p k => cases p <;> rfl
  | _ => rfl

theorem callService_onTurn (x : Service) (m : Move) (n : Nat) (s : State) :
    callService x (onTurn m n s) = onTurn m n (callService x s) := by
  cases x with
  | pin p k => cases p <;> rfl
  | _ => rfl

theorem call_service {l : List Stmt} (hl : atAccess l = true) (o : Origin) (x : Service) (s : State) :
    call o (.service x :: l) s = .next (inside o l (callService x s)) :=
  call_inside hl rfl (by rw [access, callService_inside])

theorem leads_service {l : List Stmt} (hl : atAccess l = true) (o : Origin) (x : Service) (s : State) :
    Leads [.host] (inside o (.service x :: l) s) (inside o l (callService x s)) :=
  leads_host fun n => by rw [call_service hl, callService_onTurn]; rfl

theorem leads_rmw (o : Origin) (r : Reg) (clr set : Word) (l : List Stmt) (s : State) :
    Leads [.host] (inside o (.rmw r clr set :: l) s) (inside o (.wr r (rmwValue (rdReg r s.ctrl) clr set) :: l) s) :=
  leads_host fun n => call_rmw o r clr set l (onTurn .host n s)

theorem leads_write {r : Reg} {v : Word} {l : List Stmt} {s t : State} (hl : atAccess l = true) (o : Origin)
    (h : wrReg r v s = .next t) : Leads [.host] (inside o (.wr r v :: l) s) (inside o l t) :=
  leads_host fun n => call_inside (t := onTurn .host n t) hl rfl (by rw [access, accessWrite, wrReg_inside, h]; rfl)

/-- A poll whose condition holds. -/
theorem leads_await {r : Reg} {mask : Word} {set : Bool} {l : List Stmt} {s : State} (hl : atAccess l = true)
    (o : Origin) (h : (rdReg r s.ctrl &&& mask != 0#32) = set) :
    Leads [.host] (inside o (.await r mask set :: l) s) (inside o l s) :=
  leads_host fun n => call_inside (t := onTurn .host n s) hl rfl
    (congrArg (fun next => Host.Outcome.next (_, next)) (if_pos h))

theorem leads_awaitSync {l : List Stmt} {e : Event} {s : State} (hl : atAccess l = true) (o : Origin)
    (h : (rdReg .syncbusy s.ctrl &&& eventMask e != 0#32) = false) :
    Leads [.host] (inside o (awaitSync e :: l) s) (inside o l s) := leads_await hl o h

-- the synchronisations, while a procedure waits

theorem leads_agent {m : Move} {s u : State} (hm : m ≠ .host)
    (h : ∀ n, agentMove m (onTurn m n s) = onTurn m n u) : Leads [m] s u := by
  refine leads_move fun n => ?_
  rw [← h n]
  cases m with
  | host => exact absurd rfl hm
  | _ => rfl

/-- What a software reset puts on the trace: `Abort` where a transfer was abandoned (R160). -/
def resetAbort (c : Ctrl) : List BusEvent :=
  if c.busstate = .owner ∨ c.busop ≠ none ∨ c.pend ≠ none then [.abort] else []

theorem fireSwrst_eq (s : State) :
    fireSwrst s = { s with ctrl := Ctrl.reset, trace := s.trace ++ resetAbort s.ctrl } := by
  have abandoned : (s.ctrl.busstate == .owner || s.ctrl.busop.isSome || s.ctrl.pend.isSome) =
      decide (s.ctrl.busstate = .owner ∨ s.ctrl.busop ≠ none ∨ s.ctrl.pend ≠ none) := by
    rw [Bool.eq_iff_iff]
    simp [Option.isSome_iff_ne_none, or_assoc]
  simp only [fireSwrst, abandoned, decide_eq_true_eq, resetAbort]
  split <;> simp [emit]

theorem leads_swrstSync {s : State} (hs : s.ctrl.syncSwrst = true) (hc : s.clk = true) (o : Origin) (l : List Stmt) :
    Leads [.swrstSync] (inside o l s)
      (inside o l { s with ctrl := Ctrl.reset, trace := s.trace ++ resetAbort s.ctrl }) := by
  refine leads_agent nofun fun n => ?_
  have he : enabled .swrstSync (onTurn .swrstSync n (inside o l s)) = true := Bool.and_eq_true_iff.2 ⟨hs, hc⟩
  rw [agentMove, if_pos he, fire, fireSwrst_eq]
  rfl

/-- The ENABLE step where it disables nothing (R161). -/
theorem leads_enableSync {s : State} (hs : s.ctrl.syncEnable = true) (hr : s.ctrl.syncSwrst = false)
    (hc : s.clk = true) (hk : ¬(s.ctrl.en = true ∧ s.ctrl.enable = false)) (o : Origin) (l : List Stmt) :
    Leads [.enableSync] (inside o l s) (inside o l
      { s with ctrl := { s.ctrl with en := s.ctrl.enable, syncEnable := false, busstate := .unknown } }) := by
  refine leads_agent nofun fun n => ?_
  have he : enabled .enableSync (onTurn .enableSync n (inside o l s)) = true := by
    simp [enabled, onTurn, inside, hs, hr, hc]
  rw [agentMove, if_pos he, fire, fireEnable_of_keeps (s := onTurn .enableSync n (inside o l s)) hk]
  rfl

/-- The SYSOP step of a pending force-IDLE (R163). -/
theorem leads_forceIdleSync {s : State} (hp : s.ctrl.pend = some .forceIdle) (hs : s.ctrl.sysop = true)
    (hn : s.ctrl.en = true) (hr : s.ctrl.syncSwrst = false) (hc : s.clk = true) (o : Origin) (l : List Stmt) :
    Leads [.sysopSync] (inside o l s) (inside o l
      { s with ctrl := { s.ctrl with busstate := .idle, ackpend := false, sysop := false, pend := none } }) := by
  refine leads_agent nofun fun n => ?_
  have he : enabled .sysopSync (onTurn .sysopSync n (inside o l s)) = true := by
    simp [enabled, onTurn, inside, hp, hs, hn, hr, hc]
  have pending : (onTurn .sysopSync n (inside o l s)).ctrl.pend = some .forceIdle := hp
  rw [agentMove, if_pos he, fire, fireSysop, pending]
  rfl

-- the parts of `bcc.init` (R200, R201, R204, R206)

/-- The services `bcc.init` calls after the clock is attached (R206). -/
def initServices : List Stmt := [.service .frequency, .service (.pin .sda .i2c), .service (.pin .scl .i2c)]

theorem leads_initServices {l : List Stmt} (hl : atAccess l = true) (o : Origin) (s : State) :
    Leads [.host, .host, .host] (inside o (initServices ++ l) s)
      (inside o l { s with sdaFn := .i2c, sclFn := .i2c, draws := s.draws + 1 }) :=
  (leads_service rfl o .frequency s).append
    ((leads_service rfl o (.pin .sda .i2c) _).append (leads_service hl o (.pin .scl .i2c) _))

theorem leads_reset {l : List Stmt} {s : State} (hl : atAccess l = true) (hc : s.clk = true) (o : Origin) :
    Leads [.host, .swrstSync, .host] (inside o (resetBody ++ l) s)
      (inside o l { s with ctrl := Ctrl.reset, trace := s.trace ++ resetAbort s.ctrl }) := by
  have asked := leads_write (l := awaitSync .swrst :: l) rfl o (wrReg_swrst s)
  have synced := leads_swrstSync (s := { s with ctrl := { s.ctrl with syncSwrst := true } }) rfl hc o
    (awaitSync .swrst :: l)
  exact asked.append (synced.append (leads_awaitSync hl o (poll_syncbusy _ .swrst)))

theorem leads_setMode {l : List Stmt} {s : State} (hl : atAccess l = true) (m : Role) (hs : NoSync s.ctrl)
    (o : Origin) :
    Leads [.host, .host] (inside o (setModeBody m ++ l) s) (inside o l
      { s with ctrl := { s.ctrl with mode := if s.ctrl.en then s.ctrl.mode else roleCode m } }) :=
  (leads_rmw o .ctrla _ _ l s).append (leads_write hl o (wrReg_setMode m hs))

/-- The write with which `bcc.init` sets SMEN (R206). -/
theorem wrReg_setSmart {s : State} (smart : Bool) (hs : NoSync s.ctrl) (hop : s.ctrl.sysop = false)
    (hb : s.ctrl.busop = none) :
    wrReg .ctrlb (rmwValue (rdReg .ctrlb s.ctrl) 0x30100#32 (if smart then 0x100#32 else 0x0#32)) s =
      .next { s with ctrl := { s.ctrl with smen := if s.ctrl.en then s.ctrl.smen else smart } } := by
  obtain ⟨hcmd, hsmen, hack⟩ := rmw_ctrlb_smart s.ctrl smart
  rw [rdReg, wrReg_ctrlb _ s .noop hcmd, execWrCtrlbNoop_eq_next, writeAckPolicy, hsmen, hack]
  exact ⟨⟨hs, hop, hb⟩, rfl⟩

theorem leads_setSmart {l : List Stmt} {s : State} (hl : atAccess l = true) (smart : Bool) (hs : NoSync s.ctrl)
    (hop : s.ctrl.sysop = false) (hb : s.ctrl.busop = none) (o : Origin) :
    Leads [.host, .host]
      (inside o (.rmw .ctrlb 0x30100#32 (if smart then 0x100#32 else 0x0#32) :: l) s)
      (inside o l { s with ctrl := { s.ctrl with smen := if s.ctrl.en then s.ctrl.smen else smart } }) :=
  (leads_rmw o .ctrlb _ _ l s).append (leads_write hl o (wrReg_setSmart smart hs hop hb))

/-- The write with which `bcc.enable` sets ENABLE (R201). -/
theorem wrReg_setEnable {s : State} (hs : NoSync s.ctrl) :
    wrReg .ctrla (rmwValue (rdReg .ctrla s.ctrl) 0x1#32 0x2#32) s =
      .next { s with ctrl := { s.ctrl with enable := true, syncEnable := !s.ctrl.enable } } := by
  have hswrst := rmw_ctrla_swrst s.ctrl 0x1#32 0x2#32 rfl rfl
  rw [rdReg, wrReg_config _ s hswrst, execWrCtrlaConfig_eq_next, configCtrla_enable, hs.enable, Bool.false_or]
  exact ⟨hs, rfl⟩

theorem wrReg_forceIdle_eq_next {s : State} (h : CanStart s) :
    wrReg .status 0x0010#32 s = .next { s with ctrl := { s.ctrl with pend := some .forceIdle, sysop := true } } := by
  rw [wrReg_forceIdle, execWrStatus_eq_next, statusWritten_of_forcesIdle rfl]
  exact ⟨h, rfl⟩

/-- `bcc.enable`'s force-IDLE: the bus ends IDLE (R163, R201). -/
theorem leads_forceIdle {l : List Stmt} {s : State} (hl : atAccess l = true) (h : CanStart s) (hc : s.clk = true)
    (o : Origin) :
    Leads [.host, .sysopSync, .host] (inside o (.wr .status 0x0010#32 :: awaitSync .sysop :: l) s) (inside o l
      { s with ctrl := { s.ctrl with busstate := .idle, ackpend := false, sysop := false, pend := none } }) := by
  have asked := leads_write (l := awaitSync .sysop :: l) rfl o (wrReg_forceIdle_eq_next h)
  have synced := leads_forceIdleSync (s := { s with ctrl := { s.ctrl with pend := some .forceIdle, sysop := true } })
    rfl rfl h.en h.sync.swrst hc o (awaitSync .sysop :: l)
  exact asked.append (synced.append (leads_awaitSync hl o (poll_syncbusy _ .sysop)))

/-- `bcc.enable`'s write and its synchronisation, of a disabled controller: the effective enable follows (R161, R201). -/
theorem leads_setEnable {l : List Stmt} {s : State} (hl : atAccess l = true) (hs : NoSync s.ctrl) (hc : s.clk = true)
    (he : s.ctrl.enable = false) (o : Origin) :
    Leads [.host, .host, .enableSync, .host] (inside o (.rmw .ctrla 0x1#32 0x2#32 :: awaitSync .enable :: l) s)
      (inside o l { s with ctrl :=
        { s.ctrl with enable := true, en := true, syncEnable := false, busstate := .unknown } }) := by
  have asked := leads_write (l := awaitSync .enable :: l) rfl o (wrReg_setEnable hs)
  have synced := leads_enableSync (s := { s with ctrl := { s.ctrl with enable := true, syncEnable := !s.ctrl.enable } })
    (by simp [he]) hs.swrst hc nofun o (awaitSync .enable :: l)
  exact (leads_rmw o .ctrla _ _ _ s).append
    (asked.append (synced.append (leads_awaitSync hl o (poll_syncbusy _ .enable))))

/-- The state `bcc.init` has reached once the services are called and the controller is reset: what the reset abandons is
on the trace, and only the controller is still to change (R206). -/
def initReached (c : Ctrl) (s : State) : State :=
  { s with
    ctrl := c, sdaFn := .i2c, sclFn := .i2c, draws := s.draws + 1
    trace := s.trace ++ resetAbort s.ctrl }

/-- The controller as `bcc.init` leaves it (R206). -/
def initCtrl (smart : Bool) : Ctrl :=
  { Ctrl.reset with enable := true, en := true, mode := modeController, smen := smart, busstate := .idle }

/-- What `bcc.init` does once the controller is reset: the role, the smart policy and `bcc.enable` (R206). -/
def initTail (smart : Bool) : List Stmt :=
  setModeBody .controller ++ .rmw .ctrlb 0x30100#32 (if smart then 0x100#32 else 0x0#32) :: enableBody

/-- From the reset controller to the one that `bcc.init` leaves. -/
theorem leads_initTail (o : Origin) (smart : Bool) {s : State} (hc : s.clk = true) :
    Leads [.host, .host, .host, .host, .host, .host, .enableSync, .host, .host, .sysopSync, .host]
      (inside o (initTail smart) (initReached Ctrl.reset s)) (inside o [] (initReached (initCtrl smart) s)) := by
  have setMode := leads_setMode
    (l := .rmw .ctrlb 0x30100#32 (if smart then 0x100#32 else 0x0#32) :: enableBody)
    (s := initReached Ctrl.reset s) rfl .controller ⟨rfl, rfl⟩ o
  have setSmart := leads_setSmart (l := enableBody)
    (s := initReached { Ctrl.reset with mode := modeController } s) rfl smart ⟨rfl, rfl⟩ rfl rfl o
  have setEnable := leads_setEnable (l := [.wr .status 0x0010#32, awaitSync .sysop])
    (s := initReached { Ctrl.reset with mode := modeController, smen := smart } s) rfl ⟨rfl, rfl⟩ hc rfl o
  have forceIdle := leads_forceIdle (l := [])
    (s := initReached { Ctrl.reset with mode := modeController, smen := smart, enable := true, en := true } s)
    rfl ⟨⟨rfl, rfl⟩, rfl, rfl, rfl, rfl, rfl, rfl⟩ hc o
  exact setMode.append (setSmart.append (setEnable.append forceIdle))

theorem initBody_eq (smart : Bool) :
    initBody smart = .service .attach :: (initServices ++ (resetBody ++ initTail smart)) := rfl

theorem exec_bccInit (s : State) :
    exec .bccInit s = .next (inside (.instr .bccInit) (initServices ++ (resetBody ++ initTail s.cfg.smart))
      { s with clk := true }) := by
  rw [exec, execBccInit, initBody_eq, call_service rfl]
  rfl

/-- The registers after `bcc.init` (R335). -/
theorem rdReg_initCtrl (smart : Bool) :
    rdReg .ctrla (initCtrl smart) = 0x16#32 ∧
    rdReg .ctrlb (initCtrl smart) = (if smart then 0x100#32 else 0x0#32) ∧
    rdReg .intflag (initCtrl smart) = 0x0#32 ∧ rdReg .status (initCtrl smart) = 0x10#32 ∧
    rdReg .syncbusy (initCtrl smart) = 0x0#32 ∧ rdReg .addr (initCtrl smart) = 0x0#32 ∧
    rdReg .data (initCtrl smart) = 0x0#32 := by
  cases smart <;> decide

-- the obligations

/-- Settles O39: the first host step attaches the clock, the other services are called, and from the reset controller on
(`leads_initTail`) nothing depends on the state `bcc.init` was called in. -/
theorem bccInitCompletesFromAnyState : Obligations.BccInitCompletesFromAnyState := by
  intro s
  have services := leads_initServices (l := resetBody ++ initTail s.cfg.smart) rfl (.instr .bccInit)
    { s with clk := true }
  have reset := leads_reset (l := initTail s.cfg.smart)
    (s := { s with clk := true, sdaFn := .i2c, sclFn := .i2c, draws := s.draws + 1 }) rfl rfl (.instr .bccInit)
  have rest := leads_initTail (s := { s with clk := true }) (.instr .bccInit) s.cfg.smart rfl
  exact ⟨(services.append (reset.append rest)).completes (exec_bccInit s), rdReg_initCtrl s.cfg.smart⟩

end Sys2Proof.Proofs
end

section
/-! The engine (spec/43_primary_engine.md): the status of a phase (R222, R223, R302), `eng.recv_data_sync` (R224) and the
acknowledge policy (R227, R229). -/

namespace Sys2Proof.Proofs

open Sys2Proof.Machine Sys2Proof.Safety

-- a procedure that returns its status (R31, R302)

/-- The state in which a procedure has returned this status to the host program. -/
def statusReturned (st : TStatus) (s : State) : State :=
  { s with status := some st, results := s.results ++ [.status st], running := none }

/-- A status and the return behind it are taken with the access before them (log entry 2). -/
theorem leave_setStatus_return (st : TStatus) (n : Nat) (rest : List Stmt) (s : State) :
    leave (.setStatus st :: .retCount .status n :: rest) s = statusReturned st s := rfl

/-- A stored byte, a status and the return are taken with the access before them (log entry 2). -/
theorem leave_store_return (out k : Nat) (b : Byte) (st : TStatus) (n : Nat) (rest : List Stmt) (s : State) :
    leave (.store (.mem out) k b :: .setStatus st :: .retCount .status n :: rest) s =
      statusReturned st { s with mem := memPut s.mem (out + k) b } := rfl

/-- The host step that reads STATUS for a phase sets its status, BUSERR before RXNACK (R302). -/
theorem access_phase (o : Origin) (nack : TStatus) (s : State) :
    access o (.phase nack) s = .next (s,
      [.setStatus (if s.ctrl.buserr then .other else if s.ctrl.rxnack then nack else .success)]) := by
  rw [access, phaseStatus_rdReg]

-- a first host step that only reads (R8)

/-- A call whose first access changes nothing leaves the statements put in its place, and the rest. -/
theorem call_read {o : Origin} {st : Stmt} {l l' : List Stmt} {s : State} (hp : isPure st = false)
    (h : access o st (inside o (st :: l) s) = .next (inside o (st :: l) s, l')) :
    call o (st :: l) s = .next (leave (l' ++ l) (inside o (st :: l) s)) := by
  rw [call_access hp]
  exact congrArg (andThen · _) h

-- receiving a byte (R224)

/-- A call that begins with a poll whose condition holds. -/
theorem call_await_met {r : Reg} {mask : Word} {set : Bool} {l : List Stmt} {s : State} (hl : atAccess l = true)
    (o : Origin) (h : (rdReg r s.ctrl &&& mask != 0#32) = set) :
    call o (.await r mask set :: l) s = .next (inside o l s) :=
  call_inside hl rfl (congrArg (fun next => Host.Outcome.next (_, next)) (if_pos h))

theorem access_recvCheck {s : State} (o : Origin) (ret : Ret) (k : Nat) (h : s.ctrl.buserr = false) :
    access o (.recvCheck ret k) s = .next (s, []) := by
  rw [access, rdReg_status_buserr, if_neg (ne_true_of_eq_false h)]

theorem access_recvCheck_busError {s : State} (o : Origin) (ret : Ret) (k : Nat) (h : s.ctrl.buserr = true) :
    access o (.recvCheck ret k) s = .next (s, [.setStatus .other, .retCount ret k]) := by
  rw [access, rdReg_status_buserr, if_pos h]

theorem access_recvByte (o : Origin) (dst : Dst) (k : Nat) (s : State) :
    access o (.recvByte dst k) s = .next (s, [.store dst k s.ctrl.data, .setStatus .success]) := by
  rw [access, rdReg_data_byte]

theorem leads_recvCheck {l : List Stmt} {s : State} (hl : atAccess l = true) (o : Origin) (ret : Ret) (k : Nat)
    (h : s.ctrl.buserr = false) : Leads [.host] (inside o (.recvCheck ret k :: l) s) (inside o l s) :=
  leads_host fun n => call_inside (t := onTurn .host n s) hl rfl (access_recvCheck o ret k h)

/-- After a bus error the check returns OTHER, whatever stands behind it. -/
theorem leads_recvCheck_busError {s : State} (o : Origin) (k : Nat) (l : List Stmt) (h : s.ctrl.buserr = true) :
    Leads [.host] (inside o (.recvCheck .status k :: l) s) (statusReturned .other s) :=
  leads_host fun n =>
    (call_read (s := onTurn .host n s) rfl (access_recvCheck_busError o .status k h)).trans
      (congrArg Host.Outcome.next (leave_setStatus_return .other k l _))

/-- The byte in DATA is stored, and the procedure returns SUCCESS. -/
theorem leads_recvByte_return (o : Origin) (out k n : Nat) (s : State) :
    Leads [.host] (inside o [.recvByte (.mem out) k, .retCount .status n] s)
      (statusReturned .success { s with mem := memPut s.mem (out + k) s.ctrl.data }) :=
  leads_host fun _ =>
    (call_read rfl (access_recvByte o (.mem out) k _)).trans
      (congrArg Host.Outcome.next (leave_store_return out k s.ctrl.data .success n [] _))

theorem exec_engRecvDataSync {s : State} (out : Nat) (h : s.ctrl.sb = true) :
    exec (.engRecvDataSync out) s = .next (inside (.instr (.engRecvDataSync out))
      [.recvCheck .status 0, .recvByte (.mem out) 0, .retCount .status 0] s) := by
  have flag : (rdReg .intflag s.ctrl &&& readyMask .sb != 0#32) = true := (poll_intflag s.ctrl .sb).trans h
  exact call_await_met rfl _ flag

-- the acknowledge policy (R227, R229)

/-- In smart mode the procedure is over without a write. -/
theorem call_ackPolicy_smart {s : State} (o : Origin) (nack : Bool) (h : s.cfg.smart = true) :
    call o [.ackPolicy nack] s = .next { s with running := none } :=
  call_inside rfl rfl (congrArg (fun next => Host.Outcome.next (_, next)) (if_pos h))

/-- The CTRLB write that the acknowledge policy `nack` makes of the value it reads. -/
def ackPolicyWrite (nack : Bool) (c : Ctrl) : Stmt :=
  .wr .ctrlb (rmwValue (rdReg .ctrlb c) (if nack then 0x30000#32 else 0x70000#32) (if nack then 0x40000#32 else 0#32))

/-- Outside smart mode the call's first host step reads CTRLB and leaves the write. -/
theorem call_ackPolicy {s : State} (o : Origin) (nack : Bool) (h : s.cfg.smart = false) :
    call o [.ackPolicy nack] s = .next (inside o [ackPolicyWrite nack s.ctrl] s) := by
  have read : access o (.ackPolicy nack) (inside o [.ackPolicy nack] s) =
      .next (inside o [.ackPolicy nack] s, [ackPolicyWrite nack s.ctrl]) :=
    congrArg (fun next => Host.Outcome.next (_, next)) (if_neg (ne_true_of_eq_false h))
  exact (call_read rfl read).trans (congrArg Host.Outcome.next (leave_access rfl [] _))

/-- The write sets ACKACT and keeps SMEN (R132). -/
theorem wrReg_setAck {s : State} (nack : Bool) (hs : NoSync s.ctrl) (hop : s.ctrl.sysop = false)
    (hb : s.ctrl.busop = none) :
    wrReg .ctrlb (rmwValue (rdReg .ctrlb s.ctrl) (if nack then 0x30000#32 else 0x70000#32)
        (if nack then 0x40000#32 else 0#32)) s =
      .next { s with ctrl := { s.ctrl with ackact := ackOfBit nack } } := by
  obtain ⟨hcmd, hsmen, hack⟩ := rmw_ctrlb_ack s.ctrl nack
  rw [rdReg, wrReg_ctrlb _ s .noop hcmd, execWrCtrlbNoop_eq_next, writeAckPolicy, hsmen, hack, ite_self]
  exact ⟨⟨hs, hop, hb⟩, rfl⟩

/-- An instruction that is the acknowledge policy alone completes with the write after its read. -/
theorem completes_ackPolicy {i : Instr} {nack : Bool} {s : State}
    (hi : exec i s = call (.instr i) [.ackPolicy nack] s) (hsmart : s.cfg.smart = false) (hs : NoSync s.ctrl)
    (hop : s.ctrl.sysop = false) (hb : s.ctrl.busop = none) :
    Completes i [.host] s { s with ctrl := { s.ctrl with ackact := ackOfBit nack }, running := none } :=
  (leads_write (l := []) rfl (.instr i) (wrReg_setAck nack hs hop hb)).completes
    (hi.trans (call_ackPolicy (.instr i) nack hsmart))

-- the obligations

/-- Settles O43: the poll ends at once; the next host step checks BUSERR, and returns OTHER or leaves the read of DATA,
which returns SUCCESS. -/
theorem recvDataSyncCompletes : Obligations.RecvDataSyncCompletes := by
  intro s out hsb
  have start := exec_engRecvDataSync out hsb
  refine ⟨fun hok => ?_, fun herr => ?_⟩
  · have checked := leads_recvCheck (l := [.recvByte (.mem out) 0, .retCount .status 0]) rfl
      (.instr (.engRecvDataSync out)) .status 0 hok
    exact (checked.append (leads_recvByte_return _ out 0 0 s)).completes start
  · exact (leads_recvCheck_busError _ 0 _ herr).completes start

/-- Settles O46: smart mode makes no write; outside it the read of CTRLB and its write set ACKACT
(`completes_ackPolicy`). -/
theorem ackPolicyCompletes : Obligations.AckPolicyCompletes := fun _ =>
  ⟨fun hsmart => ⟨call_ackPolicy_smart _ false hsmart, call_ackPolicy_smart _ true hsmart⟩,
    fun hsmart hs hop hb =>
      ⟨completes_ackPolicy (nack := false) rfl hsmart hs hop hb,
        completes_ackPolicy (nack := true) rfl hsmart hs hop hb⟩⟩

/-- Settles O47: the step's access reads STATUS (`access_phase`), and the status it sets is returned with it. -/
theorem busErrorComesBeforeNack : Obligations.BusErrorComesBeforeNack := by
  intro s o nack ht hr st
  rw [step_running ht hr rfl, access_phase, andThen_next_left, List.singleton_append, leave_setStatus_return,
    advance_eq]
  rfl

end Sys2Proof.Proofs
end

section
/-! The register-field accessor (spec/45_register_accessor.md): the layout procedures and their laws (R271 to R275), the
numbers and values of a field (R280 to R282) and the round trip between them (R283). -/

namespace Sys2Proof.Proofs

open Sys2Proof.Machine Sys2Proof.Safety

-- offsets, sizes and references (R272 to R274)

theorem offsetOf_eq_sum (m : RMap) (n : Nat) : offsetOf m n = ((m.take n).map Field.size).sum := by
  induction m generalizing n with
  | nil => cases n <;> simp [offsetOf]
  | cons f m ih => cases n <;> simp [offsetOf, ih]

theorem totalSize_eq_sum (m : RMap) : totalSize m = (m.map Field.size).sum := by
  induction m with
  | nil => rfl
  | cons f m ih => simp [totalSize, ih]

theorem fieldIndex_eq_findIdx? (x : Ident) (m : RMap) : fieldIndex x m = m.findIdx? (fun f => f.name = some x) := by
  induction m with
  | nil => rfl
  | cons f m ih => simp [fieldIndex, List.findIdx?_cons, ih]

/-- A reference names a field by its index, or by its name where no earlier field bears it. -/
theorem resolve_eq_some {m : RMap} {r : FieldRef} {n : Nat} {f : Field} (hf : m[n]? = some f)
    (hr : r = .idx n ∨ ∃ x, r = .name x ∧ f.name = some x ∧ ∀ g ∈ m.take n, g.name ≠ some x) :
    resolve m r = some n := by
  obtain ⟨hn, rfl⟩ := List.getElem?_eq_some_iff.1 hf
  rcases hr with rfl | ⟨x, rfl, hname, hfirst⟩
  · exact if_pos hn
  · rw [resolve, fieldIndex_eq_findIdx?, List.findIdx?_eq_some_iff_getElem]
    refine ⟨hn, decide_eq_true hname, fun j hj => ?_⟩
    have earlier : m[j] ∈ m.take n := List.mem_take_iff_getElem.2 ⟨j, by omega, rfl⟩
    simpa using hfirst _ earlier

theorem resolve_eq_none {m : RMap} {r : FieldRef}
    (hr : (∃ n, r = .idx n ∧ m.length ≤ n) ∨ ∃ x, r = .name x ∧ ∀ g ∈ m, g.name ≠ some x) : resolve m r = none := by
  rcases hr with ⟨n, rfl, hn⟩ | ⟨x, rfl, hx⟩
  · exact if_neg (Nat.not_lt.2 hn)
  · rw [resolve, fieldIndex_eq_findIdx?, List.findIdx?_eq_none_iff]
    exact fun g hg => decide_eq_false (hx g hg)

theorem exec_rfaOffset {s : State} {r : FieldRef} {n : Nat} (h : resolve s.cfg.map r = some n) :
    exec (.rfaOffset r) s =
      .next { s with results := s.results ++ [.nat ((s.cfg.map.take n).map Field.size).sum] } := by
  rw [← offsetOf_eq_sum]
  simp only [exec, execRfaOffset, h]
  rfl

theorem exec_rfaSize {s : State} {r : FieldRef} {n : Nat} {f : Field} (h : resolve s.cfg.map r = some n)
    (hf : s.cfg.map[n]? = some f) :
    exec (.rfaSize r) s = .next { s with results := s.results ++ [.nat f.size] } := by
  simp only [exec, execRfaSize, resolveField, h, hf]
  rfl

theorem exec_rfaOffset_unknown {s : State} {r : FieldRef} (h : resolve s.cfg.map r = none) :
    exec (.rfaOffset r) s = .fault (.unknownField (.instr (.rfaOffset r))) := by
  simp only [exec, execRfaOffset, h]

theorem exec_rfaSize_unknown {s : State} {r : FieldRef} (h : resolve s.cfg.map r = none) :
    exec (.rfaSize r) s = .fault (.unknownField (.instr (.rfaSize r))) := by
  simp only [exec, execRfaSize, resolveField, h]

theorem exec_rfaTotalSize (m : RMap) (s : State) :
    exec (.rfaTotalSize m) s = .next { s with results := s.results ++ [.nat (m.map Field.size).sum] } := by
  rw [← totalSize_eq_sum]
  rfl

-- the layout check (R271)

theorem distinct_eq_true {α : Type} [DecidableEq α] {l : List α} : distinct l = true ↔ l.Nodup := by
  induction l with
  | nil => simp [distinct]
  | cons x l ih => simp [distinct, ih]

/-- Two sub-fields share no bit (condition 6). -/
def Apart (x y : SubField) : Prop := x.bitoff + x.width ≤ y.bitoff ∨ y.bitoff + y.width ≤ x.bitoff

theorem noOverlap_eq_true {l : List SubField} : noOverlap l = true ↔ l.Pairwise Apart := by
  induction l with
  | nil => simp [noOverlap]
  | cons s l ih => simp [noOverlap, disjointSubs, Apart, ih]

theorem inRange_eq_true {s : SubField} {v : Int} : inRange s v = true ↔ InRange s v := by
  cases h : s.kind <;> simp [inRange, InRange, h]

theorem subOk_eq_true {size : Nat} {s : SubField} : subOk size s = true ↔ SubWellFormed size s := by
  have parts : subOk size s = true ↔
      1 ≤ s.width ∧ s.bitoff + s.width ≤ 8 * size ∧ kindOk s = true ∧ dfltOk s = true := by
    simp [subOk, and_assoc]
  have fields : SubWellFormed size s ↔ 1 ≤ s.width ∧ s.bitoff + s.width ≤ 8 * size ∧
      ((s.kind = .flag → s.width = 1) ∧ (s.kind = .signed → 2 ≤ s.width) ∧
        ∀ cs, s.kind = .enum cs → (cs.map Prod.fst).Nodup ∧ ∀ c ∈ cs, c.1 < 2 ^ s.width) ∧
      ((∀ cs, s.kind ≠ .enum cs) → InRange s s.dflt) ∧ ∀ cs, s.kind = .enum cs → 0 ≤ s.dflt ∧ s.dflt < 2 ^ s.width :=
    ⟨fun ⟨hw, hp, hf, hs, hc, hd, he⟩ => ⟨hw, hp, ⟨hf, hs, hc⟩, hd, he⟩,
      fun ⟨hw, hp, ⟨hf, hs, hc⟩, hd, he⟩ => ⟨hw, hp, hf, hs, hc, hd, he⟩⟩
  rw [parts, fields]
  cases h : s.kind <;> simp [kindOk, dfltOk, h, distinct_eq_true, inRange_eq_true]

theorem fieldOk_eq_true {f : Field} : fieldOk f = true ↔ FieldWellFormed f := by
  simp only [fieldOk, Bool.and_eq_true, decide_eq_true_iff, distinct_eq_true, List.all_eq_true, subOk_eq_true,
    noOverlap_eq_true]
  exact ⟨fun ⟨⟨⟨hz, hn⟩, hs⟩, hd⟩ => ⟨hz, hn, hs, hd⟩, fun ⟨hz, hn, hs, hd⟩ => ⟨⟨⟨hz, hn⟩, hs⟩, hd⟩⟩

theorem mapOk_eq_true {m : RMap} : mapOk m = true ↔ MapWellFormed m := by
  simp only [mapOk, Bool.and_eq_true, decide_eq_true_iff, distinct_eq_true, List.all_eq_true, fieldOk_eq_true,
    totalSize_eq_sum]
  exact ⟨fun ⟨⟨hf, ht⟩, hn⟩ => ⟨ht, hn, hf⟩, fun ⟨ht, hn, hf⟩ => ⟨⟨hf, ht⟩, hn⟩⟩

theorem exec_rfaLayoutCheck {m : RMap} (h : MapWellFormed m) (s : State) :
    exec (.rfaLayoutCheck m) s = .next { s with results := s.results ++ [.ok] } :=
  if_pos (mapOk_eq_true.2 h)

theorem exec_rfaLayoutCheck_ill {m : RMap} (h : ¬MapWellFormed m) (s : State) :
    exec (.rfaLayoutCheck m) s = .fault (.mapIllFormed (.instr (.rfaLayoutCheck m))) :=
  if_neg (mt mapOk_eq_true.1 h)

-- the sizes before a field (R275)

theorem sum_sizes_take_succ {m : RMap} {n : Nat} {f : Field} (h : m[n]? = some f) :
    ((m.take (n + 1)).map Field.size).sum = ((m.take n).map Field.size).sum + f.size := by
  simp [List.take_add_one, h]

theorem sum_sizes_take_mono {m : RMap} {n k : Nat} (h : n ≤ k) :
    ((m.take n).map Field.size).sum ≤ ((m.take k).map Field.size).sum := by
  have split : m.take k = m.take n ++ (m.take k).drop n := by
    rw [← Nat.min_eq_left h, ← List.take_take, Nat.min_eq_left h, List.take_append_drop]
  rw [split, List.map_append, List.sum_append_nat]
  exact Nat.le_add_right _ _

-- the number of a field's bytes (R280)

theorem bytesVal_eq_fieldNumber (bs : List Byte) : bytesVal bs = fieldNumber bs := by
  induction bs with
  | nil => rfl
  | cons b bs ih => rw [bytesVal, ih]; rfl

theorem length_valBytes (v n : Nat) : (valBytes v n).length = n := by
  induction n generalizing v with
  | zero => rfl
  | succ n ih => rw [valBytes, List.length_cons, ih]

/-- The low bytes of a number make it, cut to their bits. -/
theorem fieldNumber_valBytes (v n : Nat) : fieldNumber (valBytes v n) = v % 2 ^ (8 * n) := by
  induction n generalizing v with
  | zero => exact (Nat.mod_one v).symm
  | succ n ih =>
    calc fieldNumber (valBytes v (n + 1))
        = v % 2 ^ 8 + 2 ^ 8 * (v / 2 ^ 8 % 2 ^ (8 * n)) := by rw [← ih]; rfl
      _ = v % 2 ^ (8 * (n + 1)) := by rw [← Nat.mod_mul, ← Nat.pow_add, Nat.mul_succ, Nat.add_comm]

-- the bits of one sub-field (R280)

theorem testBit_subBits (x : SubField) (n i : Nat) :
    (subBits x n).testBit i = (decide (i < x.width) && n.testBit (x.bitoff + i)) := by
  rw [subBits, Nat.testBit_mod_two_pow, Nat.testBit_shiftRight]

theorem subBits_lt (x : SubField) (n : Nat) : subBits x n < 2 ^ x.width := Nat.mod_lt _ (Nat.two_pow_pos _)

theorem subBits_congr {x : SubField} {m n : Nat}
    (h : ∀ i, x.bitoff ≤ i → i < x.bitoff + x.width → m.testBit i = n.testBit i) : subBits x m = subBits x n := by
  refine Nat.eq_of_testBit_eq fun i => ?_
  rw [testBit_subBits, testBit_subBits]
  by_cases hi : i < x.width
  · rw [h (x.bitoff + i) (by omega) (by omega)]
  · simp [hi]

theorem toNat_emod (x : SubField) (v : Int) : ((v % 2 ^ x.width).toNat : Int) = v % 2 ^ x.width :=
  Int.toNat_of_nonneg (Int.emod_nonneg v (Int.pow_ne_zero (by decide)))

theorem toNat_emod_lt (x : SubField) (v : Int) : (v % 2 ^ x.width).toNat < 2 ^ x.width := by
  have hlt : v % 2 ^ x.width < 2 ^ x.width := Int.emod_lt_of_pos v (Int.pow_pos (by decide))
  rw [← toNat_emod] at hlt
  exact_mod_cast hlt

/-- A value is placed in the bits of its sub-field. -/
theorem subBits_placeSub (x : SubField) (v : Int) : subBits x (placeSub x v) = (v % 2 ^ x.width).toNat := by
  rw [subBits, placeSub, Nat.shiftLeft_shiftRight, Nat.mod_eq_of_lt (toNat_emod_lt x v)]

/-- A value is placed in no bit outside its sub-field. -/
theorem covers_of_testBit_placeSub {x : SubField} {v : Int} {i : Nat} (h : (placeSub x v).testBit i = true) :
    x.bitoff ≤ i ∧ i < x.bitoff + x.width := by
  rw [placeSub, Nat.testBit_shiftLeft, Bool.and_eq_true, decide_eq_true_iff] at h
  obtain ⟨hlo, hbit⟩ := h
  have hhi : i - x.bitoff < x.width :=
    (Nat.pow_lt_pow_iff_right (by decide : 1 < 2)).1
      (Nat.lt_of_le_of_lt (Nat.ge_two_pow_of_testBit hbit) (toNat_emod_lt x v))
  omega

-- the value of one sub-field (R281, R282)

theorem decodeSub_of_not_signed {x : SubField} (h : x.kind ≠ .signed) (u : Nat) : decodeSub x u = u := by
  unfold decodeSub
  cases hk : x.kind with
  | unsigned => rfl
  | flag => rfl
  | enum cs => rfl
  | signed => exact absurd hk h

theorem decodeSub_of_signed {x : SubField} (h : x.kind = .signed) (u : Nat) :
    decodeSub x u = if (u : Int) < 2 ^ (x.width - 1) then (u : Int) else (u : Int) - 2 ^ x.width := by
  have cast : (u : Int) < 2 ^ (x.width - 1) ↔ u < 2 ^ (x.width - 1) := by exact_mod_cast Iff.rfl
  simp only [decodeSub, h, cast]

theorem decodeSub_subBits (x : SubField) (n : Nat) : decodeSub x (subBits x n) = subValue x n := by
  have bits : n / 2 ^ x.bitoff % 2 ^ x.width = subBits x n := by rw [subBits, Nat.shiftRight_eq_div_pow]
  by_cases h : x.kind = .signed
  · simp only [subValue, bits, decodeSub, h, true_and, ← Nat.not_lt, ite_not]
  · simp only [subValue, bits, decodeSub_of_not_signed h, h, false_and, if_false]

theorem subValue_congr {x : SubField} {m n : Nat}
    (h : ∀ i, x.bitoff ≤ i → i < x.bitoff + x.width → m.testBit i = n.testBit i) : subValue x m = subValue x n := by
  rw [← decodeSub_subBits, ← decodeSub_subBits, subBits_congr h]

/-- Encoding a decoded pattern gives the pattern back. -/
theorem decodeSub_emod {x : SubField} {u : Nat} (h : u < 2 ^ x.width) : (decodeSub x u % 2 ^ x.width).toNat = u := by
  have pattern : (u : Int) % 2 ^ x.width = u := Int.emod_eq_of_lt (by omega) (by exact_mod_cast h)
  by_cases hk : x.kind = .signed
  · rw [decodeSub_of_signed hk]
    split
    · rw [pattern, Int.toNat_natCast]
    · rw [Int.sub_emod_right, pattern, Int.toNat_natCast]
  · rw [decodeSub_of_not_signed hk, pattern, Int.toNat_natCast]

theorem inRange_signed {x : SubField} (hk : x.kind = .signed) {v : Int} :
    InRange x v ↔ -(2 ^ (x.width - 1)) ≤ v ∧ v < 2 ^ (x.width - 1) := by
  simp only [InRange, hk]

section WellFormed

variable {size : Nat} {x : SubField} (wf : SubWellFormed size x)
include wf

/-- A sub-field has as many patterns with its top bit set as without. -/
theorem two_pow_width : (2 : Int) ^ x.width = 2 * 2 ^ (x.width - 1) :=
  (congrArg (2 ^ ·) (Nat.sub_add_cancel wf.width)).symm.trans (Int.pow_succ' 2 (x.width - 1))

/-- In a kind without a sign every value in range is a pattern of the width. -/
theorem pattern_of_inRange (hk : x.kind ≠ .signed) {v : Int} (h : InRange x v) : 0 ≤ v ∧ v < 2 ^ x.width := by
  unfold InRange at h
  cases hx : x.kind with
  | unsigned => rwa [hx] at h
  | flag =>
    rw [hx] at h
    rw [wf.flag hx]
    change v = 0 ∨ v = 1 at h
    omega
  | enum cs =>
    rw [hx] at h
    obtain ⟨c, hc, rfl⟩ := h
    exact ⟨Int.natCast_nonneg _, by exact_mod_cast (wf.codes cs hx).2 c hc⟩
  | signed => exact absurd hx hk

/-- Decoding an encoded value in range gives the value back. -/
theorem decodeSub_encoded {v : Int} (h : InRange x v) : decodeSub x (v % 2 ^ x.width).toNat = v := by
  by_cases hk : x.kind = .signed
  · have half := two_pow_width wf
    obtain ⟨hlo, hhi⟩ := (inRange_signed hk).1 h
    rw [decodeSub_of_signed hk, toNat_emod]
    by_cases hv : 0 ≤ v
    · rw [Int.emod_eq_of_lt hv (by omega), if_pos hhi]
    · rw [← Int.add_emod_right, Int.emod_eq_of_lt (by omega) (by omega), if_neg (by omega), Int.add_sub_cancel]
  · obtain ⟨hlo, hhi⟩ := pattern_of_inRange wf hk h
    rw [decodeSub_of_not_signed hk, toNat_emod, Int.emod_eq_of_lt hlo hhi]

/-- A pattern decodes to a value in range, unless it is a code an enumeration does not list. -/
theorem inRange_decodeSub {u : Nat} (h : u < 2 ^ x.width)
    (listed : ∀ cs, x.kind = .enum cs → ∃ c ∈ cs, (c.1 : Int) = decodeSub x u) : InRange x (decodeSub x u) := by
  have fits : (u : Int) < 2 ^ x.width := by exact_mod_cast h
  by_cases hk : x.kind = .signed
  · have half := two_pow_width wf
    rw [inRange_signed hk, decodeSub_of_signed hk]
    split <;> omega
  · rw [decodeSub_of_not_signed hk] at listed ⊢
    unfold InRange
    cases hx : x.kind with
    | unsigned => exact ⟨Int.natCast_nonneg u, fits⟩
    | flag =>
      rw [wf.flag hx] at fits
      change (u : Int) = 0 ∨ (u : Int) = 1
      omega
    | enum cs => exact listed cs hx
    | signed => exact absurd hx hk

theorem subValue_placeSub {v : Int} (h : InRange x v) : subValue x (placeSub x v) = v := by
  rw [← decodeSub_subBits, subBits_placeSub, decodeSub_encoded wf h]

end WellFormed

/-- Placing the value of a sub-field gives its bits back. -/
theorem testBit_placeSub_subValue (x : SubField) (n i : Nat) : (placeSub x (subValue x n)).testBit i =
    (n.testBit i && decide (x.bitoff ≤ i ∧ i < x.bitoff + x.width)) := by
  rw [placeSub, ← decodeSub_subBits, decodeSub_emod (subBits_lt x n), Nat.testBit_shiftLeft, testBit_subBits]
  by_cases hi : x.bitoff ≤ i
  · have width : i - x.bitoff < x.width ↔ i < x.bitoff + x.width := by omega
    simp [hi, Nat.add_sub_cancel' hi, width, Bool.and_comm]
  · simp [hi]

-- unpacking a field (R281)

theorem exec_rfaUnpack_fieldBytes (f : Field) (bs : List Byte) (s : State) :
    exec (.rfaUnpack f bs) s = .next { s with
      results := s.results ++ [.values (f.allSubs.map (fun x => subValue x (fieldNumber (fieldBytes f bs))))] } := by
  simp only [← decodeSub_subBits, ← bytesVal_eq_fieldNumber]
  rfl

theorem exec_rfaUnpack {f : Field} {bs : List Byte} (h : f.size ≤ bs.length) (s : State) :
    exec (.rfaUnpack f bs) s = .next { s with
      results := s.results ++ [.values (f.allSubs.map (fun x => subValue x (fieldNumber bs)))] } := by
  rw [exec_rfaUnpack_fieldBytes, fieldBytes_of_le h]

-- packing a field (R282)

/-- The number that the entries of a list make. -/
def entriesNumber (ps : List (SubField × Option Int)) : Nat :=
  ps.foldr (fun p n => placeSub p.1 (p.2.getD p.1.dflt) ||| n) 0

theorem packVal_of_inRange {ss : List SubField} {es : List (Option Int)}
    (h : ∀ p ∈ ss.zip es, InRange p.1 (p.2.getD p.1.dflt)) : packVal ss es = some (entriesNumber (ss.zip es)) := by
  induction ss generalizing es with
  | nil => rfl
  | cons x ss ih =>
    cases es with
    | nil => rfl
    | cons e es =>
      rw [List.zip_cons_cons, List.forall_mem_cons] at h
      obtain ⟨here, rest⟩ := h
      rw [packVal, if_pos (inRange_eq_true.2 here), ih rest]
      rfl

theorem packVal_out_of_range {ss : List SubField} {es : List (Option Int)}
    (h : ¬∀ p ∈ ss.zip es, InRange p.1 (p.2.getD p.1.dflt)) : packVal ss es = none := by
  induction ss generalizing es with
  | nil => simp at h
  | cons x ss ih =>
    cases es with
    | nil => simp at h
    | cons e es =>
      rw [List.zip_cons_cons, List.forall_mem_cons, not_and] at h
      by_cases here : InRange x (e.getD x.dflt)
      · rw [packVal, ih (h here), Option.map_none, ite_self]
      · rw [packVal, if_neg (mt inRange_eq_true.1 here)]

/-- The entries make the same number from the last to the first as from the first to the last. -/
theorem foldl_or_eq_entriesNumber (ps : List (SubField × Option Int)) (n : Nat) :
    ps.foldl (fun v p => v ||| placeSub p.1 (p.2.getD p.1.dflt)) n = n ||| entriesNumber ps := by
  induction ps generalizing n with
  | nil => exact (Nat.or_zero n).symm
  | cons p ps ih => rw [List.foldl_cons, ih, Nat.or_assoc]; rfl

theorem packNumber_eq_entriesNumber (f : Field) (vals : List (Option Int)) :
    packNumber f vals = entriesNumber (f.allSubs.zip vals) :=
  (foldl_or_eq_entriesNumber (f.allSubs.zip vals) 0).trans (Nat.zero_or _)

theorem testBit_entriesNumber (ps : List (SubField × Option Int)) (i : Nat) :
    (entriesNumber ps).testBit i = ps.any (fun p => (placeSub p.1 (p.2.getD p.1.dflt)).testBit i) := by
  induction ps with
  | nil => exact Nat.zero_testBit i
  | cons p ps ih => rw [List.any_cons, ← ih, ← Nat.testBit_or]; rfl

section Pack

variable {f : Field} {vals : List (Option Int)}

theorem exec_rfaPack (hlen : vals.length = f.allSubs.length)
    (h : ∀ p ∈ f.allSubs.zip vals, InRange p.1 (p.2.getD p.1.dflt)) (s : State) : ∃ bs : List Byte,
      exec (.rfaPack f vals) s = .next { s with results := s.results ++ [.bytes bs] } ∧
      bs.length = f.size ∧ fieldNumber bs = packNumber f vals % 2 ^ (8 * f.size) := by
  refine ⟨valBytes (packNumber f vals) f.size, ?_, length_valBytes _ _, fieldNumber_valBytes _ _⟩
  have shape : packShape f vals = true := beq_iff_eq.2 hlen
  simp only [exec, execRfaPack, shape, if_true, packField, packVal_of_inRange h, ← packNumber_eq_entriesNumber,
    Option.map_some]
  rfl

theorem exec_rfaPack_out_of_range (hlen : vals.length = f.allSubs.length)
    (h : ¬∀ p ∈ f.allSubs.zip vals, InRange p.1 (p.2.getD p.1.dflt)) (s : State) :
    exec (.rfaPack f vals) s = .fault (.valueRange (.instr (.rfaPack f vals))) := by
  have shape : packShape f vals = true := beq_iff_eq.2 hlen
  simp only [exec, execRfaPack, shape, if_true, packField, packVal_out_of_range h, Option.map_none]

theorem exec_rfaPack_of_length_ne (h : vals.length ≠ f.allSubs.length) (s : State) :
    exec (.rfaPack f vals) s = .refused (.illFormed (.op (encode (.rfaPack f vals)))) :=
  if_neg (mt beq_iff_eq.1 h)

end Pack

-- the round trip (R283)

/-- A list of values packs to the bits each value has in its own sub-field. -/
theorem exec_rfaPack_values {f : Field} {vals : List Int} (wf : ∀ x ∈ f.allSubs, SubWellFormed f.size x)
    (hlen : vals.length = f.allSubs.length) (h : ∀ p ∈ f.allSubs.zip vals, InRange p.1 p.2) (s : State) :
    ∃ bs : List Byte, exec (.rfaPack f (vals.map some)) s = .next { s with results := s.results ++ [.bytes bs] } ∧
      bs.length = f.size ∧
      ∀ i, (fieldNumber bs).testBit i = (f.allSubs.zip vals).any (fun p => (placeSub p.1 p.2).testBit i) := by
  have entries : f.allSubs.zip (vals.map some) = (f.allSubs.zip vals).map (Prod.map id some) := List.zip_map_right
  obtain ⟨bs, hex, hsize, hnum⟩ := exec_rfaPack (f := f) (vals := vals.map some) (by simpa using hlen)
    (by rw [entries, List.forall_mem_map]; exact h) s
  refine ⟨bs, hex, hsize, fun i => ?_⟩
  rw [hnum, packNumber_eq_entriesNumber, Nat.testBit_mod_two_pow, testBit_entriesNumber, entries, List.any_map]
  refine Bool.and_eq_right_iff_imp.2 fun hany => decide_eq_true ?_
  obtain ⟨p, hp, hbit⟩ := List.any_eq_true.1 hany
  have place := (wf p.1 (List.of_mem_zip hp).1).place
  exact Nat.lt_of_lt_of_le (covers_of_testBit_placeSub hbit).2 place

theorem eq_or_apart {ps : List (SubField × Int)} {p q : SubField × Int}
    (disjoint : ps.Pairwise fun p q => Apart p.1 q.1) (hp : p ∈ ps) (hq : q ∈ ps) : p = q ∨ Apart p.1 q.1 :=
  List.Pairwise.forall_of_forall_of_flip (R := fun p q => p = q ∨ Apart p.1 q.1) (fun _ _ => .inl rfl)
    (disjoint.imp .inr) (disjoint.imp fun apart => .inr apart.symm) hp hq

/-- No bit of a sub-field is another one's. -/
theorem any_testBit_placeSub {ps : List (SubField × Int)} {p : SubField × Int} {i : Nat}
    (disjoint : ps.Pairwise fun p q => Apart p.1 q.1)
    (hp : p ∈ ps) (hlo : p.1.bitoff ≤ i) (hhi : i < p.1.bitoff + p.1.width) :
    ps.any (fun q => (placeSub q.1 q.2).testBit i) = (placeSub p.1 p.2).testBit i := by
  refine Bool.eq_iff_iff.2 (List.any_eq_true.trans ⟨fun ⟨q, hq, hbit⟩ => ?_, fun hbit => ⟨p, hp, hbit⟩⟩)
  have covers := covers_of_testBit_placeSub hbit
  rcases eq_or_apart disjoint hp hq with rfl | before | behind
  · exact hbit
  · omega
  · omega

theorem map_eq_of_forall_zip {α β : Type} {g : α → β} {xs : List α} {ys : List β} (hlen : ys.length = xs.length)
    (h : ∀ p ∈ xs.zip ys, g p.1 = p.2) : xs.map g = ys :=
  calc xs.map g
      = (xs.zip ys).map (fun p => g p.1) := by
        rw [← Function.comp_def g Prod.fst, ← List.map_map, List.map_fst_zip (Nat.le_of_eq hlen.symm)]
    _ = (xs.zip ys).map Prod.snd := List.map_congr_left h
    _ = ys := List.map_snd_zip (Nat.le_of_eq hlen)

/-- Unpacking what was packed gives every value back. -/
theorem unpack_packed {f : Field} {vals : List Int} {bs : List Byte} (wf : FieldWellFormed f)
    (hlen : vals.length = f.allSubs.length) (h : ∀ p ∈ f.allSubs.zip vals, InRange p.1 p.2)
    (hbits : ∀ i, (fieldNumber bs).testBit i = (f.allSubs.zip vals).any (fun p => (placeSub p.1 p.2).testBit i)) :
    f.allSubs.map (fun x => subValue x (fieldNumber bs)) = vals := by
  have disjoint : f.allSubs.Pairwise Apart := wf.disjoint
  rw [← List.map_fst_zip (Nat.le_of_eq hlen.symm), List.pairwise_map] at disjoint
  refine map_eq_of_forall_zip hlen fun p hp => ?_
  calc subValue p.1 (fieldNumber bs)
      = subValue p.1 (placeSub p.1 p.2) :=
        subValue_congr fun i hlo hhi => (hbits i).trans (any_testBit_placeSub disjoint hp hlo hhi)
    _ = p.2 := subValue_placeSub (wf.subs p.1 (List.of_mem_zip hp).1) (h p hp)

/-- Packing what was unpacked keeps the bits of the sub-fields. -/
theorem any_testBit_placeSub_subValue (ss : List SubField) (n i : Nat) :
    (ss.zip (ss.map fun x => subValue x n)).any (fun p => (placeSub p.1 p.2).testBit i) =
      (n.testBit i && ss.any (fun x => decide (x.bitoff ≤ i ∧ i < x.bitoff + x.width))) := by
  rw [← List.map_prod_left_eq_zip, List.any_map, List.and_any_distrib_left]
  simp only [Function.comp_def, testBit_placeSub_subValue]

theorem inRange_unpacked {f : Field} {n : Nat} (wf : ∀ x ∈ f.allSubs, SubWellFormed f.size x)
    (listed : ∀ p ∈ f.allSubs.zip (f.allSubs.map fun x => subValue x n),
      ∀ cs, p.1.kind = .enum cs → ∃ c ∈ cs, (c.1 : Int) = p.2) :
    ∀ p ∈ f.allSubs.zip (f.allSubs.map fun x => subValue x n), InRange p.1 p.2 := by
  rw [← List.map_prod_left_eq_zip] at listed ⊢
  simp only [List.forall_mem_map, ← decodeSub_subBits] at listed ⊢
  exact fun x hx => inRange_decodeSub (wf x hx) (subBits_lt x n) (listed x hx)

-- the obligations

/-- Settles O51: the layout check decides well-formedness (`mapOk_eq_true`), and a reference resolves to the first field
it names. -/
theorem layoutProceduresAnswer : Obligations.LayoutProceduresAnswer :=
  ⟨fun s m => ⟨fun h => exec_rfaLayoutCheck h s, fun h => exec_rfaLayoutCheck_ill h s, exec_rfaTotalSize m s⟩,
    fun _ _ _ _ hf hr =>
      have named := resolve_eq_some hf hr
      ⟨exec_rfaOffset named, exec_rfaSize named hf⟩,
    fun _ _ hr =>
      have unknown := resolve_eq_none hr
      ⟨exec_rfaOffset_unknown unknown, exec_rfaSize_unknown unknown⟩⟩

/-- Settles O52: an offset is the sum of the sizes of the fields before, which grows with every field by its size, and
every size is at least 1. -/
theorem layoutLaws : Obligations.LayoutLaws := by
  intro s wf n hn
  have offset {k : Nat} (hk : k < s.cfg.map.length) := exec_rfaOffset (s := s) (r := .idx k) (if_pos hk)
  have hf : s.cfg.map[n]? = some s.cfg.map[n] := List.getElem?_eq_getElem hn
  have hsize : 1 ≤ s.cfg.map[n].size := (wf.fields _ (List.getElem_mem hn)).size
  have next := sum_sizes_take_succ hf
  refine ⟨_, _, _, offset hn, exec_rfaSize (if_pos hn) hf, exec_rfaTotalSize _ s, ?_, ?_, ?_, ?_⟩
  · rintro rfl
    rfl
  · rw [← next]
    simpa using sum_sizes_take_mono (m := s.cfg.map) (show n + 1 ≤ _ from hn)
  · intro hn'
    rw [← next]
    exact offset hn'
  · intro m hnm hm
    have grows := sum_sizes_take_mono (m := s.cfg.map) (show n + 1 ≤ m from hnm)
    exact ⟨_, by omega, offset hm⟩

/-- Settles O53: unpacking reads the number of the bytes it is given or completes (`exec_rfaUnpack_fieldBytes`), packing
writes the number its entries make (`exec_rfaPack`). -/
theorem unpackAndPackAnswer : Obligations.UnpackAndPackAnswer := by
  refine ⟨fun s f bs h => exec_rfaUnpack h s, fun s f bs h => ?_, fun s f vals => ⟨fun h => ?_, fun hlen => ?_⟩⟩
  · obtain ⟨rest, hlen, hbytes⟩ := fieldBytes_of_lt h
    exact ⟨rest, hlen, hbytes ▸ exec_rfaUnpack_fieldBytes f bs s⟩
  · exact ⟨_, exec_rfaPack_of_length_ne h s⟩
  · exact ⟨fun h => exec_rfaPack hlen h s, fun h => exec_rfaPack_out_of_range hlen h s⟩

/-- Settles O54: packed values stand in the bits of their own sub-fields (`exec_rfaPack_values`), from which unpacking reads
them (`unpack_packed`); a sub-field's value packs to the bits it was read from (`any_testBit_placeSub_subValue`). -/
theorem packUnpackRoundTrip : Obligations.PackUnpackRoundTrip := by
  intro s f wf
  refine ⟨fun vals hlen h => ?_, fun bs hsize => ⟨_, exec_rfaUnpack (Nat.le_of_eq hsize.symm) s, fun listed => ?_⟩,
    fun x _ bs cs h => subValue_congr h⟩
  · obtain ⟨bs, hpack, hsize, hbits⟩ := exec_rfaPack_values wf.subs hlen h s
    exact ⟨bs, hpack, unpack_packed wf hlen h hbits ▸ exec_rfaUnpack (Nat.le_of_eq hsize.symm) s⟩
  · obtain ⟨out, hpack, hout, hbits⟩ :=
      exec_rfaPack_values wf.subs (List.length_map _) (inRange_unpacked wf.subs listed) s
    exact ⟨out, hpack, hout, fun i => (hbits i).trans (any_testBit_placeSub_subValue f.allSubs (fieldNumber bs) i)⟩

end Sys2Proof.Proofs
end

section
/-! Operands that have no meaning (spec/60_exceptions.md R304 to R307, R309 to R311): each check stands before the first
register access, so the fault depends on the operands, host memory, the map and `status` alone. -/

namespace Sys2Proof.Proofs

open Sys2Proof.Machine Sys2Proof.Safety

-- a fault of a procedure's first access

/-- A call whose first access faults has no next state. -/
theorem call_fault {o : Origin} {st : Stmt} {l : List Stmt} {s : State} {f : Fault} (hp : isPure st = false)
    (h : access o st (inside o (st :: l) s) = .fault f) : call o (st :: l) s = .fault f := by
  rw [call_access hp]
  exact congrArg (andThen · _) h

-- addresses above 127 (R304)

/-- The fault names `eng.make_header`, which the procedure calls first (R222, log entry 19). -/
theorem exec_engSetAddrSync_bad {a : Nat} (h : 127 < a) (r : Bool) (s : State) :
    exec (.engSetAddrSync a r) s = .fault (.badAddress (.instr (.engMakeHeader a r))) := by
  have above : makeHeader a r = none := if_neg (Nat.not_lt.2 h)
  simp only [exec, execEngSetAddrSync, above]

theorem exec_sockProbe_bad {a : Nat} (h : 127 < a) (rest : List Nat) (s : State) :
    exec (.sockProbe (a :: rest)) s = .fault (.badAddress (.instr (.sockProbe (a :: rest)))) :=
  call_fault (st := .probeTry a rest) rfl (if_pos h)

-- null buffers and register ranges (R307, R311)

theorem nullWithLen_eq_true {data : Option Nat} {len : Nat} : nullWithLen data len = true ↔ data = none ∧ 0 < len := by
  cases data <;> simp [nullWithLen]

theorem nullWithLen_eq_false {data : Option Nat} {len : Nat} (h : data = none → len = 0) :
    nullWithLen data len = false :=
  eq_false_of_ne_true fun null =>
    have ⟨hdata, hlen⟩ := nullWithLen_eq_true.1 null
    Nat.ne_of_gt hlen (h hdata)

theorem beyondRegs_eq_true {offset len : Nat} : beyondRegs offset len = true ↔ 256 < offset + len := decide_eq_true_iff

theorem exec_sockRecv_null {len : Nat} (h : 0 < len) (s : State) :
    exec (.sockRecv none len) s = .fault (.nullBuffer (.instr (.sockRecv none len))) :=
  if_pos (nullWithLen_eq_true.2 ⟨rfl, h⟩)

theorem exec_rfaRead_null {len : Nat} (h : 0 < len) (offset : Nat) (s : State) :
    exec (.rfaRead offset none len) s = .fault (.nullBuffer (.instr (.rfaRead offset none len))) :=
  if_pos (nullWithLen_eq_true.2 ⟨rfl, h⟩)

theorem exec_rfaWrite_null {len : Nat} (h : 0 < len) (offset : Nat) (s : State) :
    exec (.rfaWrite offset none len) s = .fault (.nullBuffer (.instr (.rfaWrite offset none len))) :=
  if_pos (nullWithLen_eq_true.2 ⟨rfl, h⟩)

section Range

variable {offset len : Nat} {data : Option Nat}

theorem exec_rfaRead_range (hbuf : data = none → len = 0) (h : 256 < offset + len) (s : State) :
    exec (.rfaRead offset data len) s = .fault (.regRange (.instr (.rfaRead offset data len))) := by
  rw [exec, execRfaRead, nullWithLen_eq_false hbuf, beyondRegs_eq_true.2 h]
  rfl

theorem exec_rfaWrite_range (hbuf : data = none → len = 0) (h : 256 < offset + len) (s : State) :
    exec (.rfaWrite offset data len) s = .fault (.regRange (.instr (.rfaWrite offset data len))) := by
  rw [exec, execRfaWrite, nullWithLen_eq_false hbuf, beyondRegs_eq_true.2 h]
  rfl

end Range

-- a buffer byte that nothing wrote (R306)

/-- A frame reads its byte before it writes ADDR (R284). -/
theorem call_frame_unwritten {s : State} {src : Buf} {total : Nat} (h : bufRead s.mem src total = none) (o : Origin)
    (off len : Nat) : call o [.frame off src total len] s = .fault (.bufferUnwritten o) :=
  call_fault rfl (by simp only [access, accessFrame, inside, h])

/-- With its operands in range and a byte to write, `rfa.write` is a call of its first frame (R284). -/
theorem exec_rfaWrite {offset len : Nat} (hlen : 0 < len) (hrange : offset + len ≤ 256) (a : Nat) (s : State) :
    exec (.rfaWrite offset (some a) len) s =
      call (.instr (.rfaWrite offset (some a) len)) [.frame offset (.mem a) 0 len] s := by
  have within : beyondRegs offset len = false := decide_eq_false (Nat.not_lt.2 hrange)
  rw [exec, execRfaWrite, within]
  exact if_neg (Nat.ne_of_gt hlen)

theorem exec_rfaWrite_unwritten {offset a len : Nat} {s : State} (hlen : 0 < len) (hrange : offset + len ≤ 256)
    (h : memRead s.mem a = none) : exec (.rfaWrite offset (some a) len) s =
      .fault (.bufferUnwritten (.instr (.rfaWrite offset (some a) len))) :=
  (exec_rfaWrite hlen hrange a s).trans (call_frame_unwritten (src := .mem a) (total := 0) h _ offset len)

-- fields and their values (R309, R310)

theorem exec_rfaReadField_unknown {s : State} {r : FieldRef} (h : resolve s.cfg.map r = none) :
    exec (.rfaReadField r) s = .fault (.unknownField (.instr (.rfaReadField r))) := by
  simp only [exec, execRfaReadField, resolveField, h]

theorem exec_rfaWriteField_unknown {s : State} {r : FieldRef} (h : resolve s.cfg.map r = none)
    (vals : List (Option Int)) :
    exec (.rfaWriteField r vals) s = .fault (.unknownField (.instr (.rfaWriteField r vals))) := by
  simp only [exec, execRfaWriteField, resolveField, h]

/-- The values are packed before anything is sent (R287). -/
theorem exec_rfaWriteField_out_of_range {s : State} {r : FieldRef} {n : Nat} {f : Field} {vals : List (Option Int)}
    (hr : resolve s.cfg.map r = some n) (hf : s.cfg.map[n]? = some f) (hlen : vals.length = f.allSubs.length)
    (h : ¬∀ p ∈ f.allSubs.zip vals, InRange p.1 (p.2.getD p.1.dflt)) :
    exec (.rfaWriteField r vals) s = .fault (.valueRange (.instr (.rfaWriteField r vals))) := by
  have named : resolveField s.cfg.map r = some (n, f) := by simp only [resolveField, hr, hf, Option.map_some]
  have shape : packShape f vals = true := beq_iff_eq.2 hlen
  simp only [exec, execRfaWriteField, named, shape, if_true, packField, packVal_out_of_range h, Option.map_none]

-- a read of `status` (R305)

theorem runEntry_readStatus_none {s : State} (h : s.status = none) :
    runEntry (.act .readStatus) s = .fault (.statusNoValue (.act .readStatus)) := by
  simp only [runEntry, entryInstr, hostAct, h]

theorem step_readStatus_none {s : State} {rest : List Item} (ht : s.turn = .host) (hr : s.running = none)
    (hp : s.prog = .act .readStatus :: rest) (h : s.status = none) :
    step s = .fault (.statusNoValue (.act .readStatus)) := by
  rw [step_entry ht hr hp, runEntry_readStatus_none (s := { s with prog := rest }) h, andThen_fault_left]

-- the obligation

/-- Settles O58: the operands are checked in R303's order before a procedure's first access; a candidate's address and a
buffer's first byte are checked in the step of that access, before it (`call_fault`). -/
theorem operandFaults : Obligations.OperandFaults := fun s =>
  ⟨fun _ r h => exec_engSetAddrSync_bad h r s,
    fun _ rest h => exec_sockProbe_bad h rest s,
    fun _ h => exec_sockRecv_null h s,
    fun o _ h => ⟨exec_rfaRead_null h o s, exec_rfaWrite_null h o s⟩,
    fun _ _ _ hbuf h => ⟨exec_rfaRead_range hbuf h s, exec_rfaWrite_range hbuf h s⟩,
    fun _ _ _ hlen hrange h => exec_rfaWrite_unwritten hlen hrange h,
    fun _ vals hr =>
      have unknown := resolve_eq_none hr
      ⟨exec_rfaReadField_unknown unknown, exec_rfaWriteField_unknown unknown vals⟩,
    fun _ _ _ hf hlen ⟨p, hp, hout⟩ =>
      exec_rfaWriteField_out_of_range (resolve_eq_some hf (.inl rfl)) hf hlen fun all => hout (all p hp),
    fun _ ht hr hp h => step_readStatus_none ht hr hp h⟩

end Sys2Proof.Proofs
end

section
/-! The reset states (spec/10_state.md R55, spec/41_controller_steps.md R160, R330, R331): what power-on leaves, and what
the SWRST step leaves of a running machine. -/

namespace Sys2Proof.Proofs

open Sys2Proof.Machine Sys2Proof.Safety

-- the reset values (R55)

@[simp] theorem rdReg_reset (r : Reg) : rdReg r Ctrl.reset = 0#32 := by
  cases r <;> rfl

/-- With no pin assigned to the function the bus cannot be observed idle. -/
theorem pins_reset : State.reset.pins = false := rfl

theorem memRead_reset (a : Nat) : memRead State.reset.mem a = none := rfl

-- the software reset (R160)

/-- The SWRST step where it is enabled. -/
theorem step_swrstSync {s : State} (ht : s.turn = .swrstSync) (hs : s.ctrl.syncSwrst = true) (hc : s.clk = true) :
    step s = .next (advance { s with ctrl := Ctrl.reset, trace := s.trace ++ resetAbort s.ctrl }) := by
  have enabledNow : enabled .swrstSync s = true := Bool.and_eq_true_iff.2 ⟨hs, hc⟩
  have fires : agentMove s.turn s = fireSwrst s := by
    rw [ht]
    exact if_pos enabledNow
  rw [step_agent (by rw [ht]; nofun), fires, fireSwrst_eq]

-- the obligations

/-- Settles O27: with the request synchronising and a clock the SWRST step is enabled (`step_swrstSync`), and power-on's
controller is the one it leaves. -/
theorem softwareResetStep : Obligations.SoftwareResetStep := fun _ ht hs hc => step_swrstSync ht hs hc

/-- Settles O9: every register reads 0 (`rdReg_reset`), no buffer byte is written, and the other fields are the ones R55
lists. -/
theorem resetLeaves : Obligations.ResetLeaves :=
  ⟨rdReg_reset, rfl, rfl, rfl, rfl, rfl, rfl, rfl, pins_reset, rfl, rfl, rfl, memRead_reset, rfl⟩

end Sys2Proof.Proofs
end

section
/-! The moves of the controller and the environment (spec/41_controller_steps.md): which are enabled and what each does
(R160 to R174), the answers of the simulated target (R176), and the end of a software reset (R175). -/

namespace Sys2Proof.Proofs

open Sys2Proof.Machine Sys2Proof.Safety

-- which move is enabled (R170)

theorem enabled_swrstSync_iff (s : State) : enabled .swrstSync s = true ↔ s.ctrl.syncSwrst = true ∧ s.clk = true := by
  simp [enabled]

theorem enabled_enableSync_iff (s : State) :
    enabled .enableSync s = true ↔ s.ctrl.syncEnable = true ∧ s.ctrl.syncSwrst = false ∧ s.clk = true := by
  simp [enabled, and_assoc]

theorem enabled_sysopSync_iff (s : State) :
    enabled .sysopSync s = true ↔
      s.ctrl.sysop = true ∧ s.ctrl.pend ≠ none ∧ s.ctrl.en = true ∧ s.ctrl.syncSwrst = false ∧ s.clk = true := by
  simp [enabled, and_assoc, Option.isSome_iff_ne_none]

theorem enabled_busIdle_iff (s : State) :
    enabled .busIdle s = true ↔
      s.ctrl.busstate = .unknown ∧ s.ctrl.en = true ∧ s.ctrl.syncSwrst = false ∧ s.clk = true ∧ s.pins = true := by
  simp only [enabled, Bool.and_eq_true, beq_iff_eq, Bool.not_eq_true']
  constructor
  · rintro ⟨⟨⟨⟨he, hb⟩, hc⟩, hp⟩, hr⟩
    exact ⟨hb, he, hr, hc, hp⟩
  · rintro ⟨hb, he, hr, hc, hp⟩
    exact ⟨⟨⟨⟨he, hb⟩, hc⟩, hp⟩, hr⟩

theorem busReady_iff (c : Ctrl) :
    busReady c = true ↔
      c.busop ≠ none ∧ ((∃ h, c.busop = some (.addr h)) → c.busstate = .idle ∨ c.busstate = .owner) := by
  unfold busReady
  split <;> simp_all

-- a step of the controller or the environment

theorem step_not_enabled {s : State} {m : Move} (ht : s.turn = m) (hm : m ≠ .host) (h : ¬enabled m s = true) :
    step s = .next (ticked 1 s) := by
  subst ht
  rw [step_agent hm, agentMove, if_neg h, advance_eq]

theorem step_enabled {s : State} {m : Move} (ht : s.turn = m) (hm : m ≠ .host) (h : enabled m s = true) :
    step s = .next (ticked 1 (fire m s)) := by
  subst ht
  rw [step_agent hm, agentMove, if_pos h, advance_eq]

/-- The state after a byte's transmission that the environment answered with `a`, becoming `e` (R165, R173). -/
def byteOut (b : Byte) (a : AckDraw) (e : BusEnv) (s : State) : State :=
  match a with
  | .ack => { s with
      env := e, trace := s.trace ++ [.tx b .ack]
      ctrl := { s.ctrl with rxnack := false, mb := true, busop := none } }
  | .nack => { s with
      env := e, trace := s.trace ++ [.tx b .nack]
      ctrl := { s.ctrl with rxnack := true, mb := true, busop := none } }
  | .busErr => { s with
      env := e, trace := s.trace ++ [.busErr]
      ctrl := { s.ctrl with
        buserr := true, busstate := .unknown, ackpend := false, mb := true, busop := none, sysop := false } }

theorem fireTx_eq {b : Byte} {a : AckDraw} {e : BusEnv} {s : State} (h : drawData b s = (a, { s with env := e })) :
    fireTx b s = byteOut b a e s := by
  simp only [fireTx, h]
  cases a <;> rfl

-- the simulated target (R176)

section Writing

variable {t : SimTarget} (ha : t.addressed = true) (hr : t.reading = false)
include ha hr

/-- The first byte of a write frame is the register address. -/
theorem simData_first (h : t.n = 0) (b : Byte) : simData t b = some (.ack, { t with ptr := b, n := 1 }) := by
  simp [simData, ha, hr, h]

theorem simData_rejected (h : t.n = 1) (hj : t.j ∈ t.rej) (b : Byte) :
    simData t b = some (.nack, { t with j := t.j + 1, n := 2 }) := by
  simp [simData, ha, hr, h, hj]

/-- The second byte of a write frame is stored, unless its running number is rejected. -/
theorem simData_stored (h : t.n = 1) (hj : t.j ∉ t.rej) (b : Byte) :
    simData t b = some (.ack, { t with regs := simPut t t.ptr b, ptr := t.ptr + 1#8, j := t.j + 1, n := 2 }) := by
  simp [simData, ha, hr, h, hj]

theorem simData_full (h0 : t.n ≠ 0) (h1 : t.n ≠ 1) (b : Byte) : simData t b = some (.nack, t) := by
  simp [simData, ha, hr, h0, h1]

end Writing

theorem drawData_sim {s : State} {t t' : SimTarget} {b : Byte} {a : Ack} (h : s.env = .sim t)
    (hd : simData t b = some (a, t')) : drawData b s = (ackAnswer a, { s with env := .sim t' }) := by
  simp only [drawData, h, hd]

theorem drawByte_sim {s : State} {t : SimTarget} (h : s.env = .sim t) (ha : t.addressed = true)
    (hr : t.reading = true) :
    drawByte s = (.byte (simReg t t.ptr), { s with env := .sim { t with ptr := t.ptr + 1#8 } }) := by
  simp only [drawByte, h, simByte, ha, hr, Bool.and_self, if_true]

theorem drawHeader_sim {s : State} {t : SimTarget} (h : s.env = .sim t) (hdr : Byte) :
    drawHeader hdr s =
      (if headerAddr hdr = t.addr then .ack else .nack,
       { s with env := .sim { t with
          n := 0, addressed := decide (headerAddr hdr = t.addr), reading := headerRead hdr } }) := by
  simp only [drawHeader, h, simHeader]
  split <;> simp [ackAnswer, *]

theorem env_self {s : State} {e : BusEnv} (h : s.env = e) : { s with env := e } = s := by
  subst h
  rfl

-- the end of a software reset (R160, R175)

/-- The host waits for the software reset, with a clock. -/
structure AwaitsReset (o : Origin) (rest : List Stmt) (s : State) : Prop where
  running : s.running = some { origin := o, todo := .await .syncbusy 0x00000001#32 false :: rest }
  clk : s.clk = true
  pending : s.ctrl.syncSwrst = true

/-- While the reset is pending the host polls, and no move but the SWRST step is enabled. -/
theorem step_awaitsReset {o : Origin} {rest : List Stmt} {s t : State} (h : AwaitsReset o rest s)
    (hst : step s = .next t) : t.running = s.running ∧ t.clk = s.clk := by
  by_cases ht : s.turn = .host
  · have bit : (rdReg .syncbusy s.ctrl &&& 0x00000001#32 != 0#32) = true :=
      (poll_syncbusy s.ctrl .swrst).trans h.pending
    have polls := pollingKeepsItsPlace s o .syncbusy 0x00000001#32 false rest ht h.running (by simpa using bit)
    cases hst.symm.trans polls
    exact ⟨rfl, rfl⟩
  · obtain ⟨c, e, tr, agent⟩ := agentStepsLeaveTheHostAlone s ht
    cases hst.symm.trans agent
    exact ⟨rfl, rfl⟩

-- the obligations

/-- Settles O15: what enables a move is what its rule asks for (`enabled_sysopSync_iff` and the like), and a move that is
not enabled leaves the state to `ticked`. -/
theorem stepsThatAreNotEnabledChangeNothing : Obligations.StepsThatAreNotEnabledChangeNothing := by
  refine fun s => ⟨fun ht h => step_not_enabled ht nofun (mt (enabled_swrstSync_iff s).1 h),
    fun ht h => step_not_enabled ht nofun (mt (enabled_enableSync_iff s).1 h),
    fun ht h => step_not_enabled ht nofun (mt (enabled_sysopSync_iff s).1 h),
    fun ht h => step_not_enabled ht nofun (mt (fun he => ?_) h),
    fun ht h => step_not_enabled ht nofun (mt (enabled_busIdle_iff s).1 h)⟩
  obtain ⟨waits, noStall⟩ := (enabled_bus_iff s).1 he
  obtain ⟨some, bus⟩ := (busReady_iff _).1 waits.ready
  exact ⟨some, bus, waits.en, waits.swrst, waits.clk, noStall⟩

/-- Settles O29: the SYSOP step is enabled, and starts the operation by its kind. -/
theorem sysopStep : Obligations.SysopStep := by
  intro s ht hs he hr hc
  have fired {p : PendOp} (hp : s.ctrl.pend = some p) : step s = .next (ticked 1 (fireSysop s)) :=
    step_enabled ht nofun ((enabled_sysopSync_iff s).2 ⟨hs, by simp [hp], he, hr, hc⟩)
  refine ⟨fun h hp => ?_, fun b hp => ?_, fun c hp => ?_, fun hp => ?_⟩ <;> simp only [fired hp, fireSysop, hp, hs]

/-- Settles O30: the bus step in progress is the address phase (`fireAddr_eq`). -/
theorem addressPhase : Obligations.AddressPhase := by
  intro s h ht hop hbus he hc hr hs u
  have ready : busReady s.ctrl = true := (busReady_iff _).2 ⟨by simp [hop], fun _ => hbus⟩
  rw [step_bus ht (enabled_bus ready he hc hr hs), fireBus, hop]
  exact congrArg (Host.Outcome.next ∘ advance) (fireAddr_eq h s)

/-- Settles O31: the bus step in progress is the byte's transmission (`fireTx_eq`). -/
theorem byteTransmission : Obligations.ByteTransmission := by
  intro s b ht hop he hc hr hs
  have ready : busReady s.ctrl = true := (busReady_iff _).2 ⟨by simp [hop], by simp [hop]⟩
  obtain ⟨a, e, draw⟩ := drawData_frame b s
  refine ⟨a, e, draw, ?_⟩
  rw [step_bus ht (enabled_bus ready he hc hr hs), fireBus, hop]
  exact congrArg (Host.Outcome.next ∘ advance) (fireTx_eq draw)

/-- Settles O32: the bus step in progress is the command's (`fireReadContinue_eq`, `fireRepeatStart_eq`, `fireStop_eq`). -/
theorem commandSteps : Obligations.CommandSteps := by
  intro s ht he hc hr hs
  have fired {k : BusCmd} (hop : s.ctrl.busop = some (.cmd k)) : step s = .next (advance (fireBus s)) :=
    step_bus ht (enabled_bus ((busReady_iff _).2 ⟨by simp [hop], by simp [hop]⟩) he hc hr hs)
  refine ⟨fun hop => ?_, fun hop => ?_, fun hop => ?_⟩ <;> rw [fired hop, fireBus, hop]
  · exact congrArg (Host.Outcome.next ∘ advance) (fireReadContinue_eq s)
  · exact congrArg (Host.Outcome.next ∘ advance) (fireRepeatStart_eq s)
  · exact congrArg (Host.Outcome.next ∘ advance) (fireStop_eq s)

/-- Settles O33: the observation is enabled, and its effect is one field. -/
theorem busIdleObservation : Obligations.BusIdleObservation := fun s ht he hb hc hp hr =>
  step_enabled ht nofun ((enabled_busIdle_iff s).2 ⟨hb, he, hr, hc, hp⟩)

/-- Settles O34: each answer is the target's own (`drawHeader_sim`, `simData_stored`, `drawByte_sim`). -/
theorem simulatedTargetAnswers : Obligations.SimulatedTargetAnswers := by
  intro s t henv
  refine ⟨(sim_never_busErr henv 0#8).2.2.2, fun b => ?_, drawHeader_sim henv, fun b ha => ?_, fun b ha hr => ?_,
    drawByte_sim henv⟩
  · obtain ⟨header, data, byte, -⟩ := sim_never_busErr henv b
    exact ⟨header, data, byte⟩
  · rw [drawData_sim henv (show simData t b = some (.nack, t) from if_pos ha), env_self henv]
    rfl
  · by_cases h0 : t.n = 0
    · rw [if_pos h0]
      exact drawData_sim henv (simData_first ha hr h0 b)
    by_cases h1 : t.n = 1
    · rw [if_neg h0]
      by_cases hj : t.j ∈ t.rej
      · rw [if_pos ⟨h1, hj⟩]
        exact drawData_sim henv (simData_rejected ha hr h1 hj b)
      · rw [if_neg (mt And.right hj), if_pos h1]
        exact drawData_sim henv (simData_stored ha hr h1 hj b)
    · rw [if_neg h0, if_neg (mt And.left h1), if_neg h1]
      exact (drawData_sim henv (simData_full ha hr h0 h1 b)).trans (congrArg (_, ·) (env_self henv))

/-- Settles O60: while the reset is pending its step stays enabled (`step_awaitsReset`), so by its fairness it is taken, and
it ends the reset. -/
theorem softwareResetEnds : Obligations.SoftwareResetEnds := by
  rintro μ σ n o rest hrun ⟨fair, -, -⟩ hwait hclk
  by_contra hnever
  have pending {k : Nat} (hk : n ≤ k) : (σ k).ctrl.syncSwrst = true :=
    eq_true_of_ne_false fun h => hnever ⟨k, hk, h⟩
  have waits (k : Nat) (hk : n ≤ k) : AwaitsReset o rest (σ k) := by
    induction k, hk using Nat.le_induction with
    | base => exact ⟨hwait, hclk, pending (Nat.le_refl n)⟩
    | succ k hk ih =>
      obtain ⟨running, clk⟩ :=
        step_awaitsReset (s := { σ k with turn := μ k }) ⟨ih.running, ih.clk, ih.pending⟩ (hrun k)
      exact ⟨running.trans ih.running, clk.trans ih.clk, pending (Nat.le_succ_of_le hk)⟩
  obtain ⟨k, hk, turn, -⟩ := fair n fun k hk => (enabled_swrstSync_iff _).2 ⟨(waits k hk).pending, (waits k hk).clk⟩
  have ends : (σ (k + 1)).ctrl.syncSwrst = false := by
    have taken := step_swrstSync (s := { σ k with turn := μ k }) turn (waits k hk).pending (waits k hk).clk
    exact congrArg (fun t : State => t.ctrl.syncSwrst) (Host.Outcome.next.inj ((hrun k).symm.trans taken))
  exact absurd (pending (Nat.le_succ_of_le hk)) (ne_true_of_eq_false ends)

end Sys2Proof.Proofs
end

section
/-! Procedures as runs of moves (spec/00_scope.md R8, spec/10_state.md R31): a procedure's next host step and the moves after
it, the pure statements it takes on its way, and the moves of the controller and the environment while it waits. -/

namespace Sys2Proof.Proofs

open Sys2Proof.Machine Sys2Proof.Safety

-- the pure statements do not see where in the list the host stands, nor the step count

/-- The state with other statements still to run, at the move that comes `n` steps later. -/
def moved (k : List Stmt) (m : Move) (n : Nat) (s : State) : State := onTurn m n (setTodo k s)

theorem setTodo_moved (l k : List Stmt) (m : Move) (n : Nat) (s : State) :
    setTodo l (moved k m n s) = onTurn m n (setTodo l s) := by
  cases h : s.running <;> simp [moved, onTurn, setTodo, h]

theorem returnTo_moved (r : Ret) (c : Nat) (k : List Stmt) (m : Move) (n : Nat) (s : State) :
    returnTo r c (moved k m n s) = onTurn m n (returnTo r c s) := by
  induction r generalizing c with
  | recv next ih =>
    simp only [returnTo, setTodo_moved, ih, apply_ite (onTurn m n)]
    rfl
  | frame off src total len =>
    simp only [returnTo, setTodo_moved, apply_ite (onTurn m n)]
    rfl
  | select dst len next ih =>
    simp only [returnTo, setTodo_moved, ih, apply_ite (onTurn m n)]
    rfl
  | probe a rest =>
    cases rest <;> simp only [returnTo, setTodo_moved, apply_ite (onTurn m n)] <;> rfl
  | field i sz =>
    simp only [returnTo, apply_ite (onTurn m n)]
    rfl
  | _ => rfl

theorem settle_moved (l k : List Stmt) (m : Move) (n : Nat) (s : State) :
    settle l (moved k m n s) = onTurn m n (settle l s) := by
  induction l generalizing s with
  | nil => rfl
  | cons st rest ih =>
    cases st with
    | setStatus st => exact ih { s with status := some st }
    | store dst j d =>
      have stored : dstWrite dst j d (moved k m n s) = moved k m n (dstWrite dst j d s) := by cases dst <;> rfl
      rw [settle, stored, ih]
      rfl
    | orRet ret c =>
      simp only [settle, ih, returnTo_moved, apply_ite (onTurn m n)]
      rfl
    | retCount ret c => exact returnTo_moved ret c k m n s
    | sendLoop src j len ret => simp only [settle, setTodo_moved, ih, apply_ite (onTurn m n)]
    | burstLoop dst j len ret =>
      have return_moved := returnTo_moved ret len k m n (if len = 0 then { s with status := some .success } else s)
      simp only [settle, setTodo_moved, apply_ite (onTurn m n)]
      rw [← return_moved]
      simp only [apply_ite (moved k m n)]
      rfl
    | retVal v => rfl
    | _ => exact setTodo_moved _ k m n s

-- a procedure's next host step

/-- The state with the procedure `o` in progress and these statements still to run, whatever they begin with. -/
def calling (o : Origin) (l : List Stmt) (s : State) : State := { s with running := some { origin := o, todo := l } }

theorem settle_calling (o : Origin) (l k k' : List Stmt) (s : State) :
    settle l (calling o k s) = settle l (calling o k' s) := by
  have turn : (settle l (calling o k' s)).turn = s.turn := by rw [settle_frame l (calling o k' s)]; rfl
  calc settle l (calling o k s)
      = onTurn s.turn 0 (settle l (calling o k' s)) := settle_moved l k s.turn 0 (calling o k' s)
    _ = settle l (calling o k' s) := by rw [← turn]; rfl

/-- What is left once an access has been made: the end of the procedure, if only pure statements are left up to it, or
these statements (log entry 2). -/
def left (o : Origin) (l : List Stmt) (s : State) : State := leave l (calling o l s)

theorem leave_calling (o : Origin) (l k : List Stmt) (s : State) : leave l (calling o k s) = left o l s := by
  simp only [left, leave, settle_calling o l k l]
  rfl

theorem left_atAccess {l : List Stmt} (h : atAccess l = true) (o : Origin) (s : State) : left o l s = inside o l s := by
  cases l with
  | nil => rfl
  | cons st l => exact leave_inside h o st l s

-- an access does not see where the host stands, nor the step count

/-- The state with the host at this place, at this move and step count. -/
def placed (p : Option Running) (m : Move) (n : Nat) (s : State) : State :=
  { s with running := p, turn := m, tick := n }

theorem guarded_placed {g : Option Fault} {p : Option Running} {m : Move} {n : Nat} {x y : Out State} {t : State}
    (hx : x = guarded g (placed p m n t)) (hy : y = guarded g t) :
    x = andThen y (fun u => .next (placed p m n u)) := by
  subst hx hy
  cases g <;> rfl

theorem wrReg_placed (r : Reg) (v : Word) (p : Option Running) (m : Move) (n : Nat) (s : State) :
    wrReg r v (placed p m n s) = andThen (wrReg r v s) (fun u => .next (placed p m n u)) := by
  cases r with
  | ctrla =>
    simp only [wrReg]
    split
    · rfl
    · exact guarded_placed rfl rfl
  | ctrlb =>
    simp only [wrReg]
    split
    · exact guarded_placed rfl rfl
    split
    · exact guarded_placed rfl rfl
    split <;> exact guarded_placed rfl rfl
  | syncbusy => rfl
  | _ => exact guarded_placed rfl rfl

theorem accessWrite_placed (r : Reg) (v : Word) (l : List Stmt) (p : Option Running) (m : Move) (n : Nat) (s : State) :
    accessWrite r v l (placed p m n s) = andThen (accessWrite r v l s) (fun x => .next (placed p m n x.1, x.2)) := by
  rw [accessWrite, wrReg_placed, accessWrite]
  cases wrReg r v s <;> rfl

theorem access_placed (o : Origin) (st : Stmt) (p : Option Running) (m : Move) (n : Nat) (s : State) :
    access o st (placed p m n s) = andThen (access o st s) (fun x => .next (placed p m n x.1, x.2)) := by
  cases st with
  | wr r v => exact accessWrite_placed r v [] p m n s
  | service x =>
    cases x with
    | pin q f => cases q <;> rfl
    | _ => rfl
  | wrData src j =>
    have same : bufRead (placed p m n s).mem src j = bufRead s.mem src j := rfl
    simp only [access, same]
    cases bufRead s.mem src j with
    | none => rfl
    | some b => exact accessWrite_placed .data _ [] p m n s
  | frame off src total len =>
    have same : bufRead (placed p m n s).mem src total = bufRead s.mem src total := rfl
    simp only [access, accessFrame, same]
    cases bufRead s.mem src total with
    | none => rfl
    | some b =>
      have room : tooLong (placed p m n s).cfg 2 = tooLong s.cfg 2 := rfl
      simp only [room]
      split
      · rfl
      · exact accessWrite_placed .addr _ _ p m n s
  | probeTry a rest =>
    simp only [access, accessProbe]
    split
    · rfl
    · exact accessWrite_placed .addr _ _ p m n { s with sockAddr := BitVec.ofNat 7 a }
  | _ => rfl

/-- The statements still to run are some. -/
theorem exists_setTodo_self (s : State) : ∃ k, setTodo k s = s := by
  cases h : s.running with
  | none => exact ⟨[], by rw [setTodo, h, Option.map_none, ← h]⟩
  | some r => exact ⟨r.todo, setTodo_self h⟩

theorem settle_onTurn (l : List Stmt) (m : Move) (n : Nat) (s : State) :
    settle l (onTurn m n s) = onTurn m n (settle l s) := by
  obtain ⟨k, hk⟩ := exists_setTodo_self s
  rw [← settle_moved l k, moved, hk]

/-- An access is made alike wherever the host stands. -/
theorem access_placed_eq_next {o : Origin} {st : Stmt} {s u : State} {l : List Stmt} (h : access o st s = .next (u, l))
    (p : Option Running) (m : Move) (n : Nat) : access o st (placed p m n s) = .next (placed p m n u, l) := by
  rw [access_placed, h]
  rfl

theorem access_onTurn (o : Origin) (st : Stmt) (m : Move) (n : Nat) (s : State) :
    access o st (onTurn m n s) = andThen (access o st s) (fun x => .next (onTurn m n x.1, x.2)) := by
  have same := access_placed o st s.running m (s.tick + n) s
  cases h : access o st s with
  | next x =>
    rw [h] at same
    have kept : placed s.running m (s.tick + n) x.1 = onTurn m n x.1 := by rw [access_frame h]; rfl
    exact same.trans (congrArg (fun y => Host.Outcome.next (y, x.2)) kept)
  | fault r => rwa [h] at same
  | refused r => rwa [h] at same

theorem leave_onTurn (l : List Stmt) (m : Move) (n : Nat) (s : State) :
    leave l (onTurn m n s) = onTurn m n (leave l s) := by
  simp only [leave, settle_onTurn, apply_ite (onTurn m n)]
  rfl

theorem resume_onTurn (m : Move) (n : Nat) (s : State) :
    resume (onTurn m n s) = andThen (resume s) (fun u => .next (onTurn m n u)) := by
  cases hr : s.running with
  | none =>
    have hr' : (onTurn m n s).running = none := hr
    simp only [resume, hr, hr']
    rfl
  | some r =>
    have hr' : (onTurn m n s).running = some r := hr
    simp only [resume, hr, hr', settle_onTurn]
    cases hq : (settle r.todo s).running with
    | none =>
      have hq' : (onTurn m n (settle r.todo s)).running = none := hq
      simp only [hq']
      rfl
    | some q =>
      have hq' : (onTurn m n (settle r.todo s)).running = some q := hq
      obtain ⟨o, todo⟩ := q
      simp only [hq']
      cases todo with
      | nil => rfl
      | cons st rest =>
        simp only [access_onTurn]
        cases access o st (settle r.todo s) with
        | next p => exact congrArg Host.Outcome.next (leave_onTurn (p.2 ++ rest) m n p.1)
        | fault f => rfl
        | refused f => rfl

theorem call_onTurn {o : Origin} {l : List Stmt} {s u : State} (h : call o l s = .next u) (m : Move) (n : Nat) :
    call o l (onTurn m n s) = .next (onTurn m n u) :=
  (resume_onTurn m n (calling o l s)).trans (congrArg (andThen · _) h)

/-- The host step that begins with an access makes it and leaves the rest. -/
theorem call_of_access {o : Origin} {st : Stmt} {l l' : List Stmt} {s u : State} (hp : isPure st = false)
    (h : access o st s = .next (u, l')) : call o (st :: l) s = .next (left o (l' ++ l) u) := by
  have made := access_placed_eq_next h (some { origin := o, todo := st :: l }) s.turn s.tick
  have here : placed (some { origin := o, todo := st :: l }) s.turn s.tick u = calling o (st :: l) u := by
    rw [access_frame h]; rfl
  rw [call_access hp]
  rw [here] at made
  exact (congrArg (andThen · _) made).trans (congrArg Host.Outcome.next (leave_calling o (l' ++ l) (st :: l) u))

/-- The procedure's next host step and then these moves lead to `u`. -/
def Runs (o : Origin) (l : List Stmt) (ms : List Move) (s u : State) : Prop := ∃ t, call o l s = .next t ∧ Leads ms t u

theorem runs_call {o : Origin} {l : List Stmt} {s u : State} (h : call o l s = .next u) : Runs o l [] s u :=
  ⟨u, h, fun _ => rfl⟩

theorem Runs.append {o : Origin} {l : List Stmt} {ms ns : List Move} {s t u : State} (h : Runs o l ms s t)
    (g : Leads ns t u) : Runs o l (ms ++ ns) s u :=
  have ⟨v, hc, hl⟩ := h
  ⟨v, hc, hl.append g⟩

theorem Runs.leads {o : Origin} {st : Stmt} {l : List Stmt} {ms : List Move} {s u : State}
    (h : Runs o (st :: l) ms s u) : Leads (.host :: ms) (inside o (st :: l) s) u :=
  have ⟨_, hc, hl⟩ := h
  (leads_host fun n => call_onTurn hc .host n).append hl

theorem Runs.completes {i : Instr} {o : Origin} {l : List Stmt} {ms : List Move} {s s' u : State}
    (h : Runs o l ms s' u) (hi : exec i s = call o l s') : Completes i ms s u :=
  have ⟨_, hc, hl⟩ := h
  hl.completes (hi.trans hc)

/-- The procedure ends in `u` after some moves, the host's next step the first. -/
def Finishes (o : Origin) (l : List Stmt) (s u : State) : Prop := ∃ ms, Runs o l ms s u

theorem Finishes.completes {i : Instr} {o : Origin} {l : List Stmt} {s s' u : State} (h : Finishes o l s' u)
    (hi : exec i s = call o l s') : ∃ moves, Completes i moves s u :=
  have ⟨ms, hr⟩ := h
  ⟨ms, hr.completes hi⟩

/-- A procedure goes on from what an access has left. -/
theorem Runs.finishes {o : Origin} {l l' : List Stmt} {ms : List Move} {s s' u : State}
    (h : Runs o l ms s (left o l' s')) (g : Finishes o l' s' u) : Finishes o l s u := by
  obtain ⟨ns, t, hc, hl⟩ := g
  cases hr : (settle l' (calling o l' s')).running with
  | none =>
    have ended : left o l' s' = settle l' (calling o l' s') := by rw [left, leave, hr]; rfl
    have same : call o l' s' = .next (settle l' (calling o l' s')) := by
      rw [call, resume]
      simp only [calling] at hr ⊢
      simp only [hr]
    have ht : t = left o l' s' := by
      rw [ended]
      exact Host.Outcome.next.inj (hc.symm.trans same)
    exact ⟨_, h.append (ht ▸ hl)⟩
  | some q =>
    cases l' with
    | nil => cases hr
    | cons st l' =>
      have waiting : left o (st :: l') s' = inside o (st :: l') s' := by rw [left, leave, hr]; rfl
      rw [waiting] at h
      exact ⟨_, h.append (Runs.leads ⟨t, hc, hl⟩)⟩

end Sys2Proof.Proofs
end

section
/-! What the statements of a procedure do (spec/42 to 44), one by one: the pure ones, the accesses, and the operations the
host starts and waits for while the controller carries them out. -/

namespace Sys2Proof.Proofs

open Sys2Proof.Machine Sys2Proof.Safety

-- the pure statements, and what a returning procedure goes on with (R31)

/-- A call is what its pure statements make of it. -/
theorem call_congr {o : Origin} {l l' : List Stmt} {s s' : State}
    (h : settle l (calling o l s) = settle l' (calling o l' s')) : call o l s = call o l' s' := by
  simp only [call, resume]
  simp only [calling] at h
  rw [h]

theorem call_setStatus (o : Origin) (st : TStatus) (l : List Stmt) (s : State) :
    call o (.setStatus st :: l) s = call o l { s with status := some st } :=
  call_congr (settle_calling o l _ l { s with status := some st })

theorem call_store (o : Origin) (dst : Dst) (k : Nat) (b : Byte) (l : List Stmt) (s : State) :
    call o (.store dst k b :: l) s = call o l (dstWrite dst k b s) := by
  have stored (l' : List Stmt) : dstWrite dst k b (calling o l' s) = calling o l' (dstWrite dst k b s) := by
    cases dst <;> rfl
  refine call_congr ?_
  rw [settle, stored, settle_calling]

theorem call_orRet {s : State} (h : s.status = some .success) (o : Origin) (ret : Ret) (n : Nat) (l : List Stmt) :
    call o (.orRet ret n :: l) s = call o l s :=
  call_congr ((if_pos h).trans (settle_calling o l _ l s))

theorem call_orRet_return {s : State} (h : s.status ≠ some .success) (o : Origin) (ret : Ret) (n : Nat)
    (l : List Stmt) : call o (.orRet ret n :: l) s = call o [.retCount ret n] s :=
  call_congr ((if_neg h).trans (settle_calling o [.retCount ret n] _ _ s))

theorem call_sendLoop {k len : Nat} (h : k < len) (o : Origin) (src : Buf) (ret : Ret) (l : List Stmt) (s : State) :
    call o (.sendLoop src k len ret :: l) s = call o (sendTurn src k len ret ++ l) s :=
  call_congr (if_pos h)

theorem call_sendLoop_done (o : Origin) (src : Buf) (len : Nat) (ret : Ret) (l : List Stmt) (s : State) :
    call o (.sendLoop src len len ret :: l) s = call o l s :=
  call_congr ((if_neg (Nat.lt_irrefl len)).trans (settle_calling o l _ l s))

theorem settle_burstTurn (smart : Bool) (dst : Dst) (k len : Nat) (ret : Ret) (l : List Stmt) (s : State) :
    settle (burstTurn smart dst k len ret ++ l) s = setTodo (burstTurn smart dst k len ret ++ l) s := by
  cases k <;> rfl

theorem call_burstLoop {k len : Nat} (h : k < len) (o : Origin) (dst : Dst) (ret : Ret) (l : List Stmt) (s : State) :
    call o (.burstLoop dst k len ret :: l) s = call o (burstTurn s.cfg.smart dst k len ret ++ l) s :=
  call_congr ((if_pos h).trans ((settle_burstTurn s.cfg.smart dst k len ret l _).symm.trans
    (settle_calling o _ (.burstLoop dst k len ret :: l) _ s)))

theorem call_burstLoop_done {len : Nat} (h : len ≠ 0) (o : Origin) (dst : Dst) (ret : Ret) (l : List Stmt)
    (s : State) : call o (.burstLoop dst len len ret :: l) s = call o [.retCount ret len] s := by
  refine call_congr ((if_neg (Nat.lt_irrefl len)).trans ?_)
  rw [if_neg h]
  exact settle_calling o [.retCount ret len] _ _ s

theorem call_burstLoop_empty (o : Origin) (dst : Dst) (k : Nat) (ret : Ret) (l : List Stmt) (s : State) :
    call o (.burstLoop dst k 0 ret :: l) s = call o [.retCount ret 0] { s with status := some .success } :=
  call_congr (settle_calling o [.retCount ret 0] _ _ { s with status := some .success })

/-- The burst of `sock.recv` is followed by a STOP (R252). -/
theorem call_retCount_recv {s : State} (h : s.status = some .success) (o : Origin) (next : Ret) (n : Nat)
    (l : List Stmt) : call o (.retCount (.recv next) n :: l) s = call o (stopAndReturn next n) s :=
  call_congr (if_pos h)

/-- A frame of `rfa.write` that went out is followed by the next byte's (R284). -/
theorem call_retCount_frame {total len : Nat} (h : total + 1 < len) (o : Origin) (off : Nat) (src : Buf)
    (l : List Stmt) (s : State) :
    call o (.retCount (.frame off src total len) 2 :: l) s = call o [.frame off src (total + 1) len] s :=
  call_congr (by simp only [settle, returnTo, if_pos h, if_true]; rfl)

/-- The select frame of `rfa.read` that went out is followed by the read (R285). -/
theorem call_retCount_select (o : Origin) (dst : Dst) (len : Nat) (next : Ret) (l : List Stmt) (s : State) :
    call o (.retCount (.select dst len next) 1 :: l) s = call o (recvBody s.sockAddr dst len next) s :=
  call_congr (by simp only [settle, returnTo, ne_eq, not_true, if_false]; rfl)

theorem call_retCount_select_failed {n : Nat} (h : n ≠ 1) (o : Origin) (dst : Dst) (len : Nat) (next : Ret)
    (l : List Stmt) (s : State) :
    call o (.retCount (.select dst len next) n :: l) s = call o [.retCount next 0] s :=
  call_congr ((if_pos h).trans (settle_calling o [.retCount next 0] _ _ s))

/-- A candidate that does not answer is followed by the next one (R253). -/
theorem call_retCount_probe {s : State} (h : s.status ≠ some .success) (o : Origin) (a b : Nat) (rest : List Nat)
    (n : Nat) (l : List Stmt) :
    call o (.retCount (.probe a (b :: rest)) n :: l) s = call o [.probeTry b rest] s :=
  call_congr (if_neg h)

-- the last return

/-- The procedure gives this value back and is over. -/
def returned (v : Value) (s : State) : State := { s with results := s.results ++ [v], running := none }

theorem call_returned {o : Origin} {l : List Stmt} {s : State} {v : Value}
    (h : settle l (calling o l s) = finish (some v) (calling o l s)) : call o l s = .next (returned v s) := by
  simp only [call, resume]
  simp only [calling] at h
  rw [h]
  rfl

theorem call_retCount_top (o : Origin) (n : Nat) (l : List Stmt) (s : State) :
    call o (.retCount .top n :: l) s = .next (returned (.count n) s) := rfl

theorem call_retCount_burst {s : State} {st : TStatus} (h : s.status = some st) (o : Origin) (n : Nat)
    (l : List Stmt) : call o (.retCount .burst n :: l) s = .next (returned (.burst st n) s) :=
  call_returned (congrArg (fun x : Option TStatus => finish (x.map (fun t => Value.burst t n)) _) h)

theorem call_retCount_frame_last {total len : Nat} (h : ¬total + 1 < len) (o : Origin) (off : Nat) (src : Buf)
    (l : List Stmt) (s : State) :
    call o (.retCount (.frame off src total len) 2 :: l) s = .next (returned (.count (total + 1)) s) :=
  call_returned (by simp only [settle, returnTo, if_neg h, if_true])

theorem call_retCount_frame_failed {n : Nat} (h : n ≠ 2) (o : Origin) (off : Nat) (src : Buf) (total len : Nat)
    (l : List Stmt) (s : State) :
    call o (.retCount (.frame off src total len) n :: l) s = .next (returned (.count total) s) :=
  call_returned (if_neg h)

theorem call_retCount_probe_found {s : State} (h : s.status = some .success) (o : Origin) (a : Nat) (rest : List Nat)
    (n : Nat) (l : List Stmt) :
    call o (.retCount (.probe a rest) n :: l) s = .next (returned (.found a) s) :=
  call_returned (if_pos h)

theorem call_retCount_probe_none {s : State} (h : s.status ≠ some .success) (o : Origin) (a n : Nat) (l : List Stmt) :
    call o (.retCount (.probe a []) n :: l) s = .next (returned .noneFound s) :=
  call_returned (if_neg h)

/-- The bytes of a field, once all are there, are unpacked (R286). -/
theorem call_retCount_field {s : State} {i : Nat} {f : Field} (h : s.cfg.map[i]? = some f) (o : Origin) (n : Nat)
    (l : List Stmt) :
    call o (.retCount (.field i n) n :: l) s = .next (returned (.field (some (unpackField f s.scratch))) s) := by
  have named : (s.cfg.map[i]?).map (fun f => unpackField f s.scratch) = some (unpackField f s.scratch) := by
    rw [h, Option.map_some]
  exact call_returned ((if_neg (not_not_intro rfl)).trans (congrArg (fun x => finish (some (.field x)) _) named))

-- going on

theorem Finishes.of_call {o : Origin} {l l' : List Stmt} {s s' u : State} (h : call o l s = call o l' s')
    (g : Finishes o l' s' u) : Finishes o l s u :=
  have ⟨ms, t, hc, hl⟩ := g
  ⟨ms, t, h.trans hc, hl⟩

theorem finishes_of_call {o : Origin} {l : List Stmt} {s u : State} (h : call o l s = .next u) : Finishes o l s u :=
  ⟨[], runs_call h⟩

end Sys2Proof.Proofs
end

section
/-! The accesses of the procedures and the operations they start (spec/41_controller_steps.md R162 to R169, spec/42 to 44):
one host step for each access, and the moves by which the controller carries an operation out. -/

namespace Sys2Proof.Proofs

open Sys2Proof.Machine Sys2Proof.Safety

-- accesses

theorem call_wr {r : Reg} {v : Word} {s t : State} (h : wrReg r v s = .next t) (o : Origin) (l : List Stmt) :
    call o (.wr r v :: l) s = .next (left o l t) :=
  call_of_access (l' := []) rfl (by rw [access, accessWrite, h]; rfl)

/-- A statement whose access is a write stands for the write and what follows it. -/
theorem call_accessWrite {o : Origin} {st : Stmt} {r : Reg} {v : Word} {next : List Stmt} {s s' t : State}
    (hp : isPure st = false) (h : access o st s = accessWrite r v next s') (hw : wrReg r v s' = .next t) (l : List Stmt) :
    call o (st :: l) s = call o (.wr r v :: (next ++ l)) s' :=
  (call_of_access hp (h.trans (by rw [accessWrite, hw]; rfl))).trans (call_wr hw o (next ++ l)).symm

/-- A write before an access. -/
theorem call_write {r : Reg} {v : Word} {s t : State} {l : List Stmt} (hl : atAccess l = true) (o : Origin)
    (h : wrReg r v s = .next t) : call o (.wr r v :: l) s = .next (inside o l t) :=
  (call_wr h o l).trans (congrArg Host.Outcome.next (left_atAccess hl o t))

theorem call_await_left {r : Reg} {mask : Word} {set : Bool} {s : State} (h : (rdReg r s.ctrl &&& mask != 0#32) = set)
    (o : Origin) (l : List Stmt) : call o (.await r mask set :: l) s = .next (left o l s) :=
  call_of_access (l' := []) rfl (congrArg (fun next => Host.Outcome.next (s, next)) (if_pos h))

theorem call_awaitSysop {s : State} (h : s.ctrl.sysop = false) (o : Origin) (l : List Stmt) :
    call o (awaitSync .sysop :: l) s = .next (left o l s) :=
  call_await_left ((poll_syncbusy s.ctrl .sysop).trans h) o l

/-- The status a phase ends with, read from STATUS (R302). -/
def phaseEnd (nack : TStatus) (c : Ctrl) : TStatus :=
  if c.buserr then .other else if c.rxnack then nack else .success

theorem call_phase (o : Origin) (nack : TStatus) (l : List Stmt) (s : State) :
    call o (.phase nack :: l) s = .next (left o (.setStatus (phaseEnd nack s.ctrl) :: l) s) :=
  call_of_access rfl (access_phase o nack s)

/-- A procedure goes on after a phase with the status set. -/
theorem finishes_phase {o : Origin} {nack : TStatus} {l : List Stmt} {s u : State}
    (g : Finishes o l { s with status := some (phaseEnd nack s.ctrl) } u) : Finishes o (.phase nack :: l) s u :=
  (runs_call (call_phase o nack l s)).finishes (.of_call (call_setStatus o _ l s) g)

-- moves of the controller while the procedure waits

theorem onTurn_inside (o : Origin) (l : List Stmt) (m : Move) (n : Nat) (s : State) :
    onTurn m n (inside o l s) = placed (place o l) m (s.tick + n) s := rfl

theorem fireSysop_placed (p : Option Running) (m : Move) (n : Nat) (s : State) :
    fireSysop (placed p m n s) = placed p m n (fireSysop s) := by
  have same : (placed p m n s).ctrl = s.ctrl := rfl
  simp only [fireSysop, same]
  split <;> rfl

/-- An update that the environment does not see. -/
structure Unseen (g : State → State) : Prop where
  env : ∀ s, (g s).env = s.env
  trace : ∀ s, (g s).trace = s.trace
  comm : ∀ s e, { g s with env := e } = g { s with env := e }

section Draws

variable {g : State → State} (hg : Unseen g)
include hg

theorem drawHeader_unseen (h : Byte) (s : State) : drawHeader h (g s) = ((drawHeader h s).1, g (drawHeader h s).2) := by
  have env := hg.env s
  cases he : s.env with
  | oracle => simp only [drawHeader, env, he, hg.trace]
  | sim t =>
    simp only [drawHeader, env, he]
    exact congrArg (_, ·) (hg.comm s _)

theorem drawData_unseen (b : Byte) (s : State) : drawData b (g s) = ((drawData b s).1, g (drawData b s).2) := by
  have env := hg.env s
  cases he : s.env with
  | oracle => simp only [drawData, env, he, hg.trace]
  | sim t =>
    cases hd : simData t b with
    | none => simp only [drawData, env, he, hd, hg.trace]
    | some x =>
      simp only [drawData, env, he, hd]
      exact congrArg (_, ·) (hg.comm s _)

theorem drawByte_unseen (s : State) : drawByte (g s) = ((drawByte s).1, g (drawByte s).2) := by
  have env := hg.env s
  cases he : s.env with
  | oracle => simp only [drawByte, env, he, hg.trace]
  | sim t =>
    cases hd : simByte t with
    | none => simp only [drawByte, env, he, hd, hg.trace]
    | some x =>
      simp only [drawByte, env, he, hd]
      exact congrArg (_, ·) (hg.comm s _)

end Draws

theorem unseen_placed (p : Option Running) (m : Move) (n : Nat) : Unseen (placed p m n) :=
  ⟨fun _ => rfl, fun _ => rfl, fun _ _ => rfl⟩

theorem byteIn_placed (p : Option Running) (m : Move) (n : Nat) (s : State) :
    byteIn (placed p m n s) = placed p m n (byteIn s) := by
  simp only [byteIn, drawByte_unseen (unseen_placed p m n)]
  obtain ⟨a, u⟩ := drawByte s
  cases a <;> rfl

theorem headerOut_placed (h : Byte) (p : Option Running) (m : Move) (n : Nat) (s : State) :
    headerOut h (placed p m n s) = placed p m n (headerOut h s) := by
  simp only [headerOut, drawHeader_unseen (unseen_placed p m n)]
  obtain ⟨a, u⟩ := drawHeader h s
  cases a with
  | busErr => rfl
  | nack => rfl
  | ack =>
    simp only
    split
    · exact byteIn_placed p m n { u with
        ctrl := { u.ctrl with rxnack := false, busstate := .owner, dir := h.getLsbD 0 }, trace := u.trace ++ [.hdr h .ack] }
    · rfl

theorem fireTx_placed (b : Byte) (p : Option Running) (m : Move) (n : Nat) (s : State) :
    fireTx b (placed p m n s) = placed p m n (fireTx b s) := by
  simp only [fireTx, drawData_unseen (unseen_placed p m n)]
  obtain ⟨a, u⟩ := drawData b s
  cases a <;> rfl

/-- A bus step sees neither where the host stands nor the step count. -/
theorem fireBus_placed (p : Option Running) (m : Move) (n : Nat) (s : State) :
    fireBus (placed p m n s) = placed p m n (fireBus s) := by
  have same : (placed p m n s).ctrl = s.ctrl := rfl
  simp only [fireBus, same]
  split
  · rfl
  · rw [fireAddr_eq, fireAddr_eq]
    exact congrArg endOp (headerOut_placed _ p m n (driven (s.trace ++ otherAck s.ctrl ++ [startEvent s.ctrl]) s))
  · exact fireTx_placed _ p m n s
  · rw [fireReadContinue_eq, fireReadContinue_eq]
    exact congrArg endCmd (byteIn_placed p m n (driven (s.trace ++ continueAck s.ctrl) s))
  · rw [fireRepeatStart_eq, fireRepeatStart_eq]
    exact congrArg endCmd (headerOut_placed _ p m n (driven (s.trace ++ otherAck s.ctrl ++ [.rstart]) s))
  · rw [fireStop_eq, fireStop_eq]
    rfl

theorem leads_sysopSync {s : State} (hs : s.ctrl.sysop = true) (hp : s.ctrl.pend ≠ none) (he : s.ctrl.en = true)
    (hr : s.ctrl.syncSwrst = false) (hc : s.clk = true) (o : Origin) (l : List Stmt) :
    Leads [.sysopSync] (inside o l s) (inside o l (fireSysop s)) := by
  refine leads_agent nofun fun n => ?_
  have on : enabled .sysopSync (onTurn .sysopSync n (inside o l s)) = true :=
    (enabled_sysopSync_iff _).2 ⟨hs, hp, he, hr, hc⟩
  rw [agentMove, if_pos on, fire, onTurn_inside, fireSysop_placed]
  simp only [fireSysop]
  split <;> rfl

/-- The environment holds off no bus step, whatever the step count. -/
def Calm (s : State) : Prop := ∀ n, stalled { s with tick := n } = false

theorem calm_sim {s : State} {t : SimTarget} (h : s.env = .sim t) : Calm s := fun n => by
  rw [stalled, show ({ s with tick := n } : State).env = .sim t from h]

theorem leads_bus {s : State} (hw : BusWaits s) (calm : Calm s) (o : Origin) (l : List Stmt) :
    Leads [.bus] (inside o l s) (inside o l (fireBus s)) := by
  refine leads_agent nofun fun n => ?_
  have noStall : stalled (onTurn .bus n (inside o l s)) = false :=
    (stalled_congr (s := { s with tick := s.tick + n }) rfl rfl rfl).trans (calm _)
  have on : enabled .bus (onTurn .bus n (inside o l s)) = true :=
    (enabled_bus_iff _).2 ⟨⟨hw.ready, hw.en, hw.clk, hw.swrst⟩, noStall⟩
  have tick : (fireBus s).tick = s.tick := by
    obtain ⟨c, e, es, h⟩ := fire_frame .bus s
    rw [show fireBus s = _ from h]
  rw [agentMove, if_pos on, fire, onTurn_inside, onTurn_inside, fireBus_placed, tick]

theorem byteIn_sim {s : State} {t : SimTarget} (henv : s.env = .sim t) (ha : t.addressed = true)
    (hr : t.reading = true) :
    byteIn s = { s with
      env := .sim { t with ptr := t.ptr + 1#8 }, trace := s.trace ++ [.rx (simReg t t.ptr)]
      ctrl := { s.ctrl with data := simReg t t.ptr, ackpend := true, sb := true } } := by
  simp only [byteIn, drawByte_sim henv ha hr]

-- the operations a procedure starts

/-- The controller once a command has been started on the wire (R166). -/
def commanded (k : BusCmd) (c : Ctrl) : Ctrl :=
  { c with mb := false, sb := false, pend := none, sysop := true, busop := some (.cmd k) }

/-- A command's two host steps, its SYSOP step and its bus step (R166 to R169, R226). -/
theorem runs_command {c : Cmd} {k : BusCmd} {s : State} {l : List Stmt} (hl : atAccess l = true) (hs : CanStart s)
    (hc : s.clk = true) (calm : Calm s)
    (hw : wrReg .ctrlb (rmwValue (rdReg .ctrlb s.ctrl) cmdMask (cmdWord c)) s =
      .next { s with ctrl := startOp (.cmd k) s.ctrl }) (o : Origin) :
    Runs o (issueCmd c :: l) [.host, .sysopSync, .bus] s
      (inside o l (fireBus { s with ctrl := commanded k s.ctrl })) := by
  have written : Leads [.host] (inside o (.wr .ctrlb _ :: l) s) (inside o l _) := leads_write hl o hw
  have synced := leads_sysopSync (s := { s with ctrl := startOp (.cmd k) s.ctrl }) rfl nofun hs.en hs.sync.swrst hc o l
  have done := leads_bus (s := { s with ctrl := commanded k s.ctrl }) ⟨rfl, hs.en, hc, hs.sync.swrst⟩ calm o l
  exact (runs_call (call_rmw ..)).append (written.append (synced.append done))

theorem wrReg_stop {s : State} (hs : CanStart s) :
    wrReg .ctrlb (rmwValue (rdReg .ctrlb s.ctrl) cmdMask (cmdWord .stop)) s =
      .next { s with ctrl := startOp (.cmd .stop) s.ctrl } := by
  obtain ⟨hcmd, -, hack⟩ := rmw_ctrlb_cmd s.ctrl .stop
  rw [rdReg, wrReg_ctrlb _ s .stop hcmd, execWrCtrlbStop_eq_next, hack]
  exact ⟨hs, rfl⟩

theorem wrReg_readContinue {s : State} (hs : CanStart s) (hp : s.ctrl.ackpend = true)
    (hack : s.ctrl.smen = true ∨ s.ctrl.ackact = .ack) :
    wrReg .ctrlb (rmwValue (rdReg .ctrlb s.ctrl) cmdMask (cmdWord .readContinue)) s =
      .next { s with ctrl := startOp (.cmd .readContinue) s.ctrl } := by
  obtain ⟨hcmd, -, hkeep⟩ := rmw_ctrlb_cmd s.ctrl .readContinue
  rw [rdReg, wrReg_ctrlb _ s .readContinue hcmd, execWrCtrlbReadContinue_eq_next, hkeep]
  refine ⟨⟨hs, hp, ?_⟩, rfl⟩
  rintro ⟨hsmen, hbit⟩
  rw [hbit] at hkeep
  rcases hack with h | h
  · exact ne_true_of_eq_false hsmen h
  · exact nomatch hkeep.trans h

theorem wrReg_repeatStart {s : State} (hs : CanStart s) (ho : s.ctrl.busstate = .owner) :
    wrReg .ctrlb (rmwValue (rdReg .ctrlb s.ctrl) cmdMask (cmdWord .repeatStart)) s =
      .next { s with ctrl := startOp (.cmd .repeatStart) s.ctrl } := by
  obtain ⟨hcmd, -, hack⟩ := rmw_ctrlb_cmd s.ctrl .repeatStart
  rw [rdReg, wrReg_ctrlb _ s .repeatStart hcmd, execWrCtrlbRepeatStart_eq_next, writeAckPolicy, if_pos hs.en, hack]
  exact ⟨⟨hs, ho⟩, rfl⟩

/-- The state once the target's next byte has been taken in a read phase (R167). -/
def received (t : SimTarget) (s : State) : State :=
  { s with
    ctrl := { s.ctrl with mb := false, sb := true, data := simReg t t.ptr }
    trace := s.trace ++ [.mack .ack, .rx (simReg t t.ptr)]
    env := .sim { t with ptr := t.ptr + 1#8 } }

theorem fireBus_readContinue {s : State} {t : SimTarget} (hp : ReadPhase s t)
    (hack : s.ctrl.smen = true ∨ s.ctrl.ackact = .ack) :
    fireBus { s with ctrl := commanded .readContinue s.ctrl } = received t s := by
  have ack : continueAck (commanded .readContinue s.ctrl) = [.mack .ack] := by
    refine (if_pos hp.ackpend).trans (congrArg (fun a => [BusEvent.mack a]) (ite_eq_left_iff.2 fun h => ?_))
    exact hack.resolve_left h
  have acked : fireBus { s with ctrl := commanded .readContinue s.ctrl } =
      endCmd (byteIn (driven (s.trace ++ [.mack .ack]) { s with ctrl := commanded .readContinue s.ctrl })) := by
    rw [← ack]
    exact fireReadContinue_eq _
  have taken := byteIn_sim (s := driven (s.trace ++ [.mack .ack]) { s with ctrl := commanded .readContinue s.ctrl })
    hp.env hp.addressed hp.reading
  rw [acked, taken]
  simp only [received, driven, commanded, endCmd, List.append_assoc, List.singleton_append, hp.start.sysop, hp.start.busop,
    hp.pend, hp.ackpend]

/-- The state once an address phase has been started on the wire (R162). -/
def opened (h : Byte) (s : State) : State :=
  { s with ctrl := { s.ctrl with
      hdr := h, buserr := false, mb := false, sb := false, busop := some (.addr h), sysop := false, pend := none } }

theorem wrReg_header {s : State} (hs : CanStart s) (h : Byte) :
    wrReg .addr (h.setWidth 32) s =
      .next { s with ctrl := startOp (.addr h) { s.ctrl with hdr := h, buserr := false } } := by
  rw [wrReg_addr, execWrAddr_eq_next, byte_setWidth_extract]
  exact ⟨hs, rfl⟩

/-- An address phase: the ADDR write, the SYSOP step, the host's wait for it, and the bus step (R164, R222). -/
theorem runs_address {s : State} {l : List Stmt} (hl : atAccess l = true) (free : BusFree s) (calm : Calm s) (h : Byte)
    (o : Origin) :
    Runs o (writeHeader h :: awaitSync .sysop :: l) [.sysopSync, .host, .bus] s
      (inside o l (fireAddr h (opened h s))) := by
  have written := call_write (l := awaitSync .sysop :: l) rfl o (wrReg_header free.start h)
  have synced := leads_sysopSync
    (s := { s with ctrl := startOp (.addr h) { s.ctrl with hdr := h, buserr := false } })
    rfl nofun free.start.en free.start.sync.swrst free.clk o (awaitSync .sysop :: l)
  have waited : Leads [.host] (inside o (awaitSync .sysop :: l) (opened h s)) (inside o l (opened h s)) :=
    leads_awaitSync hl o (poll_syncbusy _ .sysop)
  have ready : busReady (opened h s).ctrl = true := (busReady_iff _).2 ⟨nofun, fun _ => free.bus⟩
  have done := leads_bus (s := opened h s) ⟨ready, free.start.en, free.clk, free.start.sync.swrst⟩ calm o l
  exact (runs_call written).append (synced.append (waited.append done))

/-- The state once a byte's transmission has been started on the wire (R162). -/
def loaded (b : Byte) (s : State) : State :=
  { s with ctrl := { s.ctrl with
      data := b, mb := false, sb := false, busop := some (.tx b), sysop := false, pend := none } }

theorem wrReg_byte {s : State} (hp : WritePhase s) (b : Byte) :
    wrReg .data (b.setWidth 32) s = .next { s with ctrl := startOp (.tx b) { s.ctrl with data := b } } := by
  rw [wrReg_data, execWrData_eq_next]
  exact ⟨⟨hp.start, hp.owner, hp.dir, hp.ackpend⟩, rfl⟩

/-- A byte's transmission: the DATA write, the SYSOP step and the bus step (R165, R223). -/
theorem runs_transmit {s : State} {l : List Stmt} (hl : atAccess l = true) (hp : WritePhase s) (calm : Calm s) (b : Byte)
    (o : Origin) :
    Runs o (.wr .data (b.setWidth 32) :: l) [.sysopSync, .bus] s (inside o l (fireTx b (loaded b s))) := by
  have written := call_write hl o (wrReg_byte hp b)
  have synced := leads_sysopSync (s := { s with ctrl := startOp (.tx b) { s.ctrl with data := b } })
    rfl nofun hp.start.en hp.start.sync.swrst hp.clk o l
  have done := leads_bus (s := loaded b s) ⟨rfl, hp.start.en, hp.clk, hp.start.sync.swrst⟩ calm o l
  exact (runs_call written).append (synced.append done)

end Sys2Proof.Proofs
end

section
/-! Procedures of one operation (spec/42_controller_common.md R200 to R202, spec/43_primary_engine.md R223, R226), with every
environment that answers. -/

namespace Sys2Proof.Proofs

open Sys2Proof.Machine Sys2Proof.Safety

theorem completes_of_eq {i : Instr} {ms : List Move} {s u v : State} (h : Completes i ms s u) (huv : u = v) :
    Completes i ms s v := huv ▸ h

theorem leads_of_eq {ms : List Move} {s t u v : State} (h : Leads ms s u) (hst : s = t) (huv : u = v) :
    Leads ms t v := hst ▸ huv ▸ h

-- CTRLA.ENABLE and its synchronisation (R161, R201, R202)

/-- A move that is not enabled only takes its turn. -/
theorem leads_not_enabled {m : Move} {s : State} (hm : m ≠ .host) (h : ∀ n, ¬enabled m (onTurn m n s) = true) :
    Leads [m] s s :=
  leads_agent hm fun n => if_neg (h n)

/-- The ENABLE step where it disables (R161). -/
theorem leads_enableSync_disables {s : State} (hs : s.ctrl.syncEnable = true) (hr : s.ctrl.syncSwrst = false)
    (hc : s.clk = true) (he : s.ctrl.en = true) (hn : s.ctrl.enable = false) (o : Origin) (l : List Stmt) :
    Leads [.enableSync] (inside o l s) (inside o l (fireEnable s)) := by
  refine leads_agent nofun fun n => ?_
  have on : enabled .enableSync (onTurn .enableSync n (inside o l s)) = true := (enabled_enableSync_iff _).2 ⟨hs, hr, hc⟩
  rw [agentMove, if_pos on, fire, fireEnable_of_disables (s := onTurn .enableSync n (inside o l s)) he hn,
    fireEnable_of_disables he hn]
  rfl

/-- The write with which `bcc.disable` clears ENABLE (R202). -/
theorem wrReg_clearEnable {s : State} (hs : NoSync s.ctrl) :
    wrReg .ctrla (rmwValue (rdReg .ctrla s.ctrl) 0x3#32 0x0#32) s =
      .next { s with ctrl := { s.ctrl with enable := false, syncEnable := s.ctrl.enable } } := by
  have hswrst := rmw_ctrla_swrst s.ctrl 0x3#32 0x0#32 rfl rfl
  rw [rdReg, wrReg_config _ s hswrst, execWrCtrlaConfig_eq_next, configCtrla_disable, hs.enable, Bool.false_or]
  exact ⟨hs, rfl⟩

/-- The two host steps with which `bcc.disable` clears ENABLE (R202). -/
theorem runs_clearEnable {s : State} (hs : NoSync s.ctrl) (o : Origin) :
    Runs o [.rmw .ctrla 0x3#32 0x0#32, awaitSync .enable] [.host] s (inside o [awaitSync .enable]
      { s with ctrl := { s.ctrl with enable := false, syncEnable := s.ctrl.enable } }) :=
  (runs_call (call_rmw ..)).append (leads_write rfl o (wrReg_clearEnable hs))

/-- `bcc.enable` up to its synchronisation, of a controller that may be enabled already (R201). -/
theorem runs_setEnable {s : State} {l : List Stmt} (hl : atAccess l = true) (hs : NoSync s.ctrl) (hc : s.clk = true)
    (hen : s.ctrl.en = s.ctrl.enable) (o : Origin) :
    Runs o (.rmw .ctrla 0x1#32 0x2#32 :: awaitSync .enable :: l) [.host, .enableSync, .host] s (inside o l
      { s with ctrl := { s.ctrl with
          enable := true, en := true, busstate := if s.ctrl.enable then s.ctrl.busstate else .unknown } }) := by
  have asked := (runs_call (call_rmw ..)).append (leads_write (l := awaitSync .enable :: l) rfl o (wrReg_setEnable hs))
  refine asked.append (ns := [.enableSync, .host]) ?_
  cases he : s.ctrl.enable with
  | true =>
    have still : Leads [.enableSync] _ _ := leads_not_enabled
      (s := inside o (awaitSync .enable :: l) { s with ctrl := { s.ctrl with enable := true, syncEnable := false } })
      nofun fun n => by simp [enabled, onTurn, inside]
    have waited := still.append (leads_awaitSync hl o (poll_syncbusy _ .enable))
    exact leads_of_eq waited rfl (by simp only [if_true, hs.enable, hen, he])
  | false =>
    have synced := leads_enableSync (s := { s with ctrl := { s.ctrl with enable := true, syncEnable := true } })
      rfl hs.swrst hc nofun o (awaitSync .enable :: l)
    have waited := synced.append (leads_awaitSync hl o (poll_syncbusy _ .enable))
    exact leads_of_eq waited rfl (by simp only [Bool.false_eq_true, if_false, hs.enable])

-- the byte of `eng.send_data_sync` (R223)

/-- A byte's transmission that the environment answers with `a`, becoming `e`, up to the host's wait for MB. -/
theorem runs_sentByte {s : State} {l : List Stmt} (hl : atAccess l = true) (hp : WritePhase s) (calm : Calm s) {b : Byte}
    {a : AckDraw} {e : BusEnv} (draw : drawData b s = (a, { s with env := e })) (o : Origin) :
    Runs o (.wr .data (b.setWidth 32) :: awaitFlag .mb :: l) [.sysopSync, .bus, .host] s
      (inside o l (byteOut b a e (loaded b s))) := by
  have drawn : drawData b (loaded b s) = (a, { loaded b s with env := e }) := by
    have same := drawData_congr b (s := s) (u := loaded b s) rfl rfl
    rwa [draw] at same
  have flag : (rdReg .intflag (byteOut b a e (loaded b s)).ctrl &&& readyMask .mb != 0#32) = true := by
    rw [poll_intflag]
    cases a <;> rfl
  have sent := runs_transmit (l := awaitFlag .mb :: l) rfl hp calm b o
  rw [fireTx_eq drawn] at sent
  exact sent.append (leads_await hl o flag)

-- commands (R226)

theorem wrReg_noop {s : State} (hs : NoSync s.ctrl) (hop : s.ctrl.sysop = false) (hb : s.ctrl.busop = none) :
    wrReg .ctrlb (rmwValue (rdReg .ctrlb s.ctrl) cmdMask (cmdWord .noop)) s = .next s := by
  obtain ⟨hcmd, hsmen, hack⟩ := rmw_ctrlb_cmd s.ctrl .noop
  rw [rdReg, wrReg_ctrlb _ s .noop hcmd, execWrCtrlbNoop_eq_next, writeAckPolicy, hsmen, hack, ite_self]
  exact ⟨⟨hs, hop, hb⟩, rfl⟩

theorem unseen_endCmd : Unseen endCmd := ⟨fun _ => rfl, fun _ => rfl, fun _ _ => rfl⟩

theorem byteIn_endCmd (s : State) : byteIn (endCmd s) = endCmd (byteIn s) := by
  simp only [byteIn, drawByte_unseen unseen_endCmd]
  obtain ⟨a, u⟩ := drawByte s
  cases a <;> rfl

/-- What a header leads to does not depend on the operation it is sent for. -/
theorem headerOut_endCmd (h : Byte) (s : State) : headerOut h (endCmd s) = endCmd (headerOut h s) := by
  simp only [headerOut, drawHeader_unseen unseen_endCmd]
  obtain ⟨a, u⟩ := drawHeader h s
  cases a with
  | busErr => rfl
  | nack =>
    have same : (endCmd u).cfg = u.cfg := rfl
    by_cases flag : h.getLsbD 0 = true ∧ u.cfg.readNackFlag = .sb
    · simp only [same, if_pos flag]
      rfl
    · simp only [same, if_neg flag]
      rfl
  | ack =>
    simp only
    split
    · exact byteIn_endCmd { u with
        ctrl := { u.ctrl with rxnack := false, busstate := .owner, dir := h.getLsbD 0 }, trace := u.trace ++ [.hdr h .ack] }
    · rfl

/-- A command as `eng.send_cmd` issues and awaits it (R226). -/
theorem completes_command {c : Cmd} {k : BusCmd} {s u : State} (hs : CanStart s) (hc : s.clk = true) (calm : Calm s)
    (hw : wrReg .ctrlb (rmwValue (rdReg .ctrlb s.ctrl) cmdMask (cmdWord c)) s =
      .next { s with ctrl := startOp (.cmd k) s.ctrl })
    (hu : fireBus { s with ctrl := commanded k s.ctrl } = u) (ended : u.ctrl.sysop = false) :
    Completes (.engSendCmd c) [.host, .sysopSync, .bus, .host] s { u with running := none } := by
  subst hu
  have issued := runs_command (l := [awaitSync .sysop]) rfl hs hc calm hw (.instr (.engSendCmd c))
  exact (issued.append (leads_awaitSync (l := []) rfl _ ((poll_syncbusy _ .sysop).trans ended))).completes rfl

-- the obligations

/-- Settles O35: the SWRST write, its step, and the host's wait for it. -/
theorem bccResetCompletes : Obligations.BccResetCompletes := by
  intro s hc
  have asked := runs_call (call_write (l := [awaitSync .swrst]) rfl (.instr .bccReset) (wrReg_swrst s))
  have synced := leads_swrstSync (s := { s with ctrl := { s.ctrl with syncSwrst := true } }) rfl hc
    (.instr .bccReset) [awaitSync .swrst]
  have waited := synced.append (leads_awaitSync (l := []) rfl (.instr .bccReset) (poll_syncbusy _ .swrst))
  exact (asked.append waited).completes rfl

/-- Settles O36: the ENABLE write and its synchronisation, and, for `bcc.enable`, the force-IDLE. -/
theorem bccEnableAndDisableComplete : Obligations.BccEnableAndDisableComplete := by
  intro s hs hc hen
  refine ⟨fun hm hsda hscl hop hb => ?_, fun he => ?_, fun he => ?_⟩
  · have enable := runs_setEnable (l := [.wr .status 0x0010#32, awaitSync .sysop]) rfl hs hc hen (.instr .bccEnable)
    have idle := leads_forceIdle (l := []) (s := { s with ctrl := { s.ctrl with
      enable := true, en := true, busstate := if s.ctrl.enable then s.ctrl.busstate else .unknown } })
      rfl ⟨⟨hs.swrst, hs.enable⟩, hop, hb, rfl, hm, hsda, hscl⟩ hc (.instr .bccEnable)
    have done := (enable.append idle).completes (i := .bccEnable) rfl
    exact completes_of_eq done (by simp only [hop]; rfl)
  · have asked := runs_clearEnable hs (.instr .bccDisable)
    have synced := leads_enableSync_disables
      (s := { s with ctrl := { s.ctrl with enable := false, syncEnable := s.ctrl.enable } })
      (hen ▸ he) hs.swrst hc he rfl (.instr .bccDisable) [awaitSync .enable]
    rw [fireEnable_of_disables (by exact he) rfl] at synced
    have waited := synced.append (leads_awaitSync (l := []) rfl (.instr .bccDisable) (poll_syncbusy _ .enable))
    have done := (asked.append waited).completes (i := .bccDisable) rfl
    exact completes_of_eq done (by simp only [hs.enable]; rfl)
  · have asked := runs_clearEnable hs (.instr .bccDisable)
    have still : Leads [.enableSync] _ _ := leads_not_enabled
      (s := inside (.instr .bccDisable) [awaitSync .enable]
        { s with ctrl := { s.ctrl with enable := false, syncEnable := s.ctrl.enable } })
      nofun fun n => by simp [enabled, onTurn, inside, ← hen, he]
    have waited := still.append (leads_awaitSync (l := []) rfl (.instr .bccDisable)
      ((poll_syncbusy _ .enable).trans (hen ▸ he)))
    have done := (asked.append waited).completes (i := .bccDisable) rfl
    refine completes_of_eq done ?_
    have off : s.ctrl.enable = false := hen ▸ he
    have kept : ({ s.ctrl with enable := false, syncEnable := s.ctrl.enable } : Ctrl) = s.ctrl := by
      rw [show s.ctrl.enable = s.ctrl.syncEnable from off.trans hs.enable.symm, ← off]
    rw [kept]
    rfl

/-- Settles O42: whatever the answer, MB ends the wait, and the status is the answer's (`phaseEnd`). -/
theorem sendDataSyncCompletes : Obligations.SendDataSyncCompletes := by
  intro s b hp calm hbuserr
  obtain ⟨a, e, draw⟩ := drawData_frame b s
  refine ⟨a, e, draw, ?_⟩
  have sent := runs_sentByte (l := [.phase .dataNack, .retCount .status 0]) rfl hp calm draw
    (.instr (.engSendDataSync b))
  have ended := runs_call (call_phase (.instr (.engSendDataSync b)) .dataNack [.retCount .status 0]
    (byteOut b a e (loaded b s)))
  have done := (sent.append ended.leads).completes (i := .engSendDataSync b) rfl
  refine completes_of_eq done ((leave_setStatus_return _ 0 [] _).trans ?_)
  cases a <;> simp [statusReturned, byteOut, loaded, phaseEnd, calling, hbuserr, hp.start.sysop, hp.start.busop, hp.ackpend]

/-- Settles O45: NOOP is two host steps, and every other command its write, its SYSOP step and its bus step
(`completes_command`). -/
theorem sendCmdCompletes : Obligations.SendCmdCompletes := by
  intro s
  refine ⟨fun hs hop hb => ?_, fun t hs hc henv => ?_, fun t hp hack => ?_, fun t hs hc henv howner => ?_⟩
  · have issued := (runs_call (call_rmw ..)).append
      (leads_write (l := [awaitSync .sysop]) rfl (.instr (.engSendCmd .noop)) (wrReg_noop hs hop hb))
    exact (issued.append (leads_awaitSync (l := []) rfl _ ((poll_syncbusy _ .sysop).trans hop))).completes rfl
  · exact completes_of_eq (completes_command hs hc (calm_sim henv) (wrReg_stop hs) (fireStop_eq _) rfl)
      (by simp only [hs.sysop, hs.busop]; rfl)
  · exact completes_command hp.start hp.clk (calm_sim hp.env) (wrReg_readContinue hp.start hp.ackpend hack)
      (fireBus_readContinue hp hack) hp.start.sysop
  · have sent := completes_command hs hc (calm_sim henv) (wrReg_repeatStart hs howner) (fireRepeatStart_eq _) rfl
    rw [← headerOut_endCmd] at sent
    refine completes_of_eq sent ?_
    simp only [hs.sysop, hs.busop]
    rfl

end Sys2Proof.Proofs
end

section
/-! Transactions with the simulated target (spec/41_controller_steps.md R176, spec/43_primary_engine.md R222, spec/44_socket.md
R251): an address phase, a byte of a write frame and a STOP, each as what it leaves of the state. -/

namespace Sys2Proof.Proofs

open Sys2Proof.Machine Sys2Proof.Safety

-- an address phase

/-- The state after an address phase with the target `t`, which the header hits or does not (R164, R176, R222); the byte that
a read header of the target's own brings is in DATA. -/
def addressed (a : BitVec 7) (r hit : Bool) (t : SimTarget) (s : State) : State :=
  { s with
    ctrl := { s.ctrl with
      hdr := header a r, buserr := false, mb := !r, sb := r, rxnack := !hit, busstate := .owner, dir := r
      ackpend := r && hit, data := if r && hit then simReg t t.ptr else s.ctrl.data, pend := none }
    trace := s.trace ++ otherAck s.ctrl ++ (startEvent s.ctrl :: .hdr (header a r) (if hit then .ack else .nack) ::
      if r && hit then [.rx (simReg t t.ptr)] else [])
    env := .sim { t with n := 0, addressed := hit, reading := r, ptr := if r && hit then t.ptr + 1#8 else t.ptr }
    status := some (if hit then .success else .addrNack) }

theorem drawHeader_hit {s : State} {t : SimTarget} {a : BitVec 7} {hit : Bool} (henv : s.env = .sim t)
    (hh : decide (a = t.addr) = hit) (r : Bool) :
    drawHeader (header a r) s = (if hit then .ack else .nack,
      { s with env := .sim { t with n := 0, addressed := hit, reading := r } }) := by
  subst hh
  simp only [drawHeader_sim henv, headerAddr_header, headerRead_header, decide_eq_true_eq]

theorem headerOut_sim {s : State} {t : SimTarget} {a : BitVec 7} {r hit : Bool} (henv : s.env = .sim t)
    (hh : decide (a = t.addr) = hit) (flag : (r && !hit) = true → s.cfg.readNackFlag = .sb) (h0 : s.ctrl.mb = false)
    (h1 : s.ctrl.sb = false) (h2 : s.ctrl.ackpend = false) :
    headerOut (header a r) s = { s with
      ctrl := { s.ctrl with
        mb := !r, sb := r, rxnack := !hit, busstate := .owner, dir := r, ackpend := r && hit
        data := if r && hit then simReg t t.ptr else s.ctrl.data }
      trace := s.trace ++ [.hdr (header a r) (if hit then .ack else .nack)] ++
        (if r && hit then [.rx (simReg t t.ptr)] else [])
      env := .sim { t with n := 0, addressed := hit, reading := r, ptr := if r && hit then t.ptr + 1#8 else t.ptr } } := by
  have dir : (header a r).getLsbD 0 = r := headerRead_header a r
  simp only [headerOut, drawHeader_hit henv hh, dir]
  cases hit with
  | false =>
    cases r with
    | false => simp [h1, h2]
    | true => simp [flag rfl, h0, h2]
  | true =>
    cases r with
    | false => simp [h1, h2]
    | true =>
      simp only [if_true]
      rw [byteIn_sim rfl rfl rfl]
      simp only [h0]
      rfl

theorem fireAddr_opened {s : State} {t : SimTarget} {a : BitVec 7} {r hit : Bool} (hs : CanStart s)
    (henv : s.env = .sim t) (hh : decide (a = t.addr) = hit)
    (flag : (r && !hit) = true → s.cfg.readNackFlag = .sb) :
    fireAddr (header a r) (opened (header a r) s) = { addressed a r hit t s with status := s.status } := by
  have sent := headerOut_sim (r := r) (s := driven (s.trace ++ otherAck s.ctrl ++ [startEvent s.ctrl])
    (opened (header a r) s)) henv hh flag rfl rfl rfl
  rw [fireAddr_eq]
  refine (congrArg endOp sent).trans ?_
  simp only [endOp, driven, opened, addressed, hs.sysop, hs.busop, List.append_assoc, List.cons_append,
    List.nil_append]

theorem runs_header {s : State} {t : SimTarget} {a : BitVec 7} {r hit : Bool} {l : List Stmt} (hl : atAccess l = true)
    (free : BusFree s) (henv : s.env = .sim t) (hh : decide (a = t.addr) = hit)
    (flag : (r && !hit) = true → s.cfg.readNackFlag = .sb) (o : Origin) :
    Runs o (writeHeader (header a r) :: awaitSync .sysop :: awaitFlag (readyOf r) :: l) [.sysopSync, .host, .bus, .host] s
      (inside o l { addressed a r hit t s with status := s.status }) := by
  have sent := runs_address (l := awaitFlag (readyOf r) :: l) rfl free (calm_sim henv) (header a r) o
  rw [fireAddr_opened free.start henv hh flag] at sent
  refine sent.append (leads_await hl o ((poll_intflag _ (readyOf r)).trans ?_))
  cases r <;> rfl

theorem addrPhase_header (a : BitVec 7) (r : Bool) :
    addrPhase (header a r) =
      [writeHeader (header a r), awaitSync .sysop, awaitFlag (readyOf r), .phase .addrNack] := by
  rw [addrPhase, headerRead_header]
  rfl

/-- A procedure goes on from an address phase. -/
theorem finishes_addrPhase {s u : State} {t : SimTarget} {a : BitVec 7} {r hit : Bool} {l : List Stmt} {o : Origin}
    (free : BusFree s) (henv : s.env = .sim t) (hh : decide (a = t.addr) = hit)
    (flag : (r && !hit) = true → s.cfg.readNackFlag = .sb) (g : Finishes o l (addressed a r hit t s) u) :
    Finishes o (addrPhase (header a r) ++ l) s u := by
  have sent := runs_header (l := .phase .addrNack :: l) rfl free henv hh flag o
  rw [addrPhase_header]
  rw [← left_atAccess rfl] at sent
  refine sent.finishes (finishes_phase ?_)
  cases hit <;> exact g

-- the obligation

/-- Settles O41: the address phase (`runs_header`), and the status with the return behind it. -/
theorem setAddrSyncCompletes : Obligations.SetAddrSyncCompletes := by
  intro s t a r free henv ha hit h byte flag
  have same : BitVec.ofNat 7 a = t.addr ↔ a = t.addr.toNat := by
    rw [← BitVec.toNat_inj, BitVec.toNat_ofNat, Nat.mod_eq_of_lt ha]
  have started : exec (.engSetAddrSync a r) s =
      call (.instr (.engSetAddrSync a r)) (addrPhase (header (BitVec.ofNat 7 a) r) ++ [.retCount .status 0]) s := by
    rw [exec, execEngSetAddrSync, makeHeader, if_pos ha]
  rw [addrPhase_header] at started
  have sent := runs_header (l := [.phase .addrNack, .retCount .status 0]) rfl free henv (decide_eq_decide.2 same) flag
    (.instr (.engSetAddrSync a r))
  have ended := runs_call (call_phase (.instr (.engSetAddrSync a r)) .addrNack [.retCount .status 0]
    { addressed (BitVec.ofNat 7 a) r hit t s with status := s.status })
  have done := (sent.append ended.leads).completes started
  refine completes_of_eq done ((leave_setStatus_return _ 0 [] _).trans ?_)
  rw [List.append_assoc (s.trace ++ otherAck s.ctrl)]
  cases hit <;> rfl

end Sys2Proof.Proofs
end

section
/-! Write frames on the simulated target (spec/44_socket.md R251): a STOP, a byte of a frame, and what whole frames leave of
the state. -/

namespace Sys2Proof.Proofs

open Sys2Proof.Machine Sys2Proof.Safety

-- the STOP at a transaction's end

/-- The state after a STOP by the bus's owner (R169). -/
def stopped (s : State) : State :=
  { s with
    ctrl := { s.ctrl with mb := false, sb := false, pend := none, ackpend := false, busstate := .idle }
    trace := s.trace ++ otherAck s.ctrl ++ [.stop] }

theorem fireBus_stop {s : State} (hs : CanStart s) (ho : s.ctrl.busstate = .owner) :
    fireBus { s with ctrl := commanded .stop s.ctrl } = stopped s := by
  have fired : fireBus { s with ctrl := commanded .stop s.ctrl } = _ := fireStop_eq _
  rw [fired]
  simp [commanded, stopped, otherAck, ho, hs.sysop, hs.busop]

/-- A transaction ends with a STOP and its count (R251, R252). -/
theorem finishes_stop {s u : State} {t : SimTarget} {o : Origin} {ret : Ret} {n : Nat} (hs : CanStart s)
    (hc : s.clk = true) (henv : s.env = .sim t) (ho : s.ctrl.busstate = .owner)
    (g : Finishes o [.retCount ret n] (stopped s) u) : Finishes o (stopAndReturn ret n) s u := by
  have sent := runs_command (l := [awaitSync .sysop, .retCount ret n]) rfl hs hc (calm_sim henv) (wrReg_stop hs) o
  rw [fireBus_stop hs ho] at sent
  have waited := (runs_call (call_awaitSysop (s := stopped s) hs.sysop o [.retCount ret n])).leads
  exact (sent.append waited).finishes g

-- a byte of a write frame

/-- A write frame of the simulated target is open. -/
structure WriteFrame (s : State) (t : SimTarget) : Prop where
  phase : WritePhase s
  env : s.env = .sim t
  buserr : s.ctrl.buserr = false

/-- The state after a byte that the target acknowledged or not, becoming `t` (R165, R223). -/
def delivered (b : Byte) (acked : Bool) (t : SimTarget) (s : State) : State :=
  { s with
    ctrl := { s.ctrl with data := b, mb := true, sb := false, rxnack := !acked, pend := none }
    trace := s.trace ++ [.tx b (if acked then .ack else .nack)]
    env := .sim t
    status := some (if acked then .success else .dataNack) }

theorem WriteFrame.delivered {s : State} {t : SimTarget} (h : WriteFrame s t) (b : Byte) (acked : Bool)
    (t' : SimTarget) : WriteFrame (delivered b acked t' s) t' :=
  have ⟨⟨⟨⟨swrst, enable⟩, sysop, busop, en, mode, sda, scl⟩, clk, owner, dir, ackpend⟩, _, buserr⟩ := h
  ⟨⟨⟨⟨swrst, enable⟩, sysop, busop, en, mode, sda, scl⟩, clk, owner, dir, ackpend⟩, rfl, buserr⟩

theorem writeFrame_addressed {s : State} (free : BusFree s) (a : BitVec 7) (hit : Bool) (t : SimTarget) :
    WriteFrame (addressed a false hit t s) { t with n := 0, addressed := hit, reading := false } :=
  have ⟨⟨⟨swrst, enable⟩, sysop, busop, en, mode, sda, scl⟩, clk, _⟩ := free
  ⟨⟨⟨⟨swrst, enable⟩, sysop, busop, en, mode, sda, scl⟩, clk, rfl, rfl, rfl⟩, rfl, rfl⟩

theorem call_wrData {s : State} {src : Buf} {k : Nat} {b : Byte} (hp : WritePhase s)
    (hb : bufRead s.mem src k = some b) (o : Origin) (l : List Stmt) :
    call o (.wrData src k :: l) s = call o (.wr .data (b.setWidth 32) :: l) s :=
  call_accessWrite (next := []) rfl (show access o (.wrData src k) s = accessWrite .data (b.setWidth 32) [] s by
    rw [access, hb]) (wrReg_byte hp b) l

/-- A procedure goes on from a byte of its frame. -/
theorem finishes_byte {s u : State} {t t' : SimTarget} {src : Buf} {k : Nat} {b : Byte} {acked : Bool} {l : List Stmt}
    {o : Origin} (hf : WriteFrame s t) (hb : bufRead s.mem src k = some b)
    (hd : simData t b = some (if acked then .ack else .nack, t')) (g : Finishes o l (delivered b acked t' s) u) :
    Finishes o (.wrData src k :: awaitFlag .mb :: .phase .dataNack :: l) s u := by
  have sent := runs_sentByte (l := .phase .dataNack :: l) rfl hf.phase (calm_sim hf.env) (drawData_sim hf.env hd) o
  rw [← left_atAccess rfl] at sent
  refine .of_call (call_wrData hf.phase hb o _) (sent.finishes (finishes_phase ?_))
  obtain ⟨⟨⟨-, sysop, busop, -⟩, -⟩, -, buserr⟩ := hf
  have same : { byteOut b (ackAnswer (if acked then .ack else .nack)) (.sim t') (loaded b s) with
      status := some (phaseEnd .dataNack
        (byteOut b (ackAnswer (if acked then .ack else .nack)) (.sim t') (loaded b s)).ctrl) } =
      delivered b acked t' s := by
    cases acked <;> simp [byteOut, ackAnswer, loaded, phaseEnd, delivered, sysop, busop, buserr]
  exact same ▸ g

/-- The payload loop goes on after an acknowledged byte. -/
theorem finishes_sendLoop {s u : State} {t t' : SimTarget} {src : Buf} {k len : Nat} {b : Byte} {ret : Ret}
    {l : List Stmt} {o : Origin} (hf : WriteFrame s t) (hk : k < len) (hb : bufRead s.mem src k = some b)
    (hd : simData t b = some (.ack, t')) (g : Finishes o (.sendLoop src (k + 1) len ret :: l) (delivered b true t' s) u) :
    Finishes o (.sendLoop src k len ret :: l) s u :=
  .of_call (call_sendLoop hk o src ret l s) (finishes_byte (acked := true) hf hb hd (.of_call (call_orRet rfl o ret k _) g))

/-- The payload loop ends the transaction at a refused byte. -/
theorem finishes_sendLoop_refused {s u : State} {t t' : SimTarget} {src : Buf} {k len : Nat} {b : Byte} {ret : Ret}
    {l : List Stmt} {o : Origin} (hf : WriteFrame s t) (hk : k < len) (hb : bufRead s.mem src k = some b)
    (hd : simData t b = some (.nack, t')) (g : Finishes o [.retCount ret k] (delivered b false t' s) u) :
    Finishes o (.sendLoop src k len ret :: l) s u :=
  .of_call (call_sendLoop hk o src ret l s)
    (finishes_byte (acked := false) hf hb hd (.of_call (call_orRet_return
      (show some TStatus.dataNack ≠ some .success from nofun) o ret k _) g))

/-- After its last byte the frame ends with a STOP. -/
theorem finishes_sendLoop_end {s u : State} {t : SimTarget} {src : Buf} {len : Nat} {ret : Ret} {o : Origin}
    (hf : WriteFrame s t) (g : Finishes o [.retCount ret len] (stopped s) u) :
    Finishes o (.sendLoop src len len ret :: stopAndReturn ret len) s u :=
  .of_call (call_sendLoop_done o src len ret _ s) (finishes_stop hf.phase.start hf.phase.clk hf.env hf.phase.owner g)

-- whole frames of `sock.send`

/-- The controller after a transaction that a STOP has ended, `b` its last byte. -/
def closedCtrl (h b : Byte) (r : Bool) (c : Ctrl) : Ctrl :=
  { c with
    hdr := h, mb := false, sb := false, buserr := false, rxnack := false, busstate := .idle, dir := r
    ackpend := false, pend := none, data := b }

/-- The state after an address phase and a STOP. -/
def probed (a : BitVec 7) (t : SimTarget) (s : State) : State :=
  { s with
    ctrl := closedCtrl (header a false) s.ctrl.data false s.ctrl
    trace := s.trace ++ otherAck s.ctrl ++ [startEvent s.ctrl, .hdr (header a false) .ack, .stop]
    env := .sim { t with n := 0, addressed := true, reading := false }, status := some .success }

/-- The statements of `sock.send` behind its address phase and the check of it. -/
def sendRest (data : Option Buf) (len : Nat) (ret : Ret) : List Stmt :=
  match data with
  | none => stopAndReturn ret 0
  | some b => .sendLoop b 0 len ret :: stopAndReturn ret len

theorem sendBody_addrPhase (a : BitVec 7) (data : Option Buf) (len : Nat) (ret : Ret) :
    sendBody a data len ret = addrPhase (header a false) ++ .orRet ret 0 :: sendRest data len ret := by
  rw [addrPhase, headerRead_header]
  cases data <;> rfl

/-- A refused address ends the transaction with 0. -/
theorem finishes_send_refused {s u : State} {t : SimTarget} {a : BitVec 7} {data : Option Buf} {len : Nat} {ret : Ret}
    {o : Origin} (free : BusFree s) (henv : s.env = .sim t) (ha : a ≠ t.addr)
    (g : Finishes o [.retCount ret 0] (addressed a false false t s) u) : Finishes o (sendBody a data len ret) s u := by
  rw [sendBody_addrPhase]
  exact finishes_addrPhase free henv (decide_eq_false ha) nofun (.of_call (call_orRet_return
    (show some TStatus.addrNack ≠ some .success from nofun) o ret 0 _) g)

/-- A frame goes on with its payload. -/
theorem finishes_send {s u : State} {t : SimTarget} {a : BitVec 7} {src : Buf} {len : Nat} {ret : Ret} {o : Origin}
    (free : BusFree s) (henv : s.env = .sim t) (ha : a = t.addr)
    (g : Finishes o (.sendLoop src 0 len ret :: stopAndReturn ret len) (addressed a false true t s) u) :
    Finishes o (sendBody a (some src) len ret) s u := by
  rw [sendBody_addrPhase]
  exact finishes_addrPhase free henv (decide_eq_true ha) nofun (.of_call (call_orRet rfl o ret 0 _) g)

/-- A null buffer and an empty payload are an address phase and a STOP. -/
theorem finishes_send_empty {s u : State} {t : SimTarget} {a : BitVec 7} {data : Option Buf} {len : Nat} {ret : Ret}
    {o : Origin} (free : BusFree s) (henv : s.env = .sim t) (ha : a = t.addr) (empty : data = none ∨ len = 0)
    (g : Finishes o [.retCount ret 0] (probed a t s) u) : Finishes o (sendBody a data len ret) s u := by
  have opened := writeFrame_addressed free a true t
  have same : stopped (addressed a false true t s) = probed a t s := by
    simp [stopped, addressed, probed, closedCtrl, otherAck]
  rw [← same] at g
  cases data with
  | none =>
    rw [sendBody_addrPhase]
    refine finishes_addrPhase free henv (decide_eq_true ha) nofun (.of_call (call_orRet rfl o ret 0 _) ?_)
    exact finishes_stop opened.phase.start opened.phase.clk opened.env rfl g
  | some src =>
    obtain rfl : len = 0 := empty.resolve_left nofun
    exact finishes_send free henv ha (finishes_sendLoop_end opened g)

end Sys2Proof.Proofs
end

section
/-! `sock.send` and `sock.probe` on the simulated target (spec/44_socket.md R251, R253). -/

namespace Sys2Proof.Proofs

open Sys2Proof.Machine Sys2Proof.Safety

/-- The target once a write frame has given it a register address (R176). -/
def pointed (r : Byte) (t : SimTarget) : SimTarget := { t with n := 1, addressed := true, reading := false, ptr := r }

/-- The target once a write frame has stored a byte (R176). -/
def storedTarget (r b : Byte) (t : SimTarget) : SimTarget :=
  { t with
    n := 2, addressed := true, reading := false, ptr := r + 1#8, j := t.j + 1
    regs := if b = 0#8 then memErase t.regs r.toNat else memPut t.regs r.toNat b }

/-- The target once it has rejected a write frame's byte (R176). -/
def rejectedTarget (r : Byte) (t : SimTarget) : SimTarget :=
  { t with n := 2, addressed := true, reading := false, ptr := r, j := t.j + 1 }

/-- The state after a write frame of a register address only. -/
def selected (a : BitVec 7) (r : Byte) (t : SimTarget) (s : State) : State :=
  { s with
    ctrl := closedCtrl (header a false) r false s.ctrl
    trace := s.trace ++ otherAck s.ctrl ++ [startEvent s.ctrl, .hdr (header a false) .ack, .tx r .ack, .stop]
    env := .sim (pointed r t), status := some .success }

/-- The state after a write frame that stored a byte. -/
def framed (a : BitVec 7) (r b : Byte) (t : SimTarget) (s : State) : State :=
  { s with
    ctrl := closedCtrl (header a false) b false s.ctrl
    trace := s.trace ++ otherAck s.ctrl ++ [startEvent s.ctrl] ++ acceptedFrame (header a false) r b
    env := .sim (storedTarget r b t), status := some .success }

/-- The state after a write frame that the target cut short at the byte `b`, these events on the wire. -/
def cutShort (a : BitVec 7) (b : Byte) (t' : SimTarget) (es : List BusEvent) (s : State) : State :=
  { s with
    ctrl := { closedCtrl (header a false) b false s.ctrl with mb := true, rxnack := true, busstate := .owner }
    trace := s.trace ++ otherAck s.ctrl ++ [startEvent s.ctrl] ++ es
    env := .sim t', status := some .dataNack }

theorem simData_pointed_stored {r : Byte} {t : SimTarget} (hj : t.j ∉ t.rej) (b : Byte) :
    simData (pointed r t) b = some (.ack, storedTarget r b t) :=
  simData_stored (t := pointed r t) rfl rfl rfl hj b

theorem simData_pointed_rejected {r : Byte} {t : SimTarget} (hj : t.j ∈ t.rej) (b : Byte) :
    simData (pointed r t) b = some (.nack, rejectedTarget r t) :=
  simData_rejected (t := pointed r t) rfl rfl rfl hj b

theorem simData_storedTarget (r b : Byte) (t : SimTarget) (c : Byte) :
    simData (storedTarget r b t) c = some (.nack, storedTarget r b t) :=
  simData_full (t := storedTarget r b t) rfl rfl nofun nofun c

section Frames

variable {s u : State} {t : SimTarget} {a : BitVec 7} {src : Buf} {r b c : Byte} {len : Nat} {ret : Ret} {o : Origin}
  (free : BusFree s) (henv : s.env = .sim t) (ha : a = t.addr)
include free henv ha

/-- A frame of one byte is the register address. -/
theorem finishes_select (h0 : bufRead s.mem src 0 = some r)
    (g : Finishes o [.retCount ret 1] (selected a r t s) u) : Finishes o (sendBody a (some src) 1 ret) s u := by
  have opened := writeFrame_addressed free a true t
  have sent := opened.delivered r true (pointed r t)
  refine finishes_send free henv ha (finishes_sendLoop opened Nat.zero_lt_one h0 (simData_first rfl rfl rfl r)
    (finishes_sendLoop_end sent ?_))
  have same : stopped (delivered r true (pointed r t) (addressed a false true t s)) = selected a r t s := by
    simp [stopped, delivered, addressed, selected, closedCtrl, otherAck]
  exact same ▸ g

/-- A frame of two bytes, the second stored. -/
theorem finishes_frame (h0 : bufRead s.mem src 0 = some r) (h1 : bufRead s.mem src 1 = some b) (hj : t.j ∉ t.rej)
    (g : Finishes o [.retCount ret 2] (framed a r b t s) u) : Finishes o (sendBody a (some src) 2 ret) s u := by
  have opened := writeFrame_addressed free a true t
  have first := opened.delivered r true (pointed r t)
  have second := first.delivered b true (storedTarget r b t)
  refine finishes_send free henv ha (finishes_sendLoop opened Nat.two_pos h0 (simData_first rfl rfl rfl r)
    (finishes_sendLoop first Nat.one_lt_two h1 (simData_pointed_stored hj b) (finishes_sendLoop_end second ?_)))
  have same : stopped (delivered b true (storedTarget r b t) (delivered r true (pointed r t) (addressed a false true t s))) =
      framed a r b t s := by
    simp [stopped, delivered, addressed, framed, closedCtrl, otherAck, acceptedFrame]
  exact same ▸ g

/-- A frame that ends at its second byte. -/
theorem finishes_frame_refused (hl : 1 < len) (h0 : bufRead s.mem src 0 = some r) (h1 : bufRead s.mem src 1 = some b)
    (hj : t.j ∈ t.rej)
    (g : Finishes o [.retCount ret 1] (cutShort a b (rejectedTarget r t) (refusedFrame (header a false) r b) s) u) :
    Finishes o (sendBody a (some src) len ret) s u := by
  have opened := writeFrame_addressed free a true t
  have first := opened.delivered r true (pointed r t)
  refine finishes_send free henv ha (finishes_sendLoop opened (by omega) h0 (simData_first rfl rfl rfl r)
    (finishes_sendLoop_refused first hl h1 (simData_pointed_rejected hj b) ?_))
  have same : delivered b false (rejectedTarget r t) (delivered r true (pointed r t) (addressed a false true t s)) =
      cutShort a b (rejectedTarget r t) (refusedFrame (header a false) r b) s := by
    simp [delivered, addressed, cutShort, closedCtrl, otherAck, refusedFrame]
  exact same ▸ g

/-- A frame that ends at its third byte. -/
theorem finishes_frame_full (hl : 2 < len) (h0 : bufRead s.mem src 0 = some r) (h1 : bufRead s.mem src 1 = some b)
    (h2 : bufRead s.mem src 2 = some c) (hj : t.j ∉ t.rej)
    (g : Finishes o [.retCount ret 2] (cutShort a c (storedTarget r b t)
      [.hdr (header a false) .ack, .tx r .ack, .tx b .ack, .tx c .nack] s) u) :
    Finishes o (sendBody a (some src) len ret) s u := by
  have opened := writeFrame_addressed free a true t
  have first := opened.delivered r true (pointed r t)
  have second := first.delivered b true (storedTarget r b t)
  refine finishes_send free henv ha (finishes_sendLoop opened (by omega) h0 (simData_first rfl rfl rfl r)
    (finishes_sendLoop first (by omega) h1 (simData_pointed_stored hj b)
      (finishes_sendLoop_refused second hl h2 (simData_storedTarget r b t c) ?_)))
  have same : delivered c false (storedTarget r b t)
      (delivered b true (storedTarget r b t) (delivered r true (pointed r t) (addressed a false true t s))) =
      cutShort a c (storedTarget r b t) [.hdr (header a false) .ack, .tx r .ack, .tx b .ack, .tx c .nack] s := by
    simp [delivered, addressed, cutShort, closedCtrl, otherAck]
  exact same ▸ g

end Frames

-- the obligations

theorem bufRead_of_holds {m : Memory} {a k : Nat} {b : Byte} {bs : List Byte} (h : Holds m a bs)
    (hk : bs[k]? = some b) : bufRead m (.mem a) k = some b :=
  (h k (List.getElem?_eq_some_iff.1 hk).1).trans hk

theorem exec_sockSend {data : Option Nat} {len : Nat} {s : State} (h : data = none ∨ len ≤ s.cfg.maxFrame) :
    exec (.sockSend data len) s =
      call (.instr (.sockSend data len)) (sendBody s.sockAddr (data.map Buf.mem) len .top) s := by
  have room : ¬(data.isSome && tooLong s.cfg len) = true := by
    rcases h with rfl | h <;> simp [tooLong, *]
  rw [exec, execSockSend, if_neg room]

theorem exec_sockSend_tooLong {s : State} {len : Nat} (h : s.cfg.maxFrame < len) (a : Nat) :
    exec (.sockSend (some a) len) s = .next (giveValue (.count 0) (setTooLong s)) := by
  rw [exec, execSockSend, tooLong, decide_eq_true h]
  rfl

/-- Settles O48: each frame of `sock.send` from its address phase, bytes and STOP. -/
theorem sockSendCompletes : Obligations.SockSendCompletes := by
  refine ⟨fun s a len h => exec_sockSend_tooLong h a, fun s t free henv => ?_⟩
  refine ⟨fun data len ha room => ?_, fun data len ha empty => ?_, fun a r ha room holds => ?_,
    fun a r b ha room holds hj => ?_, fun a more r b ha room holds hj => ?_, fun a more r b c ha room holds hj => ?_⟩
  · exact (finishes_send_refused free henv ha (finishes_of_call (call_retCount_top _ 0 _ _))).completes (exec_sockSend room)
  · have sent := finishes_send_empty (o := .instr (.sockSend data len)) (data := data.map Buf.mem) (ret := .top)
      free henv ha (empty.imp (congrArg _) id) (finishes_of_call (call_retCount_top _ 0 _ _))
    exact sent.completes (exec_sockSend (empty.imp id (by rintro rfl; exact Nat.zero_le _)))
  · have sent := finishes_select (o := .instr (.sockSend (some a) 1)) (ret := .top) free henv ha
      (bufRead_of_holds holds (k := 0) rfl) (finishes_of_call (call_retCount_top _ 1 _ _))
    exact sent.completes (exec_sockSend (.inr room))
  · have sent := finishes_frame (o := .instr (.sockSend (some a) 2)) (ret := .top) free henv ha
      (bufRead_of_holds holds (k := 0) rfl) (bufRead_of_holds holds (k := 1) rfl) hj
      (finishes_of_call (call_retCount_top _ 2 _ _))
    exact sent.completes (exec_sockSend (.inr room))
  · have sent := finishes_frame_refused (o := .instr (.sockSend (some a) (2 + more))) (len := 2 + more) (ret := .top)
      free henv ha (by omega) (bufRead_of_holds holds (k := 0) rfl) (bufRead_of_holds holds (k := 1) rfl) hj
      (finishes_of_call (call_retCount_top _ 1 _ _))
    exact sent.completes (exec_sockSend (.inr room))
  · have sent := finishes_frame_full (o := .instr (.sockSend (some a) (3 + more))) (len := 3 + more) (ret := .top)
      free henv ha (by omega) (bufRead_of_holds holds (k := 0) rfl) (bufRead_of_holds holds (k := 1) rfl)
      (bufRead_of_holds holds (k := 2) rfl) hj (finishes_of_call (call_retCount_top _ 2 _ _))
    rw [cutShort, List.append_assoc (s.trace ++ otherAck s.ctrl)] at sent
    exact sent.completes (exec_sockSend (.inr room))

end Sys2Proof.Proofs
end

section
/-! `sock.probe` on the simulated target (spec/44_socket.md R253). -/

namespace Sys2Proof.Proofs

open Sys2Proof.Machine Sys2Proof.Safety

/-- Binding a candidate and its ADDR write are one host step. -/
theorem call_probeTry {s : State} {a : Nat} (hs : CanStart s) (ha : a < 128) (o : Origin) (rest : List Nat) :
    call o [.probeTry a rest] s =
      call o (sendBody (BitVec.ofNat 7 a) none 0 (.probe a rest)) { s with sockAddr := BitVec.ofNat 7 a } := by
  have bound : CanStart { s with sockAddr := BitVec.ofNat 7 a } :=
    have ⟨⟨swrst, enable⟩, sysop, busop, en, mode, sda, scl⟩ := hs
    ⟨⟨swrst, enable⟩, sysop, busop, en, mode, sda, scl⟩
  have made : access o (.probeTry a rest) s = accessWrite .addr ((header (BitVec.ofNat 7 a) false).setWidth 32)
      (sendTail none 0 (.probe a rest)) { s with sockAddr := BitVec.ofNat 7 a } :=
    if_neg (Nat.not_lt.2 (Nat.le_of_lt_succ ha))
  exact call_accessWrite (l := []) rfl made (wrReg_header bound (header (BitVec.ofNat 7 a) false))

/-- The headers of candidates that do not answer, with the repeated STARTs after them. -/
def missTrace (pre : List Nat) : List BusEvent :=
  pre.flatMap (fun a => [.hdr (header (BitVec.ofNat 7 a) false) .nack, .rstart])

/-- The state after a probe that found the candidate `a` behind the candidates `pre`. -/
def probeFound (pre : List Nat) (a : Nat) (t : SimTarget) (s : State) : State :=
  { s with
    ctrl := closedCtrl (header (BitVec.ofNat 7 a) false) s.ctrl.data false s.ctrl
    trace := s.trace ++ otherAck s.ctrl ++ [startEvent s.ctrl] ++ missTrace pre ++
      [.hdr (header (BitVec.ofNat 7 a) false) .ack, .stop]
    env := .sim { t with n := 0, addressed := true, reading := false }
    sockAddr := BitVec.ofNat 7 a, status := some .success, results := s.results ++ [.found a], running := none }

/-- The state after a probe whose last candidate `a`, behind the candidates `pre`, did not answer. -/
def probeMissed (pre : List Nat) (a : Nat) (t : SimTarget) (s : State) : State :=
  { s with
    ctrl := { closedCtrl (header (BitVec.ofNat 7 a) false) s.ctrl.data false s.ctrl with
      mb := true, rxnack := true, busstate := .owner }
    trace := s.trace ++ otherAck s.ctrl ++ [startEvent s.ctrl] ++ missTrace pre ++
      [.hdr (header (BitVec.ofNat 7 a) false) .nack]
    env := .sim { t with n := 0, addressed := false, reading := false }
    sockAddr := BitVec.ofNat 7 a, status := some .addrNack, results := s.results ++ [.noneFound], running := none }

/-- The state after a candidate that does not answer. -/
def skipped (a : Nat) (t : SimTarget) (s : State) : State :=
  addressed (BitVec.ofNat 7 a) false false t { s with sockAddr := BitVec.ofNat 7 a }

theorem bound_free {s : State} (free : BusFree s) (a : BitVec 7) : BusFree { s with sockAddr := a } :=
  have ⟨⟨⟨swrst, enable⟩, sysop, busop, en, mode, sda, scl⟩, clk, bus⟩ := free
  ⟨⟨⟨swrst, enable⟩, sysop, busop, en, mode, sda, scl⟩, clk, bus⟩

theorem skipped_free {s : State} (free : BusFree s) (a : Nat) (t : SimTarget) : BusFree (skipped a t s) :=
  have opened := writeFrame_addressed (bound_free free (BitVec.ofNat 7 a)) (BitVec.ofNat 7 a) false t
  ⟨opened.phase.start, opened.phase.clk, .inr rfl⟩

section Candidates

variable {o : Origin} {addr : BitVec 7} {a : Nat} {t : SimTarget} {s : State} (free : BusFree s) (henv : s.env = .sim t)
include free henv

/-- A candidate that does not answer is followed by the next one, or by the answer that none was found. -/
theorem finishes_probe_miss {u : State} {rest : List Nat} (ha : a < 128 ∧ a ≠ t.addr.toNat)
    (g : Finishes o [.retCount (.probe a rest) 0] (skipped a t s) u) : Finishes o [.probeTry a rest] s u := by
  have other : BitVec.ofNat 7 a ≠ t.addr := fun h => ha.2 <| by
    rw [← h, BitVec.toNat_ofNat, Nat.mod_eq_of_lt ha.1]
  exact .of_call (call_probeTry free.start ha.1 o rest)
    (finishes_send_refused (bound_free free _) henv other g)

theorem finishes_probe_found (post : List Nat) :
    Finishes o [.probeTry t.addr.toNat post] s (probeFound [] t.addr.toNat t s) := by
  refine .of_call (call_probeTry free.start t.addr.isLt o post) ?_
  refine finishes_send_empty (bound_free free _) henv (by simp) (.inl rfl) (finishes_of_call ?_)
  refine (call_retCount_probe_found rfl ..).trans (congrArg Host.Outcome.next ?_)
  simp [returned, probed, probeFound, missTrace]

end Candidates

/-- The candidates to try. -/
def probing : List Nat → List Stmt
  | [] => []
  | a :: rest => [.probeTry a rest]

theorem finishes_probe_skip {o : Origin} {a b : Nat} {t : SimTarget} {s u : State} {rest : List Nat} (free : BusFree s)
    (henv : s.env = .sim t) (ha : a < 128 ∧ a ≠ t.addr.toNat) (g : Finishes o (probing (b :: rest)) (skipped a t s) u) :
    Finishes o (probing (a :: b :: rest)) s u :=
  finishes_probe_miss free henv ha
    (.of_call (call_retCount_probe (show some TStatus.addrNack ≠ some .success from nofun) o a b rest 0 []) g)

theorem finishes_probing_found {o : Origin} {pre post : List Nat} {t : SimTarget} {s : State} (free : BusFree s)
    (henv : s.env = .sim t) (hpre : ∀ a ∈ pre, a < 128 ∧ a ≠ t.addr.toNat) :
    Finishes o (probing (pre ++ t.addr.toNat :: post)) s (probeFound pre t.addr.toNat t s) := by
  induction pre generalizing s t with
  | nil => exact finishes_probe_found free henv post
  | cons a pre ih =>
    obtain ⟨b, rest, hrest⟩ : ∃ b rest, pre ++ t.addr.toNat :: post = b :: rest := by cases pre <;> exact ⟨_, _, rfl⟩
    have next := ih (t := { t with n := 0, addressed := false, reading := false }) (skipped_free free a t) rfl
      fun c hc => hpre c (List.mem_cons_of_mem a hc)
    have same : probeFound pre t.addr.toNat { t with n := 0, addressed := false, reading := false } (skipped a t s) =
        probeFound (a :: pre) t.addr.toNat t s := by
      simp [probeFound, skipped, addressed, missTrace, closedCtrl, otherAck, startEvent]
    rw [same] at next
    rw [List.cons_append, hrest]
    exact finishes_probe_skip free henv (hpre a List.mem_cons_self) (hrest ▸ next)

theorem finishes_probing_missed {o : Origin} {pre : List Nat} {last : Nat} {t : SimTarget} {s : State} (free : BusFree s)
    (henv : s.env = .sim t) (hpre : ∀ a ∈ pre ++ [last], a < 128 ∧ a ≠ t.addr.toNat) :
    Finishes o (probing (pre ++ [last])) s (probeMissed pre last t s) := by
  induction pre generalizing s t with
  | nil =>
    refine finishes_probe_miss free henv (hpre last List.mem_cons_self) (finishes_of_call ?_)
    refine (call_retCount_probe_none (show some TStatus.addrNack ≠ some .success from nofun) o last 0 []).trans ?_
    simp [returned, skipped, addressed, probeMissed, missTrace, closedCtrl]
  | cons a pre ih =>
    obtain ⟨b, rest, hrest⟩ : ∃ b rest, pre ++ [last] = b :: rest := by cases pre <;> exact ⟨_, _, rfl⟩
    have next := ih (t := { t with n := 0, addressed := false, reading := false }) (skipped_free free a t) rfl
      fun c hc => hpre c (List.mem_cons_of_mem a hc)
    have same : probeMissed pre last { t with n := 0, addressed := false, reading := false } (skipped a t s) =
        probeMissed (a :: pre) last t s := by
      simp [probeMissed, skipped, addressed, missTrace, closedCtrl, otherAck, startEvent]
    rw [same] at next
    rw [List.cons_append, hrest]
    exact finishes_probe_skip free henv (hpre a List.mem_cons_self) (hrest ▸ next)

theorem exec_sockProbe {cands : List Nat} (h : cands ≠ []) (s : State) :
    exec (.sockProbe cands) s = call (.instr (.sockProbe cands)) (probing cands) s := by
  cases cands with
  | nil => exact absurd rfl h
  | cons a rest => rfl

/-- Settles O50: by induction on the candidates that do not answer. -/
theorem sockProbeCompletes : Obligations.SockProbeCompletes := by
  refine ⟨fun s => rfl, fun s t free henv => ⟨fun pre post hpre => ?_, fun pre last hpre => ?_⟩⟩
  · obtain ⟨ms, done⟩ := (finishes_probing_found (post := post) free henv hpre).completes (exec_sockProbe (by simp) s)
    have addr : BitVec.ofNat 7 t.addr.toNat = t.addr := by simp
    exact ⟨ms, completes_of_eq done
      (congrArg (fun a => { probeFound pre t.addr.toNat t s with sockAddr := a }) addr)⟩
  · exact (finishes_probing_missed free henv hpre).completes (exec_sockProbe (by simp) s)

end Sys2Proof.Proofs
end

section
/-! `rfa.write` on the simulated target, one frame per byte (spec/45_register_accessor.md R284). -/

namespace Sys2Proof.Proofs

open Sys2Proof.Machine Sys2Proof.Safety

/-- The buffer `src` holds the bytes from place `total` on. -/
def Buffered (m : Memory) (src : Buf) (total : Nat) (bs : List Byte) : Prop :=
  ∀ k b, bs[k]? = some b → bufRead m src (total + k) = some b

theorem Buffered.head {m : Memory} {src : Buf} {total : Nat} {b : Byte} {bs : List Byte}
    (h : Buffered m src total (b :: bs)) : bufRead m src total = some b := h 0 b rfl

theorem Buffered.tail {m : Memory} {src : Buf} {total : Nat} {b : Byte} {bs : List Byte}
    (h : Buffered m src total (b :: bs)) : Buffered m src (total + 1) bs := fun k c hk => by
  rw [Nat.add_assoc, Nat.add_comm 1 k]
  exact h (k + 1) c hk

theorem regAddrByte_lt {n : Nat} (h : n < 256) : Machine.regAddrByte n = BitVec.ofNat 8 n := if_pos h

/-- The frame of a byte is `sock.send` of the register address and the byte. -/
theorem call_frame {s : State} {src : Buf} {total : Nat} {b : Byte} (hs : CanStart s)
    (hb : bufRead s.mem src total = some b) (room : 2 ≤ s.cfg.maxFrame) (o : Origin) (off len : Nat) :
    call o [.frame off src total len] s =
      call o (sendBody s.sockAddr (some (.bytes [Machine.regAddrByte (off + total), b])) 2 (.frame off src total len)) s := by
  have fits : ¬tooLong s.cfg 2 = true := decide_eq_true_iff.not.2 (Nat.not_lt.2 room)
  have made : access o (.frame off src total len) s = accessWrite .addr ((header s.sockAddr false).setWidth 32)
      (sendTail (some (.bytes [Machine.regAddrByte (off + total), b])) 2 (.frame off src total len)) s := by
    rw [access, accessFrame, hb]
    exact if_neg fits
  exact call_accessWrite (l := []) rfl made (wrReg_header hs (header s.sockAddr false))

theorem framed_free {s : State} (free : BusFree s) (a : BitVec 7) (r b : Byte) (t : SimTarget) :
    BusFree (framed a r b t s) :=
  have ⟨⟨⟨swrst, enable⟩, sysop, busop, en, mode, sda, scl⟩, clk, _⟩ := free
  ⟨⟨⟨swrst, enable⟩, sysop, busop, en, mode, sda, scl⟩, clk, .inl rfl⟩

/-- The state after an accepted frame for each of these bytes. -/
def wrote (a : BitVec 7) (off : Nat) (bs : List Byte) (t : SimTarget) (s : State) : State :=
  { s with
    ctrl := closedCtrl (header a false) (bs.getLastD s.ctrl.data) false s.ctrl
    trace := s.trace ++ otherAck s.ctrl ++ acceptedFrames (header a false) [startEvent s.ctrl] off bs
    env := .sim { t with
      n := 2, addressed := true, reading := false, ptr := BitVec.ofNat 8 (off + bs.length), j := t.j + bs.length
      regs := writtenRegs t.regs off bs }
    status := some .success }

/-- The state after an accepted frame for each of the bytes `pre` and a frame that the target cut short at `b`. -/
def wroteShort (a : BitVec 7) (off : Nat) (pre : List Byte) (b : Byte) (t : SimTarget) (s : State) : State :=
  { s with
    ctrl := { closedCtrl (header a false) b false s.ctrl with mb := true, rxnack := true, busstate := .owner }
    trace := s.trace ++ otherAck s.ctrl ++ acceptedFrames (header a false) [startEvent s.ctrl] off pre ++
      [if pre.length = 0 then startEvent s.ctrl else .start] ++
      refusedFrame (header a false) (BitVec.ofNat 8 (off + pre.length)) b
    env := .sim { t with
      n := 2, addressed := true, reading := false, ptr := BitVec.ofNat 8 (off + pre.length)
      j := t.j + pre.length + 1, regs := writtenRegs t.regs off pre }
    status := some .dataNack }

theorem framed_eq_wrote (a : BitVec 7) (off : Nat) (b : Byte) (t : SimTarget) (s : State) :
    framed a (BitVec.ofNat 8 off) b t s = wrote a off [b] t s := by
  simp [framed, wrote, storedTarget, acceptedFrames, writtenRegs, BitVec.ofNat_add]

theorem wrote_cons (a : BitVec 7) (off : Nat) (b c : Byte) (bs : List Byte) (t : SimTarget) (s : State) :
    wrote a (off + 1) (c :: bs) (storedTarget (BitVec.ofNat 8 off) b t) (framed a (BitVec.ofNat 8 off) b t s) =
      wrote a off (b :: c :: bs) t s := by
  have place : off + 1 + (bs.length + 1) = off + (bs.length + 1 + 1) := by omega
  have number : t.j + 1 + (bs.length + 1) = t.j + (bs.length + 1 + 1) := by omega
  simp [framed, wrote, storedTarget, closedCtrl, acceptedFrames, writtenRegs, otherAck, startEvent, place, number,
    List.getLast?_cons]

theorem wroteShort_cons (a : BitVec 7) (off : Nat) (b c : Byte) (bs : List Byte) (t : SimTarget) (s : State) :
    wroteShort a (off + 1) bs c (storedTarget (BitVec.ofNat 8 off) b t) (framed a (BitVec.ofNat 8 off) b t s) =
      wroteShort a off (b :: bs) c t s := by
  have place : off + 1 + bs.length = off + (bs.length + 1) := by omega
  have number : t.j + 1 + bs.length + 1 = t.j + (bs.length + 1) + 1 := by omega
  simp [framed, wroteShort, storedTarget, closedCtrl, acceptedFrames, writtenRegs, otherAck, startEvent, place, number]

section Frames

variable {s : State} {t : SimTarget} {src : Buf} {o : Origin} {off total len : Nat} (free : BusFree s)
  (henv : s.env = .sim t) (ha : s.sockAddr = t.addr) (room : 2 ≤ s.cfg.maxFrame)
include free henv ha room

/-- A byte's frame that the target accepts. -/
theorem finishes_frame_accepted {b : Byte} {u : State} (hb : bufRead s.mem src total = some b) (hr : off + total < 256)
    (hj : t.j ∉ t.rej)
    (g : Finishes o [.retCount (.frame off src total len) 2]
      (framed s.sockAddr (BitVec.ofNat 8 (off + total)) b t s) u) :
    Finishes o [.frame off src total len] s u := by
  refine .of_call (call_frame free.start hb room o off len) ?_
  rw [regAddrByte_lt hr]
  exact finishes_frame free henv ha rfl rfl hj g

/-- A byte's frame that the target rejects. -/
theorem finishes_frame_rejected {b : Byte} (hb : bufRead s.mem src total = some b) (hr : off + total < 256)
    (hj : t.j ∈ t.rej) :
    Finishes o [.frame off src total len] s (returned (.count total) (wroteShort s.sockAddr (off + total) [] b t s)) := by
  refine .of_call (call_frame free.start hb room o off len) ?_
  rw [regAddrByte_lt hr]
  refine finishes_frame_refused free henv ha Nat.one_lt_two rfl rfl hj (finishes_of_call ?_)
  refine (call_retCount_frame_failed (by decide) o off src total len [] _).trans ?_
  simp [returned, wroteShort, cutShort, acceptedFrames, writtenRegs, rejectedTarget]

end Frames

theorem finishes_frames {o : Origin} {src : Buf} {off len : Nat} {bs : List Byte} {total : Nat} {s : State}
    {t : SimTarget} (free : BusFree s) (henv : s.env = .sim t) (ha : s.sockAddr = t.addr) (room : 2 ≤ s.cfg.maxFrame)
    (nonempty : bs ≠ []) (hlen : total + bs.length = len) (hr : off + len ≤ 256) (hb : Buffered s.mem src total bs)
    (hj : ∀ k, k < bs.length → t.j + k ∉ t.rej) :
    Finishes o [.frame off src total len] s (returned (.count len) (wrote s.sockAddr (off + total) bs t s)) := by
  induction bs generalizing total s t with
  | nil => exact absurd rfl nonempty
  | cons b bs ih =>
    simp only [List.length_cons] at hlen hj
    refine finishes_frame_accepted free henv ha room hb.head (by omega) (hj 0 (by omega)) ?_
    cases bs with
    | nil =>
      obtain rfl : total + 1 = len := hlen
      refine finishes_of_call ((call_retCount_frame_last (Nat.lt_irrefl _) o off src [] _).trans ?_)
      rw [framed_eq_wrote]
    | cons c bs =>
      refine .of_call (call_retCount_frame (by simp at hlen; omega) o off src [] _) ?_
      have next := ih (total := total + 1) (t := storedTarget (BitVec.ofNat 8 (off + total)) b t)
        (framed_free free s.sockAddr (BitVec.ofNat 8 (off + total)) b t) rfl ha room nofun
        ((Nat.add_right_comm ..).trans hlen) hb.tail fun k hk => by
          have fits := hj (k + 1) (Nat.succ_lt_succ hk)
          rwa [← Nat.add_assoc, Nat.add_right_comm] at fits
      exact wrote_cons s.sockAddr (off + total) b c bs t s ▸ next

theorem finishes_frames_rejected {o : Origin} {src : Buf} {off len : Nat} {pre : List Byte} {b : Byte} {total : Nat}
    {s : State} {t : SimTarget} (free : BusFree s) (henv : s.env = .sim t) (ha : s.sockAddr = t.addr)
    (room : 2 ≤ s.cfg.maxFrame) (hlen : total + pre.length < len) (hr : off + len ≤ 256)
    (hb : Buffered s.mem src total (pre ++ [b])) (hj : ∀ k, k < pre.length → t.j + k ∉ t.rej)
    (hrej : t.j + pre.length ∈ t.rej) :
    Finishes o [.frame off src total len] s
      (returned (.count (total + pre.length)) (wroteShort s.sockAddr (off + total) pre b t s)) := by
  induction pre generalizing total s t with
  | nil => exact finishes_frame_rejected free henv ha room hb.head (by simp at hlen; omega) hrej
  | cons c pre ih =>
    simp only [List.length_cons] at hlen hj hrej
    refine finishes_frame_accepted free henv ha room hb.head (by omega) (hj 0 (by omega)) ?_
    refine .of_call (call_retCount_frame (by omega) o off src [] _) ?_
    have next := ih (total := total + 1) (t := storedTarget (BitVec.ofNat 8 (off + total)) c t)
      (framed_free free s.sockAddr (BitVec.ofNat 8 (off + total)) c t) rfl ha room (by omega) hb.tail
      (fun k hk => by
        have fits := hj (k + 1) (Nat.succ_lt_succ hk)
        rwa [← Nat.add_assoc, Nat.add_right_comm] at fits)
      (by rwa [← Nat.add_assoc, Nat.add_right_comm] at hrej)
    rw [Nat.add_right_comm] at next
    exact wroteShort_cons s.sockAddr (off + total) c b pre t s ▸ next

theorem buffered_of_holds {m : Memory} {a : Nat} {bs : List Byte} (h : Holds m a bs) : Buffered m (.mem a) 0 bs :=
  fun k b hk => by
    rw [Nat.zero_add]
    exact bufRead_of_holds h hk

/-- Settles O55: no bytes end the call at once, and otherwise it is one frame per byte (`finishes_frames`,
`finishes_frames_rejected`). -/
theorem rfaWriteCompletes : Obligations.RfaWriteCompletes := by
  refine ⟨fun s offset data hoff => ?_, fun s t offset a bs free henv ha room hr holds => ⟨fun b last hj => ?_,
    fun k b hk hrej hj => ?_⟩⟩
  · rw [exec, execRfaWrite, nullWithLen_eq_false fun _ => rfl,
      show beyondRegs offset 0 = false from decide_eq_false (Nat.not_lt.2 hoff)]
    rfl
  · have nonempty : bs ≠ [] := by rintro rfl; exact nomatch last
    have done := (finishes_frames (total := 0) free henv ha room nonempty (Nat.zero_add _) hr (buffered_of_holds holds)
      hj).completes (exec_rfaWrite (List.length_pos_iff.2 nonempty) hr a s)
    rw [wrote, List.getLastD_eq_getLast?, last] at done
    exact done
  · have within : k < bs.length := (List.getElem?_eq_some_iff.1 hk).1
    have len : (bs.take k).length = k := List.length_take_of_le (Nat.le_of_lt within)
    have sent : Buffered s.mem (.mem a) 0 (bs.take k ++ [b]) := fun i c hi => by
      have taken : bs.take k ++ [b] = bs.take (k + 1) := by rw [List.take_add_one, hk]; rfl
      rw [taken, List.getElem?_take] at hi
      exact buffered_of_holds holds i c (Option.ite_none_right_eq_some.1 hi).2
    have done := (finishes_frames_rejected free henv ha room (by omega) hr sent (by rwa [len]) (by rwa [len])).completes
      (exec_rfaWrite (by omega) hr a s)
    rw [wroteShort, len, Nat.zero_add] at done
    exact done

end Sys2Proof.Proofs
end

section
/-! Bursts from the simulated target (spec/43_primary_engine.md R225). -/

namespace Sys2Proof.Proofs

open Sys2Proof.Machine Sys2Proof.Safety

-- one byte of a burst

/-- The state after a burst has taken the byte in DATA and, outside smart mode, set the acknowledge policy. -/
def taken (dst : Dst) (k : Nat) (last : Bool) (s : State) : State :=
  dstWrite dst k s.ctrl.data { s with
    ctrl := { s.ctrl with ackact := if s.cfg.smart then s.ctrl.ackact else ackOfBit last }
    status := some .success }

theorem taken_readPhase {s : State} {t : SimTarget} (hp : ReadPhase s t) (dst : Dst) (k : Nat) (last : Bool) :
    ReadPhase (taken dst k last s) t := by
  obtain ⟨⟨⟨swrst, enable⟩, sysop, busop, en, mode, sda, scl⟩, clk, env, smart, addressed, reading, owner, dir, ackpend, sb,
    buserr, pend⟩ := hp
  cases dst <;> exact ⟨⟨⟨swrst, enable⟩, sysop, busop, en, mode, sda, scl⟩, clk, env, smart, addressed, reading, owner, dir,
    ackpend, sb, buserr, pend⟩

theorem received_readPhase {s : State} {t : SimTarget} (hp : ReadPhase s t) :
    ReadPhase (received t s) { t with ptr := t.ptr + 1#8 } :=
  have ⟨⟨⟨swrst, enable⟩, sysop, busop, en, mode, sda, scl⟩, clk, _, smart, addressed, reading, owner, dir, ackpend, _,
    buserr, pend⟩ := hp
  ⟨⟨⟨swrst, enable⟩, sysop, busop, en, mode, sda, scl⟩, clk, rfl, smart, addressed, reading, owner, dir, ackpend, rfl, buserr,
    pend⟩

/-- A byte before the last leaves the policy at ACK, or to smart mode. -/
theorem taken_acks {s : State} {t : SimTarget} (hp : ReadPhase s t) (dst : Dst) (k : Nat) :
    (taken dst k false s).ctrl.smen = true ∨ (taken dst k false s).ctrl.ackact = .ack := by
  have smart := hp.smart
  cases hsmart : s.cfg.smart <;> cases dst <;> simp [taken, dstWrite, hsmart, smart, ackOfBit]

/-- The statements of a burst's turn once its byte is on the way. -/
def takeByte (smart : Bool) (dst : Dst) (k len : Nat) (ret : Ret) : List Stmt :=
  [awaitFlag .sb, .recvCheck ret k, .recvByte dst k] ++
    (if smart then [] else [.ackPolicy (decide (len ≤ k + 1))]) ++ [.burstLoop dst (k + 1) len ret]

theorem burstTurn_zero (smart : Bool) (dst : Dst) (len : Nat) (ret : Ret) :
    burstTurn smart dst 0 len ret = takeByte smart dst 0 len ret := rfl

theorem burstTurn_succ (smart : Bool) (dst : Dst) (k len : Nat) (ret : Ret) :
    burstTurn smart dst (k + 1) len ret =
      issueCmd .readContinue :: awaitSync .sysop :: takeByte smart dst (k + 1) len ret := rfl

theorem finishes_ackPolicy {o : Origin} {nack : Bool} {l : List Stmt} {s u : State} (hsmart : s.cfg.smart = false)
    (hs : CanStart s) (g : Finishes o l { s with ctrl := { s.ctrl with ackact := ackOfBit nack } } u) :
    Finishes o (.ackPolicy nack :: l) s u := by
  have read : access o (.ackPolicy nack) s = .next (s, [ackPolicyWrite nack s.ctrl]) :=
    congrArg (fun next => Host.Outcome.next (s, next)) (if_neg (ne_true_of_eq_false hsmart))
  have written := runs_call (call_wr (wrReg_setAck nack hs.sync hs.sysop hs.busop) o l)
  exact (runs_call (call_of_access rfl read)).finishes (written.finishes g)

theorem finishes_recvByte {o : Origin} {dst : Dst} {k : Nat} {l : List Stmt} {s u : State}
    (g : Finishes o l { dstWrite dst k s.ctrl.data s with status := some .success } u) :
    Finishes o (.recvByte dst k :: l) s u :=
  (runs_call (call_of_access rfl (access_recvByte o dst k s))).finishes
    (.of_call (call_store o dst k s.ctrl.data _ s) (.of_call (call_setStatus o .success l _) g))

/-- A burst goes on from a byte that is there. -/
theorem finishes_takeByte {o : Origin} {dst : Dst} {k len : Nat} {ret : Ret} {s u : State} {t : SimTarget}
    (hp : ReadPhase s t)
    (g : Finishes o [.burstLoop dst (k + 1) len ret] (taken dst k (decide (len ≤ k + 1)) s) u) :
    Finishes o (takeByte s.cfg.smart dst k len ret) s u := by
  have flag : (rdReg .intflag s.ctrl &&& readyMask .sb != 0#32) = true := (poll_intflag s.ctrl .sb).trans hp.sb
  have checked := runs_call (call_of_access (l := .recvByte dst k :: ((if s.cfg.smart then []
    else [.ackPolicy (decide (len ≤ k + 1))]) ++ [.burstLoop dst (k + 1) len ret])) rfl
    (access_recvCheck o ret k hp.buserr))
  refine (runs_call (call_await_left flag o _)).finishes (checked.finishes (finishes_recvByte ?_))
  cases hsmart : s.cfg.smart with
  | true =>
    have same : ({ dstWrite dst k s.ctrl.data s with status := some .success } : State) =
        taken dst k (decide (len ≤ k + 1)) s := by
      cases dst <;> simp [taken, dstWrite, hsmart]
    exact same ▸ g
  | false =>
    have start : CanStart { dstWrite dst k s.ctrl.data s with status := some .success } := by
      obtain ⟨⟨swrst, enable⟩, sysop, busop, en, mode, sda, scl⟩ := hp.start
      cases dst <;> exact ⟨⟨swrst, enable⟩, sysop, busop, en, mode, sda, scl⟩
    refine finishes_ackPolicy (by cases dst <;> exact hsmart) start ?_
    have same : ({ dstWrite dst k s.ctrl.data s with
        status := some .success
        ctrl := { (dstWrite dst k s.ctrl.data s).ctrl with ackact := ackOfBit (decide (len ≤ k + 1)) } } : State) =
        taken dst k (decide (len ≤ k + 1)) s := by
      cases dst <;> simp [taken, dstWrite, hsmart]
    exact same ▸ g

/-- A burst goes on to the target's next byte. -/
theorem finishes_readContinue {o : Origin} {l : List Stmt} {s u : State} {t : SimTarget} (hp : ReadPhase s t)
    (hack : s.ctrl.smen = true ∨ s.ctrl.ackact = .ack) (g : Finishes o l (received t s) u) :
    Finishes o (issueCmd .readContinue :: awaitSync .sysop :: l) s u := by
  have sent := runs_command (l := awaitSync .sysop :: l) rfl hp.start hp.clk (calm_sim hp.env)
    (wrReg_readContinue hp.start hp.ackpend hack) o
  rw [fireBus_readContinue hp hack] at sent
  have waited := (runs_call (call_awaitSysop (s := received t s) hp.start.sysop o l)).leads
  exact (sent.append waited).finishes g

-- a whole burst

/-- The bytes stored from place `k` on. -/
def dstWrites (dst : Dst) (k : Nat) (bs : List Byte) (s : State) : State :=
  match dst with
  | .mem base => { s with mem := memPutBytes s.mem (base + k) bs }
  | .scratch => { s with scratch := s.scratch ++ bs }

/-- The state after the rest of a burst: the byte in DATA and `n` more (R225). -/
def burst (dst : Dst) (k n : Nat) (t : SimTarget) (s : State) : State :=
  dstWrites dst k (s.ctrl.data :: simBytes t n) { s with
    ctrl := { s.ctrl with
      mb := if n = 0 then s.ctrl.mb else false, data := (simBytes t n).getLastD s.ctrl.data
      ackact := if s.cfg.smart then s.ctrl.ackact else .nack }
    trace := s.trace ++ (burstTrace (s.ctrl.data :: simBytes t n)).tail
    env := .sim { t with ptr := t.ptr + BitVec.ofNat 8 n }
    status := some .success }

theorem simBytes_succ (t : SimTarget) (n : Nat) :
    simBytes t (n + 1) = simReg t t.ptr :: simBytes { t with ptr := t.ptr + 1#8 } n := by
  have shift (k : Nat) : t.ptr + 1#8 + BitVec.ofNat 8 k = t.ptr + BitVec.ofNat 8 (k + 1) := by
    rw [BitVec.ofNat_add, BitVec.add_comm (BitVec.ofNat 8 k), BitVec.add_assoc]
  simp only [simBytes, List.range_succ_eq_map, List.map_cons, List.map_map]
  exact congrArg₂ List.cons (congrArg (simReg t) (BitVec.add_zero _))
    (List.map_congr_left fun k _ => congrArg (simReg t) (shift k).symm)

theorem burstTrace_cons (b : Byte) (bs : List Byte) : burstTrace (b :: bs) = .rx b :: (burstTrace (b :: bs)).tail := by
  cases bs <;> rfl

theorem burst_zero {s : State} {t : SimTarget} (henv : s.env = .sim t) (dst : Dst) (k : Nat) :
    taken dst k true s = burst dst k 0 t s := by
  cases dst <;> simp [taken, burst, dstWrite, dstWrites, memPutBytes, simBytes, burstTrace, ackOfBit, ← henv]

theorem burst_succ {s : State} (hsb : s.ctrl.sb = true) (dst : Dst) (k n : Nat) (t : SimTarget) :
    burst dst (k + 1) n { t with ptr := t.ptr + 1#8 } (received t (taken dst k false s)) = burst dst k (n + 1) t s := by
  have more : t.ptr + 1#8 + BitVec.ofNat 8 n = t.ptr + BitVec.ofNat 8 (n + 1) := by
    rw [BitVec.ofNat_add, BitVec.add_comm (BitVec.ofNat 8 n), BitVec.add_assoc]
  have place (b : Nat) : b + (k + 1) = b + k + 1 := rfl
  have trace (b c : Byte) (bs : List Byte) :
      (burstTrace (b :: c :: bs)).tail = .mack .ack :: .rx c :: (burstTrace (c :: bs)).tail :=
    congrArg (BusEvent.mack .ack :: ·) (burstTrace_cons c bs)
  have policy : (if s.cfg.smart = true then if s.cfg.smart = true then s.ctrl.ackact else ackOfBit false else Ack.nack) =
      if s.cfg.smart = true then s.ctrl.ackact else .nack := by split <;> rfl
  cases dst <;>
    simp [taken, received, burst, dstWrite, dstWrites, memPutBytes, simBytes_succ, trace, more, place, List.getLast?_cons,
      policy, hsb]

theorem finishes_burst {o : Origin} {dst : Dst} {k n len : Nat} {ret : Ret} {s u : State} {t : SimTarget}
    (hp : ReadPhase s t) (hlen : k + n + 1 = len) (g : Finishes o [.retCount ret len] (burst dst k n t s) u) :
    Finishes o (takeByte s.cfg.smart dst k len ret) s u := by
  induction n generalizing k s t with
  | zero =>
    obtain rfl : k + 1 = len := hlen
    refine finishes_takeByte hp ?_
    rw [decide_eq_true (Nat.le_refl (k + 1)), burst_zero hp.env]
    exact .of_call (call_burstLoop_done (Nat.succ_ne_zero k) o dst ret [] _) g
  | succ n ih =>
    refine finishes_takeByte hp ?_
    rw [decide_eq_false (by omega)]
    have next := taken_readPhase hp dst k false
    refine .of_call (call_burstLoop (by omega) o dst ret [] _) ?_
    rw [burstTurn_succ, List.append_nil]
    refine finishes_readContinue next (taken_acks hp dst k) ?_
    rw [← burst_succ hp.sb] at g
    exact ih (k := k + 1) (s := received t (taken dst k false s)) (received_readPhase next) (by omega) g

/-- A burst that finds its first byte in DATA. -/
theorem finishes_burstLoop {o : Origin} {dst : Dst} {n : Nat} {ret : Ret} {s u : State} {t : SimTarget}
    (hp : ReadPhase s t) (g : Finishes o [.retCount ret (n + 1)] (burst dst 0 n t s) u) :
    Finishes o [.burstLoop dst 0 (n + 1) ret] s u := by
  refine .of_call (call_burstLoop (Nat.succ_pos n) o dst ret [] s) ?_
  rw [burstTurn_zero, List.append_nil]
  exact finishes_burst hp (by omega) g

/-- Settles O44: a burst of no bytes is over at once, and otherwise its bytes come one by one (`finishes_burst`). -/
theorem recvBurstCompletes : Obligations.RecvBurstCompletes := by
  refine ⟨fun s buf => ?_, fun s t buf n hp => ?_⟩
  · exact (call_burstLoop_empty (.instr (.engRecvBurst buf 0)) (.mem buf) 0 .burst [] s).trans
      (call_retCount_burst rfl _ 0 [])
  · have ended := call_retCount_burst (s := burst (.mem buf) 0 n t s) rfl (.instr (.engRecvBurst buf (n + 1))) (n + 1) []
    have done := (finishes_burstLoop hp (finishes_of_call ended)).completes (i := .engRecvBurst buf (n + 1)) (s := s) rfl
    simp only [List.getLast_eq_getLastD]
    exact done

end Sys2Proof.Proofs
end

section
/-! `sock.recv` on the simulated target (spec/44_socket.md R252). -/

namespace Sys2Proof.Proofs

open Sys2Proof.Machine Sys2Proof.Safety

theorem addressed_readPhase {s : State} {t : SimTarget} (on : OnBus s t) (a : BitVec 7) :
    ReadPhase (addressed a true true t s) { t with n := 0, addressed := true, reading := true, ptr := t.ptr + 1#8 } :=
  have ⟨⟨⟨⟨swrst, enable⟩, sysop, busop, en, mode, sda, scl⟩, clk, _⟩, _, smart⟩ := on
  ⟨⟨⟨swrst, enable⟩, sysop, busop, en, mode, sda, scl⟩, clk, rfl, smart, rfl, rfl, rfl, rfl, rfl, rfl, rfl, rfl⟩

theorem burst_readPhase {s : State} {t : SimTarget} (hp : ReadPhase s t) (dst : Dst) (k n : Nat) :
    ReadPhase (burst dst k n t s) { t with ptr := t.ptr + BitVec.ofNat 8 n } := by
  obtain ⟨⟨⟨swrst, enable⟩, sysop, busop, en, mode, sda, scl⟩, clk, env, smart, addressed, reading, owner, dir, ackpend, sb,
    buserr, pend⟩ := hp
  cases dst <;> exact ⟨⟨⟨swrst, enable⟩, sysop, busop, en, mode, sda, scl⟩, clk, rfl, smart, addressed, reading, owner, dir,
    ackpend, sb, buserr, pend⟩

/-- The state after a read frame of `n + 1` bytes. -/
def readFrame (a : BitVec 7) (dst : Dst) (n : Nat) (t : SimTarget) (s : State) : State :=
  dstWrites dst 0 (simBytes t (n + 1)) { s with
    ctrl := { closedCtrl (header a true) ((simBytes t (n + 1)).getLastD s.ctrl.data) true s.ctrl with
      ackact := if s.cfg.smart then s.ctrl.ackact else .nack }
    trace := s.trace ++ otherAck s.ctrl ++ [startEvent s.ctrl, .hdr (header a true) .ack] ++
      burstTrace (simBytes t (n + 1)) ++ [.mack .nack, .stop]
    env := .sim { t with n := 0, addressed := true, reading := true, ptr := t.ptr + BitVec.ofNat 8 (n + 1) }
    status := some .success }

/-- The state after a read frame of no length, which takes the byte of its address phase. -/
def readNone (a : BitVec 7) (t : SimTarget) (s : State) : State :=
  { s with
    ctrl := closedCtrl (header a true) (simReg t t.ptr) true s.ctrl
    trace := s.trace ++ otherAck s.ctrl ++ [startEvent s.ctrl, .hdr (header a true) .ack, .rx (simReg t t.ptr),
      .mack (if s.ctrl.smen then .nack else s.ctrl.ackact), .stop]
    env := .sim { t with n := 0, addressed := true, reading := true, ptr := t.ptr + 1#8 }
    status := some .success }

theorem status_burst (dst : Dst) (k n : Nat) (t : SimTarget) (s : State) :
    (burst dst k n t s).status = some .success := by
  cases dst <;> rfl

theorem stopped_burst {s : State} {t : SimTarget} (on : OnBus s t) (a : BitVec 7) (dst : Dst) (n : Nat) :
    stopped (burst dst 0 n { t with n := 0, addressed := true, reading := true, ptr := t.ptr + 1#8 }
      (addressed a true true t s)) = readFrame a dst n t s := by
  have smart := on.smart
  have more : t.ptr + 1#8 + BitVec.ofNat 8 n = t.ptr + BitVec.ofNat 8 (n + 1) := by
    rw [BitVec.ofNat_add, BitVec.add_comm (BitVec.ofNat 8 n), BitVec.add_assoc]
  have ack : (if s.ctrl.smen = true then Ack.nack else if s.cfg.smart = true then s.ctrl.ackact else .nack) = .nack := by
    rw [smart]
    split <;> simp [*]
  have same : simBytes { t with n := 0, addressed := true, reading := true, ptr := t.ptr + 1#8 } n =
      simBytes { t with ptr := t.ptr + 1#8 } n := rfl
  simp only [burst, addressed, readFrame, simBytes_succ, same]
  generalize simBytes _ n = bs
  cases dst <;> cases bs <;>
    simp [stopped, dstWrites, closedCtrl, otherAck, burstTrace, more, ack, List.getLast?_cons]

section Recv

variable {s u : State} {t : SimTarget} {a : BitVec 7} {dst : Dst} {n : Nat} {ret : Ret} {o : Origin} (on : OnBus s t)
include on

theorem finishes_recv (ha : a = t.addr) (g : Finishes o [.retCount ret (n + 1)] (readFrame a dst n t s) u) :
    Finishes o (recvBody a dst (n + 1) ret) s u := by
  refine finishes_addrPhase on.free on.env (decide_eq_true ha) nofun (.of_call (call_orRet rfl o ret 0 _) ?_)
  have opened := addressed_readPhase on a
  have read := burst_readPhase opened dst 0 n
  refine finishes_burstLoop opened (.of_call (call_retCount_recv (status_burst ..) o ret (n + 1) []) ?_)
  refine finishes_stop read.start read.clk read.env read.owner ?_
  exact stopped_burst on a dst n ▸ g

theorem finishes_recv_none (ha : a = t.addr) (g : Finishes o [.retCount ret 0] (readNone a t s) u) :
    Finishes o (recvBody a dst 0 ret) s u := by
  refine finishes_addrPhase on.free on.env (decide_eq_true ha) nofun (.of_call (call_orRet rfl o ret 0 _) ?_)
  have opened := addressed_readPhase on a
  refine .of_call (call_burstLoop_empty o dst 0 (.recv ret) [] _) (.of_call (call_retCount_recv rfl o ret 0 []) ?_)
  refine finishes_stop opened.start opened.clk opened.env opened.owner ?_
  have same : stopped (addressed a true true t s) = readNone a t s := by
    simp [stopped, addressed, readNone, closedCtrl, otherAck]
  exact same ▸ g

theorem finishes_recv_refused {len : Nat} (ha : a ≠ t.addr) (flag : s.cfg.readNackFlag = .sb)
    (g : Finishes o [.retCount ret 0] (addressed a true false t s) u) : Finishes o (recvBody a dst len ret) s u :=
  finishes_addrPhase on.free on.env (decide_eq_false ha) (fun _ => flag) (.of_call (call_orRet_return
    (show some TStatus.addrNack ≠ some .success from nofun) o ret 0 _) g)

end Recv

theorem simBytes_ne_nil (t : SimTarget) (n : Nat) : simBytes t (n + 1) ≠ [] := by
  rw [simBytes_succ]
  nofun

theorem getLastD_of_ne_nil {α : Type} {l : List α} (h : l ≠ []) (d : α) : l.getLastD d = l.getLast h := by
  rw [List.getLastD_eq_getLast?, List.getLast?_eq_some_getLast h, Option.getD_some]

theorem exec_sockRecv {data : Option Nat} {len : Nat} (h : data = none → len = 0) (s : State) :
    exec (.sockRecv data len) s =
      call (.instr (.sockRecv data len)) (recvBody s.sockAddr (.mem (data.getD 0)) len .top) s := by
  rw [exec, execSockRecv, nullWithLen_eq_false h]
  rfl

/-- Settles O49: an address phase, a burst and a STOP (`finishes_recv`), and the two cases without a burst. -/
theorem sockRecvCompletes : Obligations.SockRecvCompletes := by
  refine fun s t on => ⟨fun a n ha => ?_, fun data ha => ?_, fun data len ha hbuf flag => ?_⟩
  · have read := finishes_recv (o := .instr (.sockRecv (some a) (n + 1))) (dst := .mem a) (n := n) (ret := .top) on ha
      (finishes_of_call (call_retCount_top _ (n + 1) _ _))
    obtain ⟨ms, done⟩ := read.completes (exec_sockRecv (data := some a) nofun s)
    refine ⟨ms, completes_of_eq done ?_⟩
    rw [readFrame, getLastD_of_ne_nil (simBytes_ne_nil t n)]
    rfl
  · have read := finishes_recv_none (o := .instr (.sockRecv data 0)) (dst := .mem (data.getD 0)) (ret := .top) on ha
      (finishes_of_call (call_retCount_top _ 0 _ _))
    exact read.completes (exec_sockRecv (fun _ => rfl) s)
  · have read := finishes_recv_refused (o := .instr (.sockRecv data len)) (dst := .mem (data.getD 0)) (ret := .top)
      (len := len) on ha flag (finishes_of_call (call_retCount_top _ 0 _ _))
    exact read.completes (exec_sockRecv hbuf s)

end Sys2Proof.Proofs
end

section
/-! `rfa.read` and the field operations on the simulated target (spec/45_register_accessor.md R285 to R287). -/

namespace Sys2Proof.Proofs

open Sys2Proof.Machine Sys2Proof.Safety

-- a select frame and a read frame (R285)

/-- The frame that selects a register (R285). -/
def selectBody (a : BitVec 7) (off : Nat) (dst : Dst) (len : Nat) (ret : Ret) : List Stmt :=
  sendBody a (some (.bytes [Machine.regAddrByte off])) 1 (.select dst len ret)

theorem readRegs_eq {s : State} (room : 1 ≤ s.cfg.maxFrame) (o : Origin) (off : Nat) (dst : Dst) (len : Nat) (ret : Ret) :
    readRegs o off dst len ret s = call o (selectBody s.sockAddr off dst len ret) s :=
  if_neg (decide_eq_true_iff.not.2 (Nat.not_lt.2 room))

theorem selected_onBus {s : State} {t : SimTarget} (on : OnBus s t) (a : BitVec 7) (r : Byte) :
    OnBus (selected a r t s) (pointed r t) :=
  have ⟨⟨⟨⟨swrst, enable⟩, sysop, busop, en, mode, sda, scl⟩, clk, _⟩, _, smart⟩ := on
  ⟨⟨⟨⟨swrst, enable⟩, sysop, busop, en, mode, sda, scl⟩, clk, .inl rfl⟩, rfl, smart⟩

/-- The events of a select frame and the read frame's header behind it. -/
def selectTrace (a : BitVec 7) (r : Byte) (c : Ctrl) : List BusEvent :=
  otherAck c ++ [startEvent c, .hdr (header a false) .ack, .tx r .ack, .stop, .start, .hdr (header a true) .ack]

/-- The state after a select frame for `r` and a read frame of `n + 1` bytes. -/
def readAt (a : BitVec 7) (r : Byte) (dst : Dst) (n : Nat) (t : SimTarget) (s : State) : State :=
  dstWrites dst 0 (simBytes { t with ptr := r } (n + 1)) { s with
    ctrl := { closedCtrl (header a true) ((simBytes { t with ptr := r } (n + 1)).getLastD s.ctrl.data) true s.ctrl with
      ackact := if s.cfg.smart then s.ctrl.ackact else .nack }
    trace := s.trace ++ selectTrace a r s.ctrl ++ burstTrace (simBytes { t with ptr := r } (n + 1)) ++ [.mack .nack, .stop]
    env := .sim { t with n := 0, addressed := true, reading := true, ptr := r + BitVec.ofNat 8 (n + 1) }
    status := some .success }

theorem readFrame_selected (a : BitVec 7) (r : Byte) (dst : Dst) (n : Nat) (t : SimTarget) (s : State) :
    readFrame a dst n (pointed r t) (selected a r t s) = readAt a r dst n t s := by
  have same : simBytes (pointed r t) (n + 1) = simBytes { t with ptr := r } (n + 1) := rfl
  have last : (simBytes { t with ptr := r } (n + 1)).getLastD r =
      (simBytes { t with ptr := r } (n + 1)).getLastD s.ctrl.data := by
    rw [getLastD_of_ne_nil (simBytes_ne_nil _ n), getLastD_of_ne_nil (simBytes_ne_nil _ n)]
  simp only [readFrame, selected, readAt, same, ← last]
  cases dst <;>
  · simp [dstWrites, closedCtrl, otherAck, startEvent, selectTrace, pointed]
    rfl

theorem readNone_trace (a : BitVec 7) (r : Byte) (t : SimTarget) (s : State) :
    (readNone a (pointed r t) (selected a r t s)).trace =
      s.trace ++ otherAck s.ctrl ++ [startEvent s.ctrl, .hdr (header a false) .ack, .tx r .ack, .stop, .start,
        .hdr (header a true) .ack, .rx (simReg t r), .mack (if s.ctrl.smen then .nack else s.ctrl.ackact), .stop] := by
  have fresh : otherAck (selected a r t s).ctrl = [] := rfl
  rw [readNone, fresh, List.append_nil]
  exact List.append_assoc (s.trace ++ otherAck s.ctrl) _ _

section Read

variable {s u : State} {t : SimTarget} {dst : Dst} {n off : Nat} {ret : Ret} {o : Origin} (on : OnBus s t)
include on

theorem finishes_readAt (ha : s.sockAddr = t.addr)
    (g : Finishes o [.retCount ret (n + 1)] (readAt s.sockAddr (Machine.regAddrByte off) dst n t s) u) :
    Finishes o (selectBody s.sockAddr off dst (n + 1) ret) s u := by
  refine finishes_select on.free on.env ha rfl (.of_call (call_retCount_select o dst (n + 1) ret [] _) ?_)
  rw [← readFrame_selected] at g
  exact finishes_recv (selected_onBus on s.sockAddr _) ha g

theorem finishes_readAt_none (ha : s.sockAddr = t.addr)
    (g : Finishes o [.retCount ret 0] (readNone s.sockAddr (pointed (Machine.regAddrByte off) t)
      (selected s.sockAddr (Machine.regAddrByte off) t s)) u) :
    Finishes o (selectBody s.sockAddr off dst 0 ret) s u :=
  finishes_select on.free on.env ha rfl (.of_call (call_retCount_select o dst 0 ret [] _)
    (finishes_recv_none (selected_onBus on s.sockAddr _) ha g))

theorem finishes_readAt_refused {len : Nat} (ha : s.sockAddr ≠ t.addr)
    (g : Finishes o [.retCount ret 0] (addressed s.sockAddr false false t s) u) :
    Finishes o (selectBody s.sockAddr off dst len ret) s u :=
  finishes_send_refused on.free on.env ha (.of_call (call_retCount_select_failed (by decide) o dst len ret [] _) g)

end Read

theorem exec_rfaRead {offset len : Nat} {data : Option Nat} (hbuf : data = none → len = 0) (hr : offset + len ≤ 256)
    (s : State) : exec (.rfaRead offset data len) s =
      readRegs (.instr (.rfaRead offset data len)) offset (.mem (data.getD 0)) len .top s := by
  have within : beyondRegs offset len = false := decide_eq_false (Nat.not_lt.2 hr)
  rw [exec, execRfaRead, nullWithLen_eq_false hbuf, within]
  rfl

/-- Settles O56: a select frame, and behind it a read frame (`finishes_readAt`) or nothing. -/
theorem rfaReadCompletes : Obligations.RfaReadCompletes := by
  refine ⟨fun s offset data len room hbuf hr => ?_, fun s t offset on room => ⟨fun a n ha hr => ?_,
    fun data ha hr => ⟨Machine.regAddrByte offset, regAddrByte_lt, ?_⟩, fun data len ha hbuf hr => ?_⟩⟩
  · have full : tooLong s.cfg 1 = true := decide_eq_true (by omega)
    rw [exec_rfaRead hbuf hr, readRegs, if_pos full, call_retCount_select_failed (by decide), call_retCount_top]
    rfl
  · have read := finishes_readAt (o := .instr (.rfaRead offset (some a) (n + 1))) (dst := .mem a) (n := n) (ret := .top)
      (off := offset) on ha (finishes_of_call (call_retCount_top _ (n + 1) _ _))
    rw [regAddrByte_lt (by omega)] at read
    obtain ⟨ms, done⟩ := read.completes ((exec_rfaRead (data := some a) nofun hr s).trans (readRegs_eq room ..))
    refine ⟨ms, completes_of_eq done ?_⟩
    rw [readAt, getLastD_of_ne_nil (simBytes_ne_nil _ n), selectTrace, ← List.append_assoc s.trace]
    rfl
  · have read := finishes_readAt_none (o := .instr (.rfaRead offset data 0)) (dst := .mem (data.getD 0)) (ret := .top)
      (off := offset) on ha (finishes_of_call (call_retCount_top _ 0 _ _))
    obtain ⟨ms, done⟩ := read.completes ((exec_rfaRead (fun _ => rfl) hr s).trans (readRegs_eq room ..))
    exact ⟨ms, completes_of_eq done (congrArg (fun tr => returned (.count 0) { readNone s.sockAddr _ _ with trace := tr })
      (readNone_trace s.sockAddr _ t s))⟩
  · have read := finishes_readAt_refused (o := .instr (.rfaRead offset data len)) (dst := .mem (data.getD 0)) (ret := .top)
      (off := offset) (len := len) on ha (finishes_of_call (call_retCount_top _ 0 _ _))
    exact read.completes ((exec_rfaRead hbuf hr s).trans (readRegs_eq room ..))

-- the field a reference names (R286, R287)

section Field

variable {s : State} {t : SimTarget} {r : FieldRef} {i : Nat} {f : Field}

theorem resolveField_eq_some (hf : s.cfg.map[i]? = some f) (hr : resolve s.cfg.map r = some i) :
    resolveField s.cfg.map r = some (i, f) := by
  simp only [resolveField, hr, hf, Option.map_some]

theorem exec_rfaReadField (named : resolveField s.cfg.map r = some (i, f)) (hr : offsetOf s.cfg.map i + f.size ≤ 256)
    (room : 1 ≤ s.cfg.maxFrame) :
    exec (.rfaReadField r) s = call (.instr (.rfaReadField r))
      (selectBody s.sockAddr (offsetOf s.cfg.map i) .scratch f.size (.field i f.size)) { s with scratch := [] } := by
  have within : beyondRegs (offsetOf s.cfg.map i) f.size = false := decide_eq_false (Nat.not_lt.2 hr)
  simp only [exec, execRfaReadField, named, within, Bool.false_eq_true, if_false]
  exact readRegs_eq (s := { s with scratch := [] }) room _ _ _ _ _

/-- The values of a field's sub-fields are read from its number (R281). -/
theorem unpackField_eq (f : Field) (bs : List Byte) :
    unpackField f bs = f.allSubs.map (fun x => subValue x (fieldNumber bs)) := by
  simp only [unpackField, decodeSub_subBits, bytesVal_eq_fieldNumber]

theorem exec_rfaWriteField {vals : List (Option Int)} (named : resolveField s.cfg.map r = some (i, f))
    (hr : offsetOf s.cfg.map i + f.size ≤ 256) (nonempty : f.size ≠ 0) (hlen : vals.length = f.allSubs.length)
    (h : ∀ p ∈ f.allSubs.zip vals, InRange p.1 (p.2.getD p.1.dflt)) :
    exec (.rfaWriteField r vals) s = call (.instr (.rfaWriteField r vals))
      [.frame (offsetOf s.cfg.map i) (.bytes (valBytes (packNumber f vals) f.size)) 0 f.size] s := by
  have within : beyondRegs (offsetOf s.cfg.map i) f.size = false := decide_eq_false (Nat.not_lt.2 hr)
  have shape : packShape f vals = true := beq_iff_eq.2 hlen
  simp only [exec, execRfaWriteField, named, shape, if_true, packField, packVal_of_inRange h, ← packNumber_eq_entriesNumber,
    Option.map_some, within, Bool.false_eq_true, if_false, writeRegs, if_neg nonempty]

end Field

theorem buffered_bytes (m : Memory) (bs : List Byte) : Buffered m (.bytes bs) 0 bs := fun k b hk => by
  rw [Nat.zero_add]
  exact hk

/-- Settles O57: a field is read as its registers are (`finishes_readAt`), and written as they are (`finishes_frames`). -/
theorem fieldDispatcherCompletes : Obligations.FieldDispatcherCompletes := by
  intro s t r i f on ha hf hname offset hw hr closed hsize hrange
  have named := resolveField_eq_some hf (resolve_eq_some hf hname)
  have off : offset = offsetOf s.cfg.map i := (offsetOf_eq_sum _ _).symm
  rw [off] at hrange
  refine ⟨fun room => ?_, fun vals room hj hlen h => ⟨valBytes (packNumber f vals) f.size, length_valBytes _ _,
    fieldNumber_valBytes _ _, ?_⟩⟩
  · obtain ⟨n, hn⟩ : ∃ n, f.size = n + 1 := ⟨f.size - 1, by omega⟩
    have cleared : OnBus { s with scratch := [] } t :=
      have ⟨⟨⟨⟨swrst, enable⟩, sysop, busop, en, mode, sda, scl⟩, clk, bus⟩, env, smart⟩ := on
      ⟨⟨⟨⟨swrst, enable⟩, sysop, busop, en, mode, sda, scl⟩, clk, bus⟩, env, smart⟩
    have ended := call_retCount_field (f := f) (s := readAt s.sockAddr (Machine.regAddrByte (offsetOf s.cfg.map i)) .scratch n t
      { s with scratch := [] }) hf (.instr (.rfaReadField r)) (n + 1) []
    have read := finishes_readAt cleared ha (finishes_of_call ended)
    have started := exec_rfaReadField named hrange room
    rw [unpackField_eq, regAddrByte_lt (by omega)] at read
    rw [hn] at started
    obtain ⟨ms, done⟩ := read.completes started
    rw [hn, off]
    refine ⟨ms, completes_of_eq done ?_⟩
    rw [readAt, selectTrace, ← List.append_assoc s.trace]
    rfl
  · have len := length_valBytes (packNumber f vals) f.size
    have done := (finishes_frames (o := .instr (.rfaWriteField r vals)) (off := offsetOf s.cfg.map i) (total := 0) on.free
      on.env ha room (List.length_pos_iff.1 (by omega)) (by omega) hrange (buffered_bytes s.mem _)
      (fun k hk => hj k (by omega))).completes (exec_rfaWriteField named hrange (by omega) hlen h)
    rw [off]
    rw [wrote, len, Nat.add_zero] at done
    exact done

end Sys2Proof.Proofs
end
